-- ==== Sys2Proof/Word.lean ====
section
/-! DEFINITION. The data a command or a host access handles: 32-bit words, bytes, the elements of the
signal memories and the elements of SYM_MEM (spec/00_scope.md R10, R13, R14; spec/10_state.md R57). -/

namespace Sys2Proof

/-- A 32-bit word: a register's value, a command word, a host signal word (R10, R14, R73). -/
abbrev Word := BitVec 32

/-- A byte of PS, RT or TXT (R47 to R49). -/
abbrev Byte := BitVec 8

/-- A value of the signal datapath (R13's Num), as its code: which number a code stands for is said by the block's
numeric type, an argument of the model (R8; `Machine.numType`). DESIGN CHOICE of representation: State is plain
data, so a value is a natural number (log entry 5). -/
structure NumVal where
  code : Nat
  deriving DecidableEq, Repr, Inhabited

/-- A value of the default Num: the bit pattern of an IEEE-754 binary64 value (R8). Its arithmetic is
`Machine/Num.lean`. -/
structure Num64 where
  /-- the 64-bit pattern: sign, 11 exponent bits, 52 fraction bits -/
  bits : BitVec 64
  deriving DecidableEq, Repr, Inhabited

/-- An element of SYM_MEM, +1 or −1 (R57). -/
inductive SymVal where
  | plus
  | minus
  deriving DecidableEq, Repr

end Sys2Proof
end

