-- ==== Sys2Proof/Syntax.lean ====
section
/-! DEFINITION. What can be said to the block: its 17 commands (one constructor of `Instr` per row of
spec/opcode_table.json), the registers and memories a host address names, the moves of the host and the
engine, and the text forms of the assembler (spec/30_encoding.md R100 to R116; spec/10_state.md). -/

namespace Sys2Proof

/-- The offset-word selector of PACK: the block position A, B, C or D (R115). -/
inductive Block where
  | a
  | b
  | c
  | d
  deriving DecidableEq, Repr

/-- The carrier selector of MIX and MODULATE (R116). -/
inductive Carrier where
  | c57
  | c66
  | c76
  | c85
  deriving DecidableEq, Repr

/-- A decoded command (R106). An `imm` operand is the command's IMM16, zero-extended where it is used
(R104); every value of it is well formed (R109), so no term of this type is ill formed. -/
inductive Instr where
  /-- NOP, R250 -/
  | nop
  /-- SRST, R251 -/
  | srst
  /-- CRC10 #w, R140 -/
  | crc10 (imm : BitVec 16)
  /-- PACK blk, #w, R141 -/
  | pack (blk : Block) (imm : BitVec 16)
  /-- GRP0A #seg, R142 -/
  | grp0a (imm : BitVec 16)
  /-- GRP2A #seg, R143 -/
  | grp2a (imm : BitVec 16)
  /-- PSLOAD #n, R144 -/
  | psload (imm : BitVec 16)
  /-- RTLOAD #n, R145 -/
  | rtload (imm : BitVec 16)
  /-- NEXTGRP, R168 -/
  | nextgrp
  /-- GENBITS #n, R169 -/
  | genbits (imm : BitVec 16)
  /-- SEQRST, R170 -/
  | seqrst
  /-- DESIGN, R203 -/
  | design
  /-- DIFFENC, R204 -/
  | diffenc
  /-- SHAPE, R205 -/
  | shape
  /-- MIX car, R206 -/
  | mix (car : Carrier)
  /-- MODULATE car, R207 -/
  | modulate (car : Carrier)
  /-- COMPOSE, R230 -/
  | compose
  deriving DecidableEq, Repr

/-- The operation an opcode selects (R101, R106): the rows of spec/opcode_table.json without their operands. -/
inductive Mnemonic where
  | nop
  | srst
  | crc10
  | pack
  | grp0a
  | grp2a
  | psload
  | rtload
  | nextgrp
  | genbits
  | seqrst
  | design
  | diffenc
  | shape
  | mix
  | modulate
  | compose
  deriving DecidableEq, Repr

/-- The operation of a command. -/
def Instr.mnemonic : Instr → Mnemonic
  | .nop => .nop
  | .srst => .srst
  | .crc10 _ => .crc10
  | .pack _ _ => .pack
  | .grp0a _ => .grp0a
  | .grp2a _ => .grp2a
  | .psload _ => .psload
  | .rtload _ => .rtload
  | .nextgrp => .nextgrp
  | .genbits _ => .genbits
  | .seqrst => .seqrst
  | .design => .design
  | .diffenc => .diffenc
  | .shape => .shape
  | .mix _ => .mix
  | .modulate _ => .modulate
  | .compose => .compose

/-- The completion codes of STATUS.ERR (R262). Codes 0x7 to 0xF are never produced, so they have no
constructor. -/
inductive ErrCode where
  /-- 0x0 OK -/
  | ok
  /-- 0x1 E_OPC, R265 -/
  | opc
  /-- 0x2 E_FIELD, R266 -/
  | field
  /-- 0x3 E_RATE, R267 -/
  | rate
  /-- 0x4 E_NOTAPS, R268 -/
  | noTaps
  /-- 0x5 E_CAP, R269 -/
  | cap
  /-- 0x6 E_NONFINITE, R270 -/
  | nonFinite
  deriving DecidableEq, Repr

/-- The registers of the register region (spec/10_state.md section 2). -/
inductive Reg where
  | id
  | version
  | ctrl
  | status
  | cmd
  | result
  | pi
  | fs
  | pilotLevel
  | rdsLevel
  | rds2Level
  | nsamp
  | bitLen
  | logoLen
  | sps
  | ntaps
  | seqCyc
  | seqRt
  | logoCur
  | ginfo
  | gbuf (k : Fin 4)
  | symLen
  | bbLen
  | subLen
  | ps (k : Fin 2)
  | rt (k : Fin 16)
  | txt (k : Fin 16)
  deriving DecidableEq, Repr

/-- The nine block memories (spec/10_state.md section 3). -/
inductive MemName where
  | l
  | r
  | out
  | bb
  | sub
  | tap
  | bit
  | sym
  | logo
  deriving DecidableEq, Repr

/-- What a host address names: a register, or word `k` of a memory window (spec/20_memory.md R72). -/
inductive Loc where
  | reg (r : Reg)
  | mem (m : MemName) (k : Nat)
  deriving DecidableEq, Repr

/-- One move of the system around the block (spec/00_scope.md R19): the host performs an access, the engine
takes a step, or the platform asserts reset. The order of moves is plain data, so that every interleaving
of host and engine is some list of moves (R303). DESIGN CHOICE, safe (log entry 1). -/
inductive Turn where
  /-- the engine takes one step (R261) -/
  | engine
  /-- the host performs `MemRead(addr, size)` (R73, R74) -/
  | read (addr : BitVec 24) (size : Nat)
  /-- the host performs `MemWrite(addr, size, v)` (R73, R74) -/
  | write (addr : BitVec 24) (size : Nat) (v : Word)
  /-- the host's polling loop on STATUS (R114) -/
  | wait
  /-- power-on reset (R290(a)) -/
  | powerOn
  deriving DecidableEq, Repr

/-- An operand of an assembler line: an integer, or a block or carrier name (R111). -/
inductive AsmOperand where
  | imm (n : Nat)
  | name (s : String)
  deriving DecidableEq, Repr

/-- A command as the assembler reads it: a mnemonic and its operands (R111). -/
structure AsmLine where
  mnemonic : String
  operands : List AsmOperand
  deriving DecidableEq, Repr

/-- A decimal real, `(−1)^neg · digits / 10^places`: the operand of `wrf` (R114). -/
structure Decimal where
  neg : Bool
  digits : Nat
  places : Nat
  deriving DecidableEq, Repr

/-- A line of a host program (R112 to R114). -/
inductive HostLine where
  | wr (loc : Loc) (v : Word)
  | rd (loc : Loc)
  | issue (c : AsmLine)
  | wait
  | run (c : AsmLine)
  | wrf (loc : Loc) (r : Decimal)
  | settext (s : List Byte)
  | setps (s : List Byte)
  | setrt (s : List Byte)
  deriving DecidableEq, Repr

end Sys2Proof
end

