-- ==== Sys2Proof/Decode.lean ====
section
/-! DEFINITION. The decoder, total on 32-bit words (spec/30_encoding.md R107), and after it the encoder (R111), both from
the encoding tables R100, R105, R106, R115 and R116. -/

namespace Sys2Proof

/-- OPC, SEL, RSV and IMM16 (R100 to R104). -/
def opcField (w : Word) : BitVec 8 := w.extractLsb' 0 8
def selField (w : Word) : BitVec 2 := w.extractLsb' 8 2
def rsvField (w : Word) : BitVec 6 := w.extractLsb' 10 6
def immField (w : Word) : BitVec 16 := w.extractLsb' 16 16

/-- The opcode column of R106, read from the left. -/
def mnemonicOf (opc : BitVec 8) : Option Mnemonic :=
  match opc.toNat with
  | 0x00 => some .nop
  | 0x01 => some .srst
  | 0x10 => some .crc10
  | 0x11 => some .pack
  | 0x12 => some .grp0a
  | 0x13 => some .grp2a
  | 0x14 => some .psload
  | 0x15 => some .rtload
  | 0x18 => some .nextgrp
  | 0x19 => some .genbits
  | 0x1A => some .seqrst
  | 0x20 => some .design
  | 0x21 => some .diffenc
  | 0x22 => some .shape
  | 0x23 => some .mix
  | 0x24 => some .modulate
  | 0x30 => some .compose
  | _ => none

/-- R105: the commands that use SEL. -/
def Mnemonic.usesSel : Mnemonic → Bool
  | .pack => true
  | .mix => true
  | .modulate => true
  | _ => false

/-- R105: the commands that use IMM16. -/
def Mnemonic.usesImm : Mnemonic → Bool
  | .crc10 => true
  | .pack => true
  | .grp0a => true
  | .grp2a => true
  | .psload => true
  | .rtload => true
  | .genbits => true
  | _ => false

/-- The selector table of PACK (R115). -/
def Block.ofSel (sel : BitVec 2) : Block :=
  match sel.toNat with
  | 0 => .a
  | 1 => .b
  | 2 => .c
  | _ => .d

/-- The selector table of MIX and MODULATE (R116). -/
def Carrier.ofSel (sel : BitVec 2) : Carrier :=
  match sel.toNat with
  | 0 => .c57
  | 1 => .c66
  | 2 => .c76
  | _ => .c85

/-- The command of an operation and its two operand fields. -/
def Mnemonic.build (c : Mnemonic) (sel : BitVec 2) (imm : BitVec 16) : Instr :=
  match c with
  | .nop => .nop
  | .srst => .srst
  | .crc10 => .crc10 imm
  | .pack => .pack (.ofSel sel) imm
  | .grp0a => .grp0a imm
  | .grp2a => .grp2a imm
  | .psload => .psload imm
  | .rtload => .rtload imm
  | .nextgrp => .nextgrp
  | .genbits => .genbits imm
  | .seqrst => .seqrst
  | .design => .design
  | .diffenc => .diffenc
  | .shape => .shape
  | .mix => .mix (.ofSel sel)
  | .modulate => .modulate (.ofSel sel)
  | .compose => .compose

/-- R107: E_OPC for an unassigned opcode, before E_FIELD for a non-zero field the command does not use. -/
def decode (w : Word) : Except ErrCode Instr :=
  match mnemonicOf (opcField w) with
  | none => .error .opc
  | some c =>
    if rsvField w ≠ 0 then .error .field
    else if c.usesSel = false ∧ selField w ≠ 0 then .error .field
    else if c.usesImm = false ∧ immField w ≠ 0 then .error .field
    else .ok (c.build (selField w) (immField w))

/-- The opcode column of R106, read from the right. -/
def Mnemonic.opcode : Mnemonic → BitVec 8
  | .nop => 0x00
  | .srst => 0x01
  | .crc10 => 0x10
  | .pack => 0x11
  | .grp0a => 0x12
  | .grp2a => 0x13
  | .psload => 0x14
  | .rtload => 0x15
  | .nextgrp => 0x18
  | .genbits => 0x19
  | .seqrst => 0x1A
  | .design => 0x20
  | .diffenc => 0x21
  | .shape => 0x22
  | .mix => 0x23
  | .modulate => 0x24
  | .compose => 0x30

/-- R115 and R116, read from the right. -/
def Block.sel : Block → BitVec 2
  | .a => 0
  | .b => 1
  | .c => 2
  | .d => 3

def Carrier.sel : Carrier → BitVec 2
  | .c57 => 0
  | .c66 => 1
  | .c76 => 2
  | .c85 => 3

/-- The SEL and IMM16 fields of a command; 0 where the command uses none (R105). -/
def Instr.sel : Instr → BitVec 2
  | .pack blk _ => blk.sel
  | .mix car => car.sel
  | .modulate car => car.sel
  | _ => 0

def Instr.imm : Instr → BitVec 16
  | .crc10 imm => imm
  | .pack _ imm => imm
  | .grp0a imm => imm
  | .grp2a imm => imm
  | .psload imm => imm
  | .rtload imm => imm
  | .genbits imm => imm
  | _ => 0

/-- R111: `(imm << 16) | (sel << 8) | OPC`. -/
def encode (i : Instr) : Word :=
  (i.imm.setWidth 32 <<< 16) ||| (i.sel.setWidth 32 <<< 8) ||| i.mnemonic.opcode.setWidth 32

/-- The command the decoder reads from a table row's bits `w`, bit 0 the least significant of the one 32-bit word
(R100, R110); bits at and above `nbits` are 0. -/
def decodeTableWord (nbits w : Nat) : Option Instr :=
  match decode (BitVec.ofNat 32 (w % 2 ^ nbits)) with
  | .ok i => some i
  | .error _ => none

end Sys2Proof
end

