-- ==== Sys2Proof/Config.lean ====
section
/-! DEFINITION. What is fixed for one block: the constants of spec/00_scope.md R7, the implementation parameters
of R8, and the free values the spec leaves open. A free value is an opaque constant with no body, so no proof can
know what it is. -/

namespace Sys2Proof.Config

/-- ID, "JMPX" (spec/10_state.md R23). -/
def idWord : Word := 0x4A4D5058

/-- VERSION: source edition 7, command set 1 (spec/10_state.md R24). -/
def versionWord : Word := 0x00070001

/-- MIN_TAPS (R7). -/
def minTaps : Nat := 41

/-- MIN_SPS · BIT_RATE, the least sample rate that DESIGN accepts (spec/42_subcarrier_modulator.md R190). -/
def minRate : Nat := 4750

/-- GROUP_BITS, also the longest logo chunk (R7; spec/41_rds_sequencer.md R163). -/
def groupBits : Nat := 104

/-- LOGO_PERIOD, CADENCE_PERIOD and PS_CYCLE: CYC's three moduli (R7; spec/41_rds_sequencer.md R161). -/
def logoPeriod : Nat := 5
def cadencePeriod : Nat := 3
def psCycle : Nat := 4

/-- F_PILOT and F_DSB in Hz (R7). The subcarrier frequencies are `Machine.carrierHz`. -/
def pilotHz : Nat := 19000
def dsbHz : Nat := 38000

/-- LAT − 1 for the command accepted at draw `n`: the engine steps it takes before the one that completes it. Any
finite number (R8, R261). Free value (log entry 3). -/
opaque latency : Nat → Nat

/-- The word of draw `n`: what the host reads where the spec gives "an unspecified word" (spec/20_memory.md R70(a),
R83(b)). Free value (log entry 9). -/
opaque freeWord : Nat → BitVec 32

/-- Sine and cosine of the default Num before their range is imposed (`Machine.sinN`, `Machine.cosN`): functions of
whose accuracy the spec says nothing (R13, 93 I2). Free values (log entry 6). -/
opaque sinRaw : Num64 → Num64
opaque cosRaw : Num64 → Num64

end Sys2Proof.Config

namespace Sys2Proof

/-- The constants and operations of a numeric type of the signal datapath (R13). What R13 says of them is `NumType.Legal`. -/
structure NumType where
  /-- `num(k)` -/
  ofInt : Int → NumVal
  /-- the literal 0.5, which is also BETA -/
  half : NumVal
  /-- the literal 0.999, CLAMP -/
  clamp : NumVal
  /-- the literal 1e-8, SINGULAR_EPS -/
  eps : NumVal
  /-- `PI` -/
  pi : NumVal
  add : NumVal → NumVal → NumVal
  sub : NumVal → NumVal → NumVal
  mul : NumVal → NumVal → NumVal
  div : NumVal → NumVal → NumVal
  /-- unary minus -/
  neg : NumVal → NumVal
  abs : NumVal → NumVal
  lt : NumVal → NumVal → Bool
  gt : NumVal → NumVal → Bool
  eq : NumVal → NumVal → Bool
  /-- `sinN` and `cosN` -/
  sin : NumVal → NumVal
  cos : NumVal → NumVal
  isFinite : NumVal → Bool
  deriving Inhabited

/-- The value `c` is a nearest Num value to the real number `q`, where `value` says which number a finite value is. -/
def IsNearest (value : NumVal → Option ℝ) (q : ℝ) (c : NumVal) : Prop :=
  ∃ a, value c = some a ∧ ∀ v b, value v = some b → |a - q| ≤ |b - q|

/-- R13's laws of a Num, of which a finite value `v` is the number `value v` and which rounds a real number `q` to `round q`.
Nothing is said of an operation on a value that is not finite, of a division by zero, or of sine and cosine beyond being
functions (93 I2); which number `round` gives where `q` is not representable is the Num's own (93 I1). That one rounding
serves every operation and leaves a representable number as it is: DEDUCED (log entry 5). -/
structure NumType.Models (N : NumType) (value : NumVal → Option ℝ) (round : ℝ → NumVal) : Prop where
  isFinite : ∀ x, N.isFinite x = (value x).isSome
  round_exact : ∀ x q, value x = some q → value (round q) = some q
  ofInt : ∀ k : Int, value (N.ofInt k) = value (round k)
  half : IsNearest value (1 / 2) N.half
  clamp : IsNearest value (999 / 1000) N.clamp
  eps : IsNearest value (1 / 100000000) N.eps
  pi : IsNearest value Real.pi N.pi
  add : ∀ x y a b, value x = some a → value y = some b → value (N.add x y) = value (round (a + b))
  sub : ∀ x y a b, value x = some a → value y = some b → value (N.sub x y) = value (round (a - b))
  mul : ∀ x y a b, value x = some a → value y = some b → value (N.mul x y) = value (round (a * b))
  div : ∀ x y a b, value x = some a → value y = some b → b ≠ 0 → value (N.div x y) = value (round (a / b))
  neg : ∀ x a, value x = some a → value (N.neg x) = value (round (-a))
  abs : ∀ x a, value x = some a → value (N.abs x) = value (round |a|)
  lt : ∀ x y a b, value x = some a → value y = some b → (N.lt x y = true ↔ a < b)
  gt : ∀ x y a b, value x = some a → value y = some b → (N.gt x y = true ↔ b < a)
  eq : ∀ x y a b, value x = some a → value y = some b → (N.eq x y = true ↔ a = b)

/-- R8's constraint on the argument Num: "a model of rule R13". -/
def NumType.Legal (N : NumType) : Prop := ∃ value round, N.Models value round

/-- A numeric type with one value, the number 0. It is legal, and says nothing of a block. -/
def oneValueNum : NumType where
  ofInt _ := ⟨0⟩
  half := ⟨0⟩
  clamp := ⟨0⟩
  eps := ⟨0⟩
  pi := ⟨0⟩
  add _ _ := ⟨0⟩
  sub _ _ := ⟨0⟩
  mul _ _ := ⟨0⟩
  div _ _ := ⟨0⟩
  neg _ := ⟨0⟩
  abs _ := ⟨0⟩
  lt _ _ := false
  gt _ _ := false
  eq _ _ := true
  sin _ := ⟨0⟩
  cos _ := ⟨0⟩
  isFinite _ := true

theorem oneValueNum_legal : oneValueNum.Legal := by
  refine ⟨fun _ => some 0, fun _ => ⟨0⟩, ?_⟩
  constructor <;> simp [oneValueNum, IsNearest]

/-- A numeric type with the proof that R13 allows it. The values written here only show that there is one: they are no value of
`Config.otherNum`. -/
structure LegalNum where
  num : NumType := oneValueNum
  legal : num.Legal := by exact oneValueNum_legal
  deriving Inhabited

/-- A pair of conversions between host words and Num values (R14). -/
structure HostFormat where
  /-- none where the word encodes no finite value -/
  decode : Word → Option NumVal
  encode : NumVal → Word
  deriving Inhabited

/-- The Num argument of R8: its default, or any other numeric type. -/
inductive NumChoice where
  | binary64
  | other (k : Nat)
  deriving DecidableEq, Repr

/-- The dec32/enc32 argument of R8: its default, or any other pair of conversions. -/
inductive FormatChoice where
  | binary32
  | other (k : Nat)
  deriving DecidableEq, Repr

/-- Numeric types and conversions other than the defaults. Nothing is known of them but that each numeric type is a model of R13,
so that what is proved of a block with `other k` holds whatever its Num and its conversions are (R8, 93 I1, I3; log entry 5). -/
opaque Config.otherNum : Nat → LegalNum
opaque Config.otherFormat : Nat → HostFormat

/-- The implementation parameters of R8 but LAT, which is drawn per command (`Config.latency`). A model takes them as
arguments: `Machine.State.params` holds them and no step changes them (log entry 4). -/
structure Params where
  /-- entries of L_MEM, R_MEM, OUT_MEM, BB_MEM and SUB_MEM -/
  sampleCap : Nat
  /-- elements of BIT_MEM and SYM_MEM -/
  bitCap : Nat
  /-- bits of LOGO_MEM -/
  logoCap : Nat
  /-- entries of TAP_MEM -/
  tapCap : Nat
  /-- Num -/
  num : NumChoice
  /-- dec32 and enc32 -/
  format : FormatChoice
  deriving DecidableEq, Repr

/-- The defaults of R8. -/
def Params.default : Params :=
  { sampleCap := 262144, bitCap := 65536, logoCap := 2058, tapCap := 4096, num := .binary64, format := .binary32 }

end Sys2Proof
end

