-- ==== Sys2Proof/Machine/State.lean ====
section
/-! DEFINITION. The state of the block (spec/10_state.md), the reasons a step can stop, and the state after power-on
reset (spec/70_reset_and_hazards.md R291 to R293). Operations on it are in `Machine/Ops.lean`. -/

namespace Sys2Proof.Machine

/-- A block memory: its defined elements as (index, element) pairs, indices strictly rising. An index that is not
listed is ⊥ (spec/20_memory.md R70; log entry 8). -/
abbrev Mem (α : Type) := List (Nat × α)

/-- GINFO.GTYPE (R42): 0 none, 1 group 0A, 2 group 2A, 3 logo chunk. -/
inductive GType where
  | none
  | group0A
  | group2A
  | logo
  deriving DecidableEq, Repr

/-- The engine (R60): idle, or busy with the command word in flight. `left` counts the engine steps that pass before the
one that completes the command, so LAT = left + 1 at acceptance (R8, R261; log entry 3). -/
inductive Engine where
  | idle
  | busy (w : Word) (left : Nat)
  deriving DecidableEq, Repr

/-- The state. Register fields carry the rule of spec/10_state.md that gives them; counts are natural numbers bounded by the
capacities (log entry 11). -/
structure State where
  /-- the implementation parameters of this block, which no step changes (00_scope.md R8) -/
  params : Params
  /-- CTRL[2:0]: RDS2_EN, LOGO_EN, IRQ_EN (R25) -/
  ctrl : BitVec 3
  /-- STATUS.DONE (R26) -/
  done : Bool
  /-- STATUS.TAPS_VALID (R26) -/
  tapsValid : Bool
  /-- STATUS.ERR (R26) -/
  err : ErrCode
  /-- STATUS.ACCERR (R26) -/
  accErr : Bool
  /-- STATUS.WBUSY (R26) -/
  wBusy : Bool
  /-- LASTCMD (R27) -/
  lastCmd : Word
  /-- RESULT[25:0] (R28) -/
  result : BitVec 26
  /-- PI[15:0] (R29) -/
  pi : BitVec 16
  /-- FS (R30) -/
  fs : Word
  /-- PILOT_LEVEL (R31) -/
  pilotLevel : Word
  /-- RDS_LEVEL (R32) -/
  rdsLevel : Word
  /-- RDS2_LEVEL (R33) -/
  rds2Level : Word
  /-- NSAMP (R34) -/
  nsamp : Nat
  /-- BIT_LEN (R35) -/
  bitLen : Nat
  /-- LOGO_LEN (R36) -/
  logoLen : Nat
  /-- SPS (R37) -/
  sps : Nat
  /-- NTAPS (R38) -/
  ntaps : Nat
  /-- SEQ_CYC.CYC (R39) -/
  cyc : Fin 60
  /-- SEQ_RT.RT_IDX (R40) -/
  rtIdx : Fin 16
  /-- LOGO_CUR (R41) -/
  logoCur : Nat
  /-- GINFO.GLEN (R42) -/
  glen : Nat
  /-- GINFO.GTYPE (R42) -/
  gtype : GType
  /-- GBUF0 to GBUF3 (R43) -/
  gbuf : Vector Word 4
  /-- SYM_LEN (R44) -/
  symLen : Nat
  /-- BB_LEN (R45) -/
  bbLen : Nat
  /-- SUB_LEN (R46) -/
  subLen : Nat
  /-- PS[0..7], the registers PS0 and PS1 (R47) -/
  ps : Vector Byte 8
  /-- RT[0..63], the registers RT0 to RT15 (R48) -/
  rt : Vector Byte 64
  /-- TXT[0..63], the registers TXT0 to TXT15, also called TXT_MEM (R49, R59) -/
  txt : Vector Byte 64
  /-- L_MEM and R_MEM (R51) -/
  lMem : Mem Word
  rMem : Mem Word
  /-- OUT_MEM (R52) -/
  outMem : Mem NumVal
  /-- BB_MEM (R53) -/
  bbMem : Mem NumVal
  /-- SUB_MEM (R54) -/
  subMem : Mem NumVal
  /-- TAP_MEM (R55) -/
  tapMem : Mem NumVal
  /-- BIT_MEM (R56) -/
  bitMem : Mem Bool
  /-- SYM_MEM (R57) -/
  symMem : Mem SymVal
  /-- LOGO_MEM (R58) -/
  logoMem : Mem Bool
  /-- the engine; STATUS.BUSY is 1 exactly when it is busy (R60) -/
  eng : Engine
  /-- MODEL: the moves still to come; when the list is empty every move is the engine's (log entry 1) -/
  turns : List Turn
  /-- MODEL: the words the bus has returned to the host, newest first (log entry 10) -/
  replies : List Word
  /-- MODEL: the index of the next free value (log entries 3 and 9) -/
  draws : Nat
  deriving DecidableEq, Repr

/-- Model faults (spec/60_exceptions.md R280): the run stops and nothing is proved about it. They never set ERR. -/
inductive Fault where
  /-- UNDEF_READ, R70(b): the command read element `index` of a memory, inside its operand range, while it is ⊥. Raised by
  NEXTGRP, GENBITS, DIFFENC, SHAPE, MIX, MODULATE and COMPOSE. Safe: a run stops where the spec defines nothing. -/
  | undefRead (cmd : Mnemonic) (mem : MemName) (index : Nat)
  /-- A Num result outside the domain (R280, 93 I1): the sum of output sample `index` is not finite. Raised by COMPOSE. Safe:
  the spec says that a model treats a non-finite sum as a fault (log entry 7). -/
  | numDomain (cmd : Mnemonic) (index : Nat)
  deriving DecidableEq, Repr

/-- Reasons for a refusal. -/
inductive Refusal where
  /-- The instruction has no meaning in the model yet. Raised only in an arm of `exec`; no arm raises it. Safe: a run
  stops. -/
  | notModelled (mnemonic : String)
  deriving DecidableEq, Repr

/-- The outcome of a step of this machine. -/
abbrev Result := Host.Outcome State Fault Refusal

/-- Power-on reset (R291 to R293): every register at its table value, every memory element ⊥, the engine idle, nothing
pending. -/
def State.reset : State :=
  { params := .default
    ctrl := 0
    done := false
    tapsValid := false
    err := .ok
    accErr := false
    wBusy := false
    lastCmd := 0
    result := 0
    pi := 0
    fs := 0
    pilotLevel := 0
    rdsLevel := 0
    rds2Level := 0
    nsamp := 0
    bitLen := 0
    logoLen := 0
    sps := 0
    ntaps := 0
    cyc := 0
    rtIdx := 0
    logoCur := 0
    glen := 0
    gtype := .none
    gbuf := .replicate 4 0
    symLen := 0
    bbLen := 0
    subLen := 0
    ps := .replicate 8 0x20
    rt := .replicate 64 0x20
    txt := .replicate 64 0
    lMem := []
    rMem := []
    outMem := []
    bbMem := []
    subMem := []
    tapMem := []
    bitMem := []
    symMem := []
    logoMem := []
    eng := .idle
    turns := []
    replies := []
    draws := 0 }

end Sys2Proof.Machine
end

