-- ==== Sys2Proof/Machine/Ops.lean ====
section
/-! DEFINITION. The operations every command and every host access is made of: the memories, the packing of bytes and
bits in words (spec/20_memory.md R78, R79), and the life of a command, with its error path (spec/60_exceptions.md
R260 to R264). -/

namespace Sys2Proof.Machine

/-! ### Memories -/

/-- Element `k`, or none where it is ⊥ (R70). -/
def memGet {α : Type} : Mem α → Nat → Option α
  | [], _ => none
  | (j, v) :: m, k => if j = k then some v else memGet m k

/-- Element `k` becomes `v`. -/
def memSet {α : Type} : Mem α → Nat → α → Mem α
  | [], k, v => [(k, v)]
  | (j, u) :: m, k, v =>
    if k < j then (k, v) :: (j, u) :: m else if k = j then (k, v) :: m else (j, u) :: memSet m k v

/-- The elements of a sequence at the indices from `k` on. -/
def memIndexed {α : Type} (k : Nat) : List α → Mem α
  | [] => []
  | v :: vs => (k, v) :: memIndexed (k + 1) vs

/-- `MEM[0 .. len(vs)) <- vs`; the elements from `len(vs)` on keep their contents. -/
def memFill {α : Type} (m : Mem α) (vs : List α) : Mem α :=
  memIndexed 0 vs ++ m.filter (fun e => decide (vs.length ≤ e.1))

/-- `MEM[a .. a + n)`, or the first index in it that is ⊥. -/
def memRange {α : Type} (m : Mem α) : Nat → Nat → Except Nat (List α)
  | _, 0 => .ok []
  | a, n + 1 =>
    match memGet m a with
    | none => .error a
    | some v =>
      match memRange m (a + 1) n with
      | .ok vs => .ok (v :: vs)
      | .error k => .error k

/-- The canonical form of a memory: indices strictly rising. ⊥ is no value, so no listed element reads as an unlisted
one does. -/
abbrev Memory.wf {α : Type} (m : Mem α) : Prop := m.Pairwise (fun e d => e.1 < d.1)

/-- Every listed index lies below the memory's capacity. -/
abbrev memBelow {α : Type} (cap : Nat) (m : Mem α) : Prop := ∀ e ∈ m, e.1 < cap

/-- A command's operand range `MEM[a .. a + n)`; a ⊥ element in it is the model fault UNDEF_READ (R70(b)). -/
def readOperand {α : Type} (cmd : Mnemonic) (name : MemName) (m : Mem α) (a n : Nat) : Except Fault (List α) :=
  match memRange m a n with
  | .ok vs => .ok vs
  | .error k => .error (.undefRead cmd name k)

/-! ### Packing, most significant first -/

/-- The number whose binary digits are `bs`, the first the most significant. -/
def bitsToNat (bs : List Bool) : Nat := bs.foldl (fun n b => 2 * n + b.toNat) 0

/-- `bitsMSB(v, n)` (spec/00_scope.md R11). -/
def bitsMSB {n : Nat} (v : BitVec n) : List Bool := (List.range n).map v.getMsbD

/-- The word whose bit `31 − j` is `f j` (R79). -/
def packWord (f : Nat → Bool) : Word := BitVec.ofNat 32 (bitsToNat ((List.range 32).map f))

/-- All the values, or none where one is missing. -/
def allSome {α : Type} : List (Option α) → Option (List α)
  | [] => some []
  | none :: _ => none
  | some v :: vs =>
    match allSome vs with
    | none => none
    | some r => some (v :: r)

/-- Word `k` of a packed memory of capacity `cap`, or none where it holds a ⊥ element; positions at or beyond the capacity
read 0 (R70(a), R79). A word that holds both a ⊥ element and such positions is none as a whole: DESIGN CHOICE, safe (log
entry 17). -/
def packedRead {α : Type} (toBit : α → Bool) (m : Mem α) (cap k : Nat) : Option Word :=
  match allSome ((List.range 32).map fun j =>
      if 32 * k + j < cap then (memGet m (32 * k + j)).map toBit else some false) with
  | none => none
  | some bs => some (BitVec.ofNat 32 (bitsToNat bs))

/-- A host write of word `k` of a packed memory: all its elements below the capacity, at once (R79). -/
def packedWrite (m : Mem Bool) (cap k : Nat) (w : Word) : Mem Bool :=
  (List.range 32).foldl (fun m j => if 32 * k + j < cap then memSet m (32 * k + j) (w.getMsbD j) else m) m

/-- Byte `j` of a word, byte 0 the most significant (R78). -/
def byteOfWord (w : Word) (j : Nat) : Byte := w.extractLsb' (24 - 8 * j) 8

/-- Word `k` of a byte array (R78). -/
def wordOfBytes {n : Nat} (v : Vector Byte n) (k : Nat) (h : 4 * k + 3 < n) : Word :=
  v[4 * k] ++ v[4 * k + 1] ++ v[4 * k + 2] ++ v[4 * k + 3]

/-- A byte array with word `k` replaced (R78). -/
def setWordOfBytes {n : Nat} (v : Vector Byte n) (k : Nat) (w : Word) : Vector Byte n :=
  Vector.ofFn fun j => if j.val / 4 = k then byteOfWord w (j.val % 4) else v[j]

/-! ### The life of a command -/

/-- STATUS.BUSY (spec/10_state.md R60). -/
def isBusy (s : State) : Bool :=
  match s.eng with
  | .idle => false
  | .busy _ _ => true

/-- Acceptance of a command word (R260), with the engine steps that pass before its last one. -/
def acceptWith (w : Word) (left : Nat) (s : State) : State :=
  { s with lastCmd := w, done := false, err := .ok, eng := .busy w left }

/-- Acceptance of a CMD write, with a free latency (R8, R260). -/
def acceptCommand (w : Word) (s : State) : State :=
  { acceptWith w (Config.latency s.draws) s with draws := s.draws + 1 }

/-- Completion with a code (R261): ERR, DONE, BUSY and the engine, all at once. -/
def complete (code : ErrCode) (s : State) : State :=
  { s with err := code, done := true, eng := .idle }

/-- A command that succeeds, in the state that holds its write set's new values (R261). -/
def succeed (s : State) : Result := .next (complete .ok s)

/-- `raise E_…`, the block's one error path: the command completes with the code and writes none of its write set
(R263). -/
def raiseError (code : ErrCode) (s : State) : Result := .next (complete code s)

/-- A command that goes on with a value, or ends in the model fault met on the way (R280). -/
def withValue {α : Type} (r : Except Fault α) (k : α → Result) : Result :=
  match r with
  | .error f => .fault f
  | .ok v => k v

end Sys2Proof.Machine
end

