-- ==== Sys2Proof/Machine/Flags.lean ====
section
/-! DEFINITION. The fields of CTRL, STATUS and GINFO as the host sees them, and the interrupt line (spec/10_state.md R25, R26,
R42, R64, R65; spec/60_exceptions.md R262, R272 to R275). -/

namespace Sys2Proof.Machine

/-- CTRL.RDS2_EN, CTRL.LOGO_EN and CTRL.IRQ_EN (R25). -/
def rds2En (s : State) : Bool := s.ctrl.getLsbD 0
def logoEn (s : State) : Bool := s.ctrl.getLsbD 1
def irqEn (s : State) : Bool := s.ctrl.getLsbD 2

/-- The value of CTRL: bits [31:3] read 0 (R22, R25). -/
def ctrlWord (s : State) : Word := s.ctrl.setWidth 32

/-- The code numbers of R262. -/
def errBits : ErrCode → BitVec 4
  | .ok => 0
  | .opc => 1
  | .field => 2
  | .rate => 3
  | .noTaps => 4
  | .cap => 5
  | .nonFinite => 6

/-- A bit at a position of a word. -/
def bitAt (b : Bool) (n : Nat) : Word := (BitVec.ofBool b).setWidth 32 <<< n

/-- The value of STATUS (R26): BUSY 0, DONE 1, TAPS_VALID 2, ERR [7:4], ACCERR 8, WBUSY 9. -/
def statusWord (s : State) : Word :=
  bitAt (isBusy s) 0 ||| bitAt s.done 1 ||| bitAt s.tapsValid 2 ||| ((errBits s.err).setWidth 32 <<< 4) |||
    bitAt s.accErr 8 ||| bitAt s.wBusy 9

/-- A host write of STATUS: a 1 clears DONE, ACCERR or WBUSY; nothing else responds (R26, R275). -/
def clearStatus (v : Word) (s : State) : State :=
  { s with
    done := s.done && !v.getLsbD 1
    accErr := s.accErr && !v.getLsbD 8
    wBusy := s.wBusy && !v.getLsbD 9 }

/-- The code numbers of GTYPE (R42). -/
def gtypeBits : GType → BitVec 2
  | .none => 0
  | .group0A => 1
  | .group2A => 2
  | .logo => 3

/-- The value of GINFO: GLEN [6:0], GTYPE [9:8] (R42). -/
def ginfoWord (s : State) : Word :=
  (BitVec.ofNat 7 s.glen).setWidth 32 ||| ((gtypeBits s.gtype).setWidth 32 <<< 8)

/-- The interrupt line (R64, R274). -/
def irq (s : State) : Bool := irqEn s && s.done

end Sys2Proof.Machine
end

