-- ==== Sys2Proof/Machine/Num.lean ====
section
/-! DEFINITION. The numeric type of the signal datapath and the conversions of the host's signal words. First their
defaults, IEEE-754 binary64 with round to nearest even for Num and binary32 for the words (spec/00_scope.md R8, R13, R14;
log entry 5): a finite value of either format is a whole number of the format's smallest step, so every operation computes
exactly on whole numbers and rounds once, in `roundUnits`. Then the numeric type and the conversions of a block, which are
arguments (R8), and the functions of R15 to R17 over any numeric type. -/

namespace Sys2Proof.Machine

/-- An IEEE-754 binary format: its fraction and exponent widths. -/
structure FloatFmt where
  fracBits : Nat
  expBits : Nat
  deriving DecidableEq, Repr

def binary64 : FloatFmt := { fracBits := 52, expBits := 11 }
def binary32 : FloatFmt := { fracBits := 23, expBits := 8 }

/-- The smallest positive value is `2 ^ −unitExp`: 1074 for binary64, 149 for binary32. -/
def unitExp (f : FloatFmt) : Nat := 2 ^ (f.expBits - 1) + f.fracBits - 2

/-- The sign bit as a number: patterns at or above it are negative. -/
def signWeight (f : FloatFmt) : Nat := 2 ^ (f.fracBits + f.expBits)

/-- The pattern of +∞: magnitudes below it are finite, above it NaN. -/
def infPattern (f : FloatFmt) : Nat := (2 ^ f.expBits - 1) * 2 ^ f.fracBits

/-- The pattern of the NaN an operation returns: quiet, with no payload. DESIGN CHOICE, safe (log entry 5). -/
def nanPattern (f : FloatFmt) : Nat := infPattern f + 2 ^ (f.fracBits - 1)

/-- The value of a magnitude pattern (sign removed) in units of `2 ^ −unitExp`. Infinity counts as the next power of two
above the largest finite value, which orders it above every finite value. -/
def unitsOf (f : FloatFmt) (mag : Nat) : Nat :=
  let e := mag / 2 ^ f.fracBits
  let frac := mag % 2 ^ f.fracBits
  if e = 0 then frac else (2 ^ f.fracBits + frac) * 2 ^ (e - 1)

/-- The magnitude pattern nearest to `num / den` units, ties to the even one, +∞ beyond the largest finite value. With `q` the
exponent of one last-place step, the pattern is `q · 2^fracBits + k` for `k` steps, carries included. -/
def roundUnits (f : FloatFmt) (num den : Nat) : Nat :=
  let q := Nat.log2 (num / den) - f.fracBits
  let step := den * 2 ^ q
  let k := num / step
  let rest := num % step
  let up := step < 2 * rest || (2 * rest == step && k % 2 == 1)
  min (q * 2 ^ f.fracBits + (if up then k + 1 else k)) (infPattern f)

/-- A pattern from a sign and a magnitude. -/
def signed (f : FloatFmt) (neg : Bool) (mag : Nat) : Nat := if neg then signWeight f + mag else mag

/-- The sign and the magnitude of a Num. -/
def numNeg (x : Num64) : Bool := decide (signWeight binary64 ≤ x.bits.toNat)
def numMag (x : Num64) : Nat := x.bits.toNat % signWeight binary64

def numOf (neg : Bool) (mag : Nat) : Num64 := ⟨BitVec.ofNat 64 (signed binary64 neg mag)⟩

def numNaN : Num64 := numOf false (nanPattern binary64)
def numInf (neg : Bool) : Num64 := numOf neg (infPattern binary64)

/-- R13's `isFinite`. -/
def numFinite (x : Num64) : Bool := decide (numMag x < infPattern binary64)
def numIsNaN (x : Num64) : Bool := decide (infPattern binary64 < numMag x)
def numIsInf (x : Num64) : Bool := decide (numMag x = infPattern binary64)

/-- The magnitude of a Num in units of 2^−1074, and the signed value. -/
def numUnits (x : Num64) : Nat := unitsOf binary64 (numMag x)
def numInt (x : Num64) : Int := if numNeg x then -(numUnits x : Int) else (numUnits x : Int)

/-- One unit's reciprocal, 2^1074. -/
def unitScale : Nat := 2 ^ unitExp binary64

/-- The Num nearest to `± num / den`. -/
def numOfRatio (neg : Bool) (num den : Nat) : Num64 :=
  numOf neg (roundUnits binary64 (num * unitScale) den)

/-- R13's `num(k)`. -/
def num (k : Int) : Num64 := numOfRatio (decide (k < 0)) k.natAbs 1

/-- R13's literals: 0.5 (also BETA), 0.999 (CLAMP), 1e-8 (SINGULAR_EPS), each the nearest Num. -/
def numHalf : Num64 := numOfRatio false 1 2
def numClamp : Num64 := numOfRatio false 999 1000
def numEps : Num64 := numOfRatio false 1 100000000

/-- R13's `PI`, the Num nearest π: that this pattern is the one is `pi_isNearest` of Laws/Binary64.lean. -/
def numPi : Num64 := ⟨0x400921FB54442D18⟩

/-- Unary minus and absolute value: the sign bit alone. -/
def numNegate (x : Num64) : Num64 := numOf (!numNeg x) (numMag x)
def numAbs (x : Num64) : Num64 := numOf false (numMag x)

/-- Addition. An exact zero sum is −0 when both operands are negative (both −0) and +0 otherwise. -/
def numAdd (x y : Num64) : Num64 :=
  if numIsNaN x || numIsNaN y then numNaN
  else if numIsInf x then (if numIsInf y && numNeg x != numNeg y then numNaN else x)
  else if numIsInf y then y
  else
    let sum := numInt x + numInt y
    if sum = 0 then numOf (numNeg x && numNeg y) 0
    else numOf (decide (sum < 0)) (roundUnits binary64 sum.natAbs 1)

/-- Subtraction is addition of the opposite. -/
def numSub (x y : Num64) : Num64 := numAdd x (numNegate y)

/-- Multiplication. The product of two unit counts is in units of 2^−2148. -/
def numMul (x y : Num64) : Num64 :=
  let neg := numNeg x != numNeg y
  if numIsNaN x || numIsNaN y then numNaN
  else if numIsInf x || numIsInf y then (if numUnits x = 0 || numUnits y = 0 then numNaN else numInf neg)
  else numOf neg (roundUnits binary64 (numUnits x * numUnits y) unitScale)

/-- Division. -/
def numDiv (x y : Num64) : Num64 :=
  let neg := numNeg x != numNeg y
  if numIsNaN x || numIsNaN y then numNaN
  else if numIsInf x then (if numIsInf y then numNaN else numInf neg)
  else if numIsInf y then numOf neg 0
  else if numUnits y = 0 then (if numUnits x = 0 then numNaN else numInf neg)
  else numOf neg (roundUnits binary64 (numUnits x * unitScale) (numUnits y))

/-- R13's comparisons: false where an operand is NaN; +0 and −0 are equal. -/
def numLt (x y : Num64) : Bool := !(numIsNaN x || numIsNaN y) && decide (numInt x < numInt y)
def numEq (x y : Num64) : Bool := !(numIsNaN x || numIsNaN y) && decide (numInt x = numInt y)

/-- `−1 ≤ v ≤ 1`, imposed on a free value: the nearest bound outside it, +0 for NaN. -/
def limitUnit (v : Num64) : Num64 :=
  if numIsNaN v then num 0
  else if numLt v (num (-1)) then num (-1)
  else if numLt (num 1) v then num 1
  else v

/-- R13's `sinN` and `cosN`: functions with values in [−1, 1], otherwise free. DEDUCED from spec/43_mpx_composer.md R240(b),
unsafe for a library whose sine leaves [−1, 1] (log entry 6). -/
def sinN (x : Num64) : Num64 := limitUnit (Config.sinRaw x)
def cosN (x : Num64) : Num64 := limitUnit (Config.cosRaw x)

/-- R14's default dec32: binary32 to binary64, exact; none where the word is NaN or infinite. A binary32 unit is 2^925 binary64
units. -/
def decBinary32 (w : Word) : Option Num64 :=
  let mag := w.toNat % signWeight binary32
  if mag < infPattern binary32 then
    some (numOf (decide (signWeight binary32 ≤ w.toNat))
      (roundUnits binary64 (unitsOf binary32 mag * 2 ^ (unitExp binary64 - unitExp binary32)) 1))
  else none

/-- The binary32 word nearest to `± num / den` (R14; the word of `wrf`, R114). -/
def word32OfRatio (neg : Bool) (num den : Nat) : Word :=
  BitVec.ofNat 32 (signed binary32 neg (roundUnits binary32 (num * 2 ^ unitExp binary32) den))

/-- R14's default enc32: binary64 to binary32, round to nearest even; ±∞ stays infinite and NaN gives the quiet NaN. -/
def encBinary32 (v : Num64) : Word :=
  if numIsNaN v then BitVec.ofNat 32 (nanPattern binary32)
  else if numIsInf v then BitVec.ofNat 32 (signed binary32 (numNeg v) (infPattern binary32))
  else BitVec.ofNat 32
    (signed binary32 (numNeg v) (roundUnits binary32 (numUnits v) (2 ^ (unitExp binary64 - unitExp binary32))))

/-! ### The block's numeric type and conversions -/

/-- A binary64 value as a value of the datapath, and back. A code beyond the 64 bits of a pattern, which no operation makes,
stands for its low 64 bits. -/
def ofNum64 (v : Num64) : NumVal := ⟨v.bits.toNat⟩
def toNum64 (x : NumVal) : Num64 := ⟨BitVec.ofNat 64 x.code⟩

/-- R8's default Num. -/
def binary64Num : NumType where
  ofInt k := ofNum64 (num k)
  half := ofNum64 numHalf
  clamp := ofNum64 numClamp
  eps := ofNum64 numEps
  pi := ofNum64 numPi
  add x y := ofNum64 (numAdd (toNum64 x) (toNum64 y))
  sub x y := ofNum64 (numSub (toNum64 x) (toNum64 y))
  mul x y := ofNum64 (numMul (toNum64 x) (toNum64 y))
  div x y := ofNum64 (numDiv (toNum64 x) (toNum64 y))
  neg x := ofNum64 (numNegate (toNum64 x))
  abs x := ofNum64 (numAbs (toNum64 x))
  lt x y := numLt (toNum64 x) (toNum64 y)
  gt x y := numLt (toNum64 y) (toNum64 x)
  eq x y := numEq (toNum64 x) (toNum64 y)
  sin x := ofNum64 (sinN (toNum64 x))
  cos x := ofNum64 (cosN (toNum64 x))
  isFinite x := numFinite (toNum64 x)

/-- R8's default conversions. R14 states them for binary64 only. With a Num other than binary64 the code passed is still the
binary64 pattern, whatever that Num is: DESIGN CHOICE (log entry 5). -/
def binary32Format : HostFormat where
  decode w := (decBinary32 w).map ofNum64
  encode v := encBinary32 (toNum64 v)

/-- The numeric type of a block (R8, R13). -/
def numType (p : Params) : NumType :=
  match p.num with
  | .binary64 => binary64Num
  | .other k => (Config.otherNum k).num

/-- The conversions of a block (R8, R14). -/
def hostFormat (p : Params) : HostFormat :=
  match p.format with
  | .binary32 => binary32Format
  | .other k => Config.otherFormat k

/-- R14's `dec32`. It gives no value that is not finite, whatever the arguments (R8: "non-finite → none"). -/
def dec32 (p : Params) (w : Word) : Option NumVal := ((hostFormat p).decode w).filter (numType p).isFinite

/-- R14's `enc32`. -/
def enc32 (p : Params) (v : NumVal) : Word := (hostFormat p).encode v

/-! ### Functions over any numeric type -/

/-- R15: the normalised sinc. -/
def sinc (N : NumType) (x : NumVal) : NumVal :=
  if N.eq x (N.ofInt 0) then N.ofInt 1 else N.div (N.sin (N.mul N.pi x)) (N.mul N.pi x)

/-- R16: saturation to ±0.999. -/
def clampOut (N : NumType) (v : NumVal) : NumVal :=
  if N.lt v (N.neg N.clamp) then N.neg N.clamp
  else if N.gt v N.clamp then N.clamp
  else v

/-- R17: the phase of a carrier of `f` Hz at sample `n`, at the sample rate `fs`. -/
def arg (N : NumType) (fs f n : Nat) : NumVal :=
  N.mul (N.mul (N.mul (N.ofInt 2) N.pi) (N.ofInt f)) (N.div (N.ofInt n) (N.ofInt fs))

/-- A symbol as a Num (R199). -/
def symNum (N : NumType) : SymVal → NumVal
  | .plus => N.ofInt 1
  | .minus => N.ofInt (-1)

end Sys2Proof.Machine
end

