-- ==== Sys2Proof/Machine/Registers.lean ====
section
/-! DEFINITION. The address map (spec/20_memory.md R72), the access type of each location (R22, R76), what a host read of it
returns, what a host write of it does, and the write set of each command (the "Write set" lines of R140 to R251). -/

namespace Sys2Proof.Machine

/-! ### Addresses -/

/-- The register at a word-aligned offset of the register region (spec/10_state.md section 2); none where the table lists
none (R50). -/
def regAt (off : Nat) : Option Reg :=
  match off with
  | 0x000 => some .id
  | 0x004 => some .version
  | 0x008 => some .ctrl
  | 0x00C => some .status
  | 0x010 => some .cmd
  | 0x014 => some .result
  | 0x018 => some .pi
  | 0x01C => some .fs
  | 0x020 => some .pilotLevel
  | 0x024 => some .rdsLevel
  | 0x028 => some .rds2Level
  | 0x02C => some .nsamp
  | 0x030 => some .bitLen
  | 0x034 => some .logoLen
  | 0x038 => some .sps
  | 0x03C => some .ntaps
  | 0x040 => some .seqCyc
  | 0x044 => some .seqRt
  | 0x048 => some .logoCur
  | 0x04C => some .ginfo
  | 0x060 => some .symLen
  | 0x064 => some .bbLen
  | 0x068 => some .subLen
  | _ =>
    if 0x050 ≤ off ∧ off ≤ 0x05C then some (.gbuf (Fin.ofNat 4 ((off - 0x050) / 4)))
    else if 0x080 ≤ off ∧ off ≤ 0x084 then some (.ps (Fin.ofNat 2 ((off - 0x080) / 4)))
    else if 0x0C0 ≤ off ∧ off ≤ 0x0FC then some (.rt (Fin.ofNat 16 ((off - 0x0C0) / 4)))
    else if 0x100 ≤ off ∧ off ≤ 0x13C then some (.txt (Fin.ofNat 16 ((off - 0x100) / 4)))
    else none

/-- The offset of a register: the same table read from the right. -/
def regOffset : Reg → Nat
  | .id => 0x000
  | .version => 0x004
  | .ctrl => 0x008
  | .status => 0x00C
  | .cmd => 0x010
  | .result => 0x014
  | .pi => 0x018
  | .fs => 0x01C
  | .pilotLevel => 0x020
  | .rdsLevel => 0x024
  | .rds2Level => 0x028
  | .nsamp => 0x02C
  | .bitLen => 0x030
  | .logoLen => 0x034
  | .sps => 0x038
  | .ntaps => 0x03C
  | .seqCyc => 0x040
  | .seqRt => 0x044
  | .logoCur => 0x048
  | .ginfo => 0x04C
  | .gbuf k => 0x050 + 4 * k.val
  | .symLen => 0x060
  | .bbLen => 0x064
  | .subLen => 0x068
  | .ps k => 0x080 + 4 * k.val
  | .rt k => 0x0C0 + 4 * k.val
  | .txt k => 0x100 + 4 * k.val

/-- The window of an address at or above 0x100000: the memory and the window's base (R72). -/
def windowAt (addr : Nat) : Option (MemName × Nat) :=
  if addr < 0x100000 then none
  else if addr < 0x200000 then some (.l, 0x100000)
  else if addr < 0x300000 then some (.r, 0x200000)
  else if addr < 0x400000 then some (.out, 0x300000)
  else if addr < 0x500000 then some (.bb, 0x400000)
  else if addr < 0x600000 then some (.sub, 0x500000)
  else if addr < 0x700000 then some (.tap, 0x600000)
  else if addr < 0x740000 then some (.bit, 0x700000)
  else if addr < 0x780000 then some (.sym, 0x740000)
  else if addr < 0x800000 then some (.logo, 0x780000)
  else none

/-- The base of a window (R72). -/
def windowBase : MemName → Nat
  | .l => 0x100000
  | .r => 0x200000
  | .out => 0x300000
  | .bb => 0x400000
  | .sub => 0x500000
  | .tap => 0x600000
  | .bit => 0x700000
  | .sym => 0x740000
  | .logo => 0x780000

/-- The number of elements of a memory (R8). -/
def memCap (p : Params) : MemName → Nat
  | .l => p.sampleCap
  | .r => p.sampleCap
  | .out => p.sampleCap
  | .bb => p.sampleCap
  | .sub => p.sampleCap
  | .tap => p.tapCap
  | .bit => p.bitCap
  | .sym => p.bitCap
  | .logo => p.logoCap

/-- The memories that hold bits, packed 32 to a word (R72, R79). -/
def isPacked : MemName → Bool
  | .bit => true
  | .sym => true
  | .logo => true
  | .l => false
  | .r => false
  | .out => false
  | .bb => false
  | .sub => false
  | .tap => false

/-- The number of reachable words of a window (R72). -/
def windowWords (p : Params) (m : MemName) : Nat :=
  if isPacked m then (memCap p m + 31) / 32 else memCap p m

/-- What a word-aligned address names; none where it is unmapped (R50, R72). -/
def locate (p : Params) (addr : Nat) : Option Loc :=
  if addr < 0x100000 then
    match regAt addr with
    | some r => some (.reg r)
    | none => none
  else
    match windowAt addr with
    | some (m, base) =>
      if (addr - base) / 4 < windowWords p m then some (.mem m ((addr - base) / 4)) else none
    | none => none

/-- The address of a location: `addr(LOC)` of spec/30_encoding.md R112. R112 speaks of the word `k` of a window only. With `k`
outside the window the address is still base + 4k modulo 2^24, where another window or nothing may stand: DESIGN CHOICE (log
entry 18). -/
def locAddr : Loc → BitVec 24
  | .reg r => BitVec.ofNat 24 (regOffset r)
  | .mem m k => BitVec.ofNat 24 (windowBase m + 4 * k)

/-! ### Access types -/

/-- The registers a host write may change or act through (R22, R26, R27). Every other register is RO (R76). -/
def regWritable : Reg → Bool
  | .ctrl => true
  | .status => true
  | .cmd => true
  | .pi => true
  | .fs => true
  | .pilotLevel => true
  | .rdsLevel => true
  | .rds2Level => true
  | .nsamp => true
  | .bitLen => true
  | .logoLen => true
  | .txt _ => true
  | .id => false
  | .version => false
  | .result => false
  | .sps => false
  | .ntaps => false
  | .seqCyc => false
  | .seqRt => false
  | .logoCur => false
  | .ginfo => false
  | .gbuf _ => false
  | .symLen => false
  | .bbLen => false
  | .subLen => false
  | .ps _ => false
  | .rt _ => false

/-- The windows a host may write (R72). -/
def memWritable : MemName → Bool
  | .l => true
  | .r => true
  | .bit => true
  | .logo => true
  | .out => false
  | .bb => false
  | .sub => false
  | .tap => false
  | .sym => false

def locWritable : Loc → Bool
  | .reg r => regWritable r
  | .mem m _ => memWritable m

/-! ### Write sets -/

/-- The registers GBUF0 to GBUF3, PS0 and PS1, RT0 to RT15. -/
def isGbuf (r : Reg) : Bool := decide (∃ k, r = .gbuf k)
def isPs (r : Reg) : Bool := decide (∃ k, r = .ps k)
def isRt (r : Reg) : Bool := decide (∃ k, r = .rt k)

/-- The registers in a command's write set. STATUS is in none for the purpose of R83. -/
def writesReg (c : Mnemonic) (r : Reg) : Bool :=
  match c with
  | .nop => false
  | .srst => !(r == .id || r == .version || r == .cmd || r == .status)
  | .crc10 => r == .result
  | .pack => r == .result
  | .grp0a => isGbuf r || r == .ginfo
  | .grp2a => isGbuf r || r == .ginfo
  | .psload => isPs r
  | .rtload => isRt r
  | .nextgrp => isGbuf r || r == .ginfo || r == .seqCyc || r == .seqRt || r == .logoCur
  | .genbits => r == .bitLen || r == .seqCyc || r == .seqRt || r == .logoCur
  | .seqrst => r == .seqCyc || r == .seqRt || r == .logoCur
  | .design => r == .sps || r == .ntaps
  | .diffenc => r == .symLen
  | .shape => r == .bbLen
  | .mix => r == .subLen
  | .modulate => r == .symLen || r == .bbLen || r == .subLen
  | .compose => false

/-- The memories in a command's write set, each the whole of it. -/
def writesMem (c : Mnemonic) (m : MemName) : Bool :=
  match c with
  | .genbits => m == .bit
  | .design => m == .tap
  | .diffenc => m == .sym
  | .shape => m == .bb
  | .mix => m == .sub
  | .modulate => m == .sym || m == .bb || m == .sub
  | .compose => m == .out
  | .nop => false
  | .srst => false
  | .crc10 => false
  | .pack => false
  | .grp0a => false
  | .grp2a => false
  | .psload => false
  | .rtload => false
  | .nextgrp => false
  | .seqrst => false

def writesLoc (c : Mnemonic) : Loc → Bool
  | .reg r => writesReg c r
  | .mem m _ => writesMem c m

/-! ### Values -/

/-- The value of a register (spec/10_state.md R23 to R49). -/
def readReg (s : State) : Reg → Word
  | .id => Config.idWord
  | .version => Config.versionWord
  | .ctrl => ctrlWord s
  | .status => statusWord s
  | .cmd => s.lastCmd
  | .result => s.result.setWidth 32
  | .pi => s.pi.setWidth 32
  | .fs => s.fs
  | .pilotLevel => s.pilotLevel
  | .rdsLevel => s.rdsLevel
  | .rds2Level => s.rds2Level
  | .nsamp => BitVec.ofNat 32 s.nsamp
  | .bitLen => BitVec.ofNat 32 s.bitLen
  | .logoLen => BitVec.ofNat 32 s.logoLen
  | .sps => BitVec.ofNat 32 s.sps
  | .ntaps => BitVec.ofNat 32 s.ntaps
  | .seqCyc => BitVec.ofNat 32 s.cyc.val
  | .seqRt => BitVec.ofNat 32 s.rtIdx.val
  | .logoCur => BitVec.ofNat 32 s.logoCur
  | .ginfo => ginfoWord s
  | .gbuf k => s.gbuf[k]
  | .symLen => BitVec.ofNat 32 s.symLen
  | .bbLen => BitVec.ofNat 32 s.bbLen
  | .subLen => BitVec.ofNat 32 s.subLen
  | .ps k => wordOfBytes s.ps k.val (by omega)
  | .rt k => wordOfBytes s.rt k.val (by omega)
  | .txt k => wordOfBytes s.txt k.val (by omega)

/-- R79: a symbol as a bit, −1 as 1. -/
def symBit : SymVal → Bool
  | .plus => false
  | .minus => true

/-- The value of word `k` of a window, or none where it holds a ⊥ element (R51 to R58, R70, R79, R80). -/
def readMem (s : State) (m : MemName) (k : Nat) : Option Word :=
  match m with
  | .l => memGet s.lMem k
  | .r => memGet s.rMem k
  | .out => (memGet s.outMem k).map (enc32 s.params)
  | .bb => (memGet s.bbMem k).map (enc32 s.params)
  | .sub => (memGet s.subMem k).map (enc32 s.params)
  | .tap => (memGet s.tapMem k).map (enc32 s.params)
  | .bit => packedRead id s.bitMem s.params.bitCap k
  | .sym => packedRead symBit s.symMem s.params.bitCap k
  | .logo => packedRead id s.logoMem s.params.logoCap k

/-- The value of a location, or none where it is unspecified (R70(a)). -/
def readLoc (s : State) : Loc → Option Word
  | .reg r => some (readReg s r)
  | .mem m k => readMem s m k

/-! ### Host writes -/

/-- An accepted write of FS: the filter and the buffers made with it are invalidated, whatever the value (R30). -/
def writeFs (v : Word) (s : State) : State :=
  { s with fs := v, tapsValid := false, sps := 0, ntaps := 0, bbLen := 0, subLen := 0 }

/-- An accepted write of LOGO_LEN: WARL, and the cursor restarts (R36). -/
def writeLogoLen (v : Word) (s : State) : State :=
  { s with logoLen := min v.toNat s.params.logoCap, logoCur := 0 }

/-- An accepted write of a writable register while BUSY = 0, or of STATUS at any time. A read-only register keeps its value
(R22). -/
def writeReg (r : Reg) (v : Word) (s : State) : State :=
  match r with
  | .ctrl => { s with ctrl := v.setWidth 3 }
  | .status => clearStatus v s
  | .cmd => acceptCommand v s
  | .pi => { s with pi := v.setWidth 16 }
  | .fs => writeFs v s
  | .pilotLevel => { s with pilotLevel := v }
  | .rdsLevel => { s with rdsLevel := v }
  | .rds2Level => { s with rds2Level := v }
  | .nsamp => { s with nsamp := min v.toNat s.params.sampleCap }
  | .bitLen => { s with bitLen := min v.toNat s.params.bitCap }
  | .logoLen => writeLogoLen v s
  | .txt k => { s with txt := setWordOfBytes s.txt k.val v }
  | .id => s
  | .version => s
  | .result => s
  | .sps => s
  | .ntaps => s
  | .seqCyc => s
  | .seqRt => s
  | .logoCur => s
  | .ginfo => s
  | .gbuf _ => s
  | .symLen => s
  | .bbLen => s
  | .subLen => s
  | .ps _ => s
  | .rt _ => s

/-- An accepted write of word `k` of a window; a read-only window keeps its contents (R51, R56, R58, R72, R79). -/
def writeMem (m : MemName) (k : Nat) (v : Word) (s : State) : State :=
  match m with
  | .l => { s with lMem := memSet s.lMem k v }
  | .r => { s with rMem := memSet s.rMem k v }
  | .bit => { s with bitMem := packedWrite s.bitMem s.params.bitCap k v }
  | .logo => { s with logoMem := packedWrite s.logoMem s.params.logoCap k v }
  | .out => s
  | .bb => s
  | .sub => s
  | .tap => s
  | .sym => s

def writeLoc (loc : Loc) (v : Word) (s : State) : State :=
  match loc with
  | .reg r => writeReg r v s
  | .mem m k => writeMem m k v s

end Sys2Proof.Machine
end

