-- ==== Sys2Proof/WellFormed.lean ====
section
/-! DEFINITION. The checks on terms: legal capacities (spec/00_scope.md R8), a host access the bus takes
(spec/20_memory.md R73), and an assembler operand in range (spec/30_encoding.md R111). A decoded `Instr` needs no check: its
operands are typed by the fields that carry them, and every value of a used field has a meaning (R109). -/

namespace Sys2Proof

/-- R8's constraints on the capacities. Its constraint on Num, "a model of rule R13", holds by type of every Num that `num` can
name (`LegalNum`, `numType_legal`), and its constraint on dec32 holds by the definition of `Machine.dec32`. -/
def Params.wellFormed (p : Params) : Bool :=
  decide (1 ≤ p.sampleCap ∧ p.sampleCap ≤ 2 ^ 18) && decide (1 ≤ p.bitCap ∧ p.bitCap ≤ 65536) &&
    decide (1 ≤ p.logoCap ∧ p.logoCap ≤ 2 ^ 22) && decide (41 ≤ p.tapCap ∧ p.tapCap ≤ 2 ^ 18)

/-- R73: the one size and alignment the bus takes. Anything else is rejected (R74). -/
def accessWellFormed (addr : BitVec 24) (size : Nat) : Bool :=
  decide (size = 4) && decide (addr.toNat % 4 = 0)

/-- A move of the host that the bus does not reject for its size or alignment. -/
def Turn.wellFormed : Turn → Bool
  | .read a n => accessWellFormed a n
  | .write a n _ => accessWellFormed a n
  | .engine => true
  | .wait => true
  | .powerOn => true

/-- R111: an immediate is an integer 0 to 65535. -/
def AsmOperand.wellFormed : AsmOperand → Bool
  | .imm n => decide (n ≤ 65535)
  | .name _ => true

/-- R111: every immediate of the line is in range. -/
def AsmLine.wellFormed (c : AsmLine) : Bool :=
  c.operands.all AsmOperand.wellFormed

end Sys2Proof
end

