-- ==== Sys2Proof/Machine/Bus.lean ====
section
/-! DEFINITION. The host's bus accesses: rejection, dropping while BUSY, unspecified reads and the accepted rest
(spec/20_memory.md R73 to R76, R81 to R83). -/

namespace Sys2Proof.Machine

/-- The location an access names, or none where the bus rejects it for its size, its alignment or an unmapped address (R73 to
R75). -/
def busTarget (s : State) (addr : BitVec 24) (size : Nat) : Option Loc :=
  if accessWellFormed addr size then locate s.params addr.toNat else none

/-- A rejected access sets ACCERR (R74, R272). -/
def reject (s : State) : State := { s with accErr := true }

/-- The bus returns a word to the host (the model's record of it, log entry 10). -/
def reply (w : Word) (s : State) : State := { s with replies := w :: s.replies }

/-- The bus returns an unspecified word: a fresh free value (R70(a), R83(b); log entry 9). -/
def replyFree (s : State) : State := { reply (Config.freeWord s.draws) s with draws := s.draws + 1 }

/-- The command in flight: the operation of its opcode, none while idle or where the opcode is unassigned. A word with a
malformed field keeps the write set of its operation (log entry 14). -/
def inFlight (s : State) : Option Mnemonic :=
  match s.eng with
  | .idle => none
  | .busy w _ => mnemonicOf (opcField w)

/-- A location in the write set of the command in flight (R83(b)). -/
def inWriteSet (s : State) (loc : Loc) : Bool :=
  match inFlight s with
  | none => false
  | some c => writesLoc c loc

/-- `MemRead(addr, size)` (R73 to R75, R83). An unspecified word is free in all its 32 bits, also in bits that read 0 otherwise:
the positions beyond the capacity in the last word of a packed memory (R79), and the reserved or unused bits of a register of
the write set in flight (R22, R28, R29, R39, R40, R42, R43, 93 I10). DESIGN CHOICE, safe (log entry 17). -/
def busRead (addr : BitVec 24) (size : Nat) (s : State) : State :=
  match busTarget s addr size with
  | none => reply 0 (reject s)
  | some loc =>
    if inWriteSet s loc then replyFree s
    else
      match readLoc s loc with
      | none => replyFree s
      | some w => reply w s

/-- `MemWrite(addr, size, v)`: a rejected write sets ACCERR, before a write dropped while BUSY sets WBUSY; writes to STATUS are
never dropped (R74 to R76, R83(a), R273). -/
def busWrite (addr : BitVec 24) (size : Nat) (v : Word) (s : State) : State :=
  match busTarget s addr size with
  | none => reject s
  | some loc =>
    if locWritable loc = false then reject s
    else if isBusy s = true ∧ loc ≠ .reg .status then { s with wBusy := true }
    else writeLoc loc v s

end Sys2Proof.Machine
end

