-- ==== Sys2Proof/Machine/Operands.lean ====
section
/-! DEFINITION. How a command's operand fields become the values it works on: the selector tables (spec/30_encoding.md R115,
R116), the clamped segment and the clamped text (spec/40_rds_encoder.md R138, R139). -/

namespace Sys2Proof.Machine

/-- IMM16, zero-extended (spec/30_encoding.md R104). -/
def immNat (imm : BitVec 16) : Nat := imm.toNat

/-- The offset words of PACK and of the group blocks (R115). -/
def offsetWord : Block → BitVec 10
  | .a => 0x0FC
  | .b => 0x198
  | .c => 0x168
  | .d => 0x1B4

/-- The carrier frequencies in Hz (R116). -/
def carrierHz : Carrier → Nat
  | .c57 => 57000
  | .c66 => 66500
  | .c76 => 76000
  | .c85 => 85500

/-- `clampSeg(v, max) = min(v, max)` (R138). -/
def clampSeg (v max : Nat) : Fin (max + 1) := ⟨min v max, by omega⟩

/-- `fixText(n, L)` (R139): the first `min(n, L)` bytes of TXT, then spaces. -/
def fixText (txt : Vector Byte 64) (n len : Nat) (h : len ≤ 64) : Vector Byte len :=
  Vector.ofFn fun j => if j.val < min n len then txt[j.val] else 0x20

end Sys2Proof.Machine
end

