-- ==== Sys2Proof/Machine/Modulator.lean ====
section
/-! DEFINITION. The subcarrier modulator: rate and filter size, raised-cosine taps, differential encoder, impulse train,
convolution, mixer, and the commands DESIGN, DIFFENC, SHAPE, MIX and MODULATE (spec/42_subcarrier_modulator.md R190 to R207). Signal
formulas are over any numeric type `N`, evaluated in the order the rules write them (spec/00_scope.md R13); a command takes its block's
(`numType`, R8). -/

namespace Sys2Proof.Machine

/-! ### Rate and filter size -/

/-- `rateOK(FS)` (R190). -/
def rateOk (fs : Nat) : Bool := decide (Config.minRate ≤ fs)

/-- `sps(FS)` (R191). -/
def spsOf (fs : Nat) : Nat := (4 * fs + 2375) / 4750

/-- `nextOdd(x)` (R192). -/
def nextOdd (x : Nat) : Nat := if x % 2 = 1 then x else x + 1

/-- `ntaps(sps)` (R192). -/
def ntapsOf (sps : Nat) : Nat := max Config.minTaps (nextOdd (6 * sps))

/-- The centre tap index (R193). -/
def centreOf (n : Nat) : Nat := (n - 1) / 2

/-! ### Raised-cosine taps -/

/-- `rawTap(i)` (R194), for `sps` samples per symbol and centre `c`. -/
def rawTap (N : NumType) (sps c i : Nat) : NumVal :=
  let beta := N.half
  let t := N.div (N.ofInt ((i : Int) - (c : Int))) (N.ofInt sps)
  let u := N.mul (N.mul (N.ofInt 2) beta) t
  let d := N.sub (N.ofInt 1) (N.mul u u)
  if N.lt (N.abs d) N.eps then
    N.mul (N.div N.pi (N.ofInt 4)) (sinc N (N.div (N.ofInt 1) (N.mul (N.ofInt 2) beta)))
  else N.div (N.mul (sinc N t) (N.cos (N.mul (N.mul N.pi beta) t))) d

/-- The raw taps of `design(FS)` in order (R196). -/
def rawTaps (N : NumType) (sps n : Nat) : List NumVal := (List.range n).map (rawTap N sps (centreOf n))

/-- `S`, the sum of the raw taps in ascending order (R196). -/
def tapSum (N : NumType) (raw : List NumVal) : NumVal := raw.foldl N.add (N.ofInt 0)

/-- `design(FS)` (R196). -/
def designTaps (N : NumType) (fs : Nat) : List NumVal :=
  let raw := rawTaps N (spsOf fs) (ntapsOf (spsOf fs))
  raw.map fun v => N.div v (tapSum N raw)

/-! ### Differential encoder, upsampler, convolver, mixer -/

/-- The other phase. -/
def flipPhase : SymVal → SymVal
  | .plus => .minus
  | .minus => .plus

/-- The loop of R198 from a running phase. -/
def diffencFrom (p : SymVal) : List Bool → List SymVal
  | [] => []
  | b :: bs =>
    let q := if b then flipPhase p else p
    q :: diffencFrom q bs

/-- `diffenc(b)` (R198): the phase starts at +1. -/
def diffenc (bs : List Bool) : List SymVal := diffencFrom .plus bs

/-- Element `j` of `impulse(s, sps)` (R199), none outside `[0, len(s) · sps)`. -/
def impulseAt (N : NumType) (syms : List SymVal) (sps j : Nat) : Option NumVal :=
  if j < syms.length * sps then
    (syms[j / sps]?).map fun v => if j % sps = 0 then symNum N v else N.ofInt 0
  else none

/-- The sum of R200 over the taps from index `k` on, ascending; `pc` is `p + c`, and `x` gives none outside the buffer. -/
def convFrom (N : NumType) (x : Nat → Option NumVal) (pc : Nat) : List NumVal → Nat → NumVal → NumVal
  | [], _, acc => acc
  | h :: hs, k, acc =>
    convFrom N x pc hs (k + 1)
      (if k ≤ pc then
        match x (pc - k) with
        | some v => N.add acc (N.mul h v)
        | none => acc
      else acc)

/-- `conv(x, h)[p]` (R200). -/
def convAt (N : NumType) (x : Nat → Option NumVal) (h : List NumVal) (p : Nat) : NumVal :=
  convFrom N x (p + centreOf h.length) h 0 (N.ofInt 0)

/-- `conv(impulse(s, sps), h)[p]`: sample `p` of the baseband of a symbol sequence. -/
def basebandAt (N : NumType) (syms : List SymVal) (sps : Nat) (h : List NumVal) (p : Nat) : NumVal :=
  convAt N (impulseAt N syms sps) h p

/-- `conv(impulse(s, sps), h)`: as long as the impulse train (R199, R200). -/
def baseband (N : NumType) (syms : List SymVal) (sps : Nat) (h : List NumVal) : List NumVal :=
  (List.range (syms.length * sps)).map (basebandAt N syms sps h)

/-- One sample of `mix(bb, f)` (R201). -/
def mixSample (N : NumType) (fs f p : Nat) (v : NumVal) : NumVal := N.mul v (N.cos (arg N fs f p))

/-- `mix(bb, f)` (R201). -/
def mixAll (N : NumType) (fs f : Nat) (bb : List NumVal) : List NumVal :=
  bb.zipIdx.map fun e => mixSample N fs f e.2 e.1

/-! ### Commands -/

/-- DESIGN (R203). -/
def execDesign (s : State) : Result :=
  if rateOk s.fs.toNat = false then raiseError .rate s
  else
    let sps := spsOf s.fs.toNat
    let n := ntapsOf sps
    if s.params.tapCap < n then raiseError .cap s
    else succeed
      { s with
        tapMem := memFill s.tapMem (designTaps (numType s.params) s.fs.toNat)
        sps := sps
        ntaps := n
        tapsValid := true }

/-- DIFFENC (R204). -/
def execDiffenc (s : State) : Result :=
  withValue (readOperand .diffenc .bit s.bitMem 0 s.bitLen) fun bits =>
    succeed { s with symMem := memFill s.symMem (diffenc bits), symLen := s.bitLen }

/-- SHAPE (R205). -/
def execShape (s : State) : Result :=
  if s.tapsValid = false then raiseError .noTaps s
  else if s.params.sampleCap < s.symLen * s.sps then raiseError .cap s
  else
    withValue (readOperand .shape .sym s.symMem 0 s.symLen) fun syms =>
    withValue (readOperand .shape .tap s.tapMem 0 s.ntaps) fun taps =>
    succeed
      { s with bbMem := memFill s.bbMem (baseband (numType s.params) syms s.sps taps), bbLen := s.symLen * s.sps }

/-- MIX (R206). -/
def execMix (car : Carrier) (s : State) : Result :=
  if s.tapsValid = false then raiseError .noTaps s
  else
    withValue (readOperand .mix .bb s.bbMem 0 s.bbLen) fun bb =>
    succeed
      { s with
        subMem := memFill s.subMem (mixAll (numType s.params) s.fs.toNat (carrierHz car) bb)
        subLen := s.bbLen }

/-- MODULATE (R207): the three results are written together or not at all. -/
def execModulate (car : Carrier) (s : State) : Result :=
  if s.tapsValid = false then raiseError .noTaps s
  else if s.params.sampleCap < s.bitLen * s.sps then raiseError .cap s
  else
    withValue (readOperand .modulate .bit s.bitMem 0 s.bitLen) fun bits =>
    withValue (readOperand .modulate .tap s.tapMem 0 s.ntaps) fun taps =>
    let syms := diffenc bits
    let bb := baseband (numType s.params) syms s.sps taps
    succeed
      { s with
        symMem := memFill s.symMem syms
        symLen := s.bitLen
        bbMem := memFill s.bbMem bb
        bbLen := s.bitLen * s.sps
        subMem := memFill s.subMem (mixAll (numType s.params) s.fs.toNat (carrierHz car) bb)
        subLen := s.bitLen * s.sps }

end Sys2Proof.Machine
end

