-- ==== Sys2Proof/Machine/Composer.lean ====
section
/-! DEFINITION. The MPX composer and the command COMPOSE (spec/43_mpx_composer.md R230 to R241). Signal formulas are over any numeric type
`N`, evaluated in the order the rules write them; COMPOSE takes its block's (`numType`, spec/00_scope.md R8). -/

namespace Sys2Proof.Machine

/-- The decoded levels of one composition: PILOT_LEVEL, RDS_LEVEL, and RDS2_LEVEL where RDS2_EN = 1 (R232, R235, R236). -/
structure Levels where
  pilot : NumVal
  rds : NumVal
  rds2 : Option NumVal
  deriving DecidableEq, Repr

/-- The levels, or none where one that is used is not finite (R241). -/
def levelsOf (s : State) : Option Levels :=
  match dec32 s.params s.pilotLevel, dec32 s.params s.rdsLevel with
  | some pilot, some rds =>
    if rds2En s then
      match dec32 s.params s.rds2Level with
      | some rds2 => some { pilot := pilot, rds := rds, rds2 := some rds2 }
      | none => none
    else some { pilot := pilot, rds := rds, rds2 := none }
  | _, _ => none

/-- `(mid + pilot) + dsb` (R231 to R233, R237). -/
def stereoSum (N : NumType) (fs : Nat) (lv : Levels) (i : Nat) (l r : NumVal) : NumVal :=
  let mid := N.mul N.half (N.add l r)
  let side := N.sub l r
  N.add (N.add mid (N.mul lv.pilot (N.sin (arg N fs Config.pilotHz i))))
    (N.mul side (N.cos (arg N fs Config.dsbHz i)))

/-- A subcarrier term: the baseband sample at a carrier, scaled by a level (R235, R236). -/
def subcarrierTerm (N : NumType) (fs f i : Nat) (level bb : NumVal) : NumVal := N.mul level (mixSample N fs f i bb)

/-- The sum of sample `i` (R237); `bb` is its baseband sample, none at and beyond M. -/
def composeSum (N : NumType) (fs : Nat) (lv : Levels) (bb : Option NumVal) (i : Nat) (l r : NumVal) : NumVal :=
  let acc := stereoSum N fs lv i l r
  match bb with
  | none => acc
  | some v =>
    let acc := N.add acc (subcarrierTerm N fs (carrierHz .c57) i lv.rds v)
    match lv.rds2 with
    | none => acc
    | some level =>
      [carrierHz .c66, carrierHz .c76, carrierHz .c85].foldl
        (fun acc f => N.add acc (subcarrierTerm N fs f i level v)) acc

/-- The baseband sample of output sample `i`: R234's `bb[i]` for `i < M`, none beyond. -/
def composeBaseband (N : NumType) (syms : List SymVal) (sps : Nat) (taps : List NumVal) (i : Nat) : Option NumVal :=
  if i < syms.length * sps then some (basebandAt N syms sps taps i) else none

/-- The sums of all output samples (R237), from the decoded left and right samples. -/
def composeSums (N : NumType) (fs sps : Nat) (lv : Levels) (syms : List SymVal) (taps : List NumVal)
    (lr : List (NumVal × NumVal)) : List NumVal :=
  lr.zipIdx.map fun e => composeSum N fs lv (composeBaseband N syms sps taps e.2) e.2 e.1.1 e.1.2

/-- The first sum that is not finite, if any (93 I1). -/
def firstNonFinite (N : NumType) (sums : List NumVal) : Option Nat := sums.findIdx? fun v => !N.isFinite v

/-- COMPOSE (R230). The checks come in the order of the pseudocode: E_NOTAPS before any read; the finiteness of the samples
and levels (R241) before the bit source is read (log entry 13). A sum that is not finite is the model fault of R280
(log entry 7). -/
def execCompose (s : State) : Result :=
  if s.tapsValid = false then raiseError .noTaps s
  else
    withValue (readOperand .compose .l s.lMem 0 s.nsamp) fun ls =>
    withValue (readOperand .compose .r s.rMem 0 s.nsamp) fun rs =>
    match allSome (ls.map (dec32 s.params)), allSome (rs.map (dec32 s.params)), levelsOf s with
    | some l, some r, some lv =>
      withValue (readOperand .compose .bit s.bitMem 0 s.bitLen) fun bits =>
      withValue (readOperand .compose .tap s.tapMem 0 s.ntaps) fun taps =>
      let sums := composeSums (numType s.params) s.fs.toNat s.sps lv (diffenc bits) taps (l.zip r)
      match firstNonFinite (numType s.params) sums with
      | some i => .fault (.numDomain .compose i)
      | none => succeed { s with outMem := memFill s.outMem (sums.map (clampOut (numType s.params))) }
    | _, _, _ => raiseError .nonFinite s

end Sys2Proof.Machine
end

