-- ==== Sys2Proof/Machine/Control.lean ====
section
/-! DEFINITION. The control commands NOP and SRST (spec/44_control.md), and power-on reset (spec/70_reset_and_hazards.md
R290 to R293). -/

namespace Sys2Proof.Machine

/-- The registers at their reset values, the memories, LASTCMD and the model's own fields as they are: what SRST writes
(R251, R291). -/
def softReset (s : State) : State :=
  { State.reset with
    params := s.params
    lastCmd := s.lastCmd
    done := s.done
    err := s.err
    eng := s.eng
    lMem := s.lMem
    rMem := s.rMem
    outMem := s.outMem
    bbMem := s.bbMem
    subMem := s.subMem
    tapMem := s.tapMem
    bitMem := s.bitMem
    symMem := s.symMem
    logoMem := s.logoMem
    turns := s.turns
    replies := s.replies
    draws := s.draws }

/-- Power-on reset of a running system: a command in flight is abandoned and every register and memory element is as after
power-on (R290(a)); the parameters, the moves to come, the replies so far and the draw counter are not the block's state
(log entry 10). -/
def powerOnReset (s : State) : State :=
  { State.reset with
    params := s.params
    turns := s.turns
    replies := s.replies
    draws := s.draws }

/-- NOP (R250). -/
def execNop (s : State) : Result := succeed s

/-- SRST (R251). -/
def execSrst (s : State) : Result := succeed (softReset s)

end Sys2Proof.Machine
end

