-- ==== Sys2Proof/Machine/RdsEncoder.lean ====
section
/-! DEFINITION. The RDS encoder: checkword, blocks, groups 0A and 2A, and the commands CRC10, PACK, GRP0A, GRP2A, PSLOAD and
RTLOAD (spec/40_rds_encoder.md R130 to R146). -/

namespace Sys2Proof.Machine

/-- One iteration of R130 on the 11-bit register, with the next message bit. -/
def crcStep (reg : BitVec 11) (b : Bool) : BitVec 11 :=
  let shifted := (reg <<< 1) ||| (BitVec.ofBool b).setWidth 11
  if shifted.getLsbD 10 then shifted ^^^ 0x5B9 else shifted

/-- `crc10(w)` (R130): 26 iterations over the word followed by 10 zero bits, most significant first. -/
def crc10 (w : BitVec 16) : BitVec 10 :=
  ((bitsMSB (w.setWidth 26 <<< 10)).foldl crcStep 0).setWidth 10

/-- `pack(w, off)` (R133). -/
def packBlock (w : BitVec 16) (off : BitVec 10) : BitVec 26 :=
  (w.setWidth 26 <<< 10) ||| (crc10 w ^^^ off).setWidth 26

/-- `blockB(type, ver, seg)` (R134). -/
def blockB (type ver seg : Nat) : BitVec 16 :=
  (BitVec.ofNat 16 type <<< 12) ||| (BitVec.ofNat 16 ver <<< 11) ||| BitVec.ofNat 16 seg

/-- `groupBits(a, b, c, d)` (R135): 104 bits. -/
def groupBits (a b c d : BitVec 16) : List Bool :=
  bitsMSB (packBlock a (offsetWord .a)) ++ bitsMSB (packBlock b (offsetWord .b)) ++
    bitsMSB (packBlock c (offsetWord .c)) ++ bitsMSB (packBlock d (offsetWord .d))

/-- Two characters as a word, the first in the high byte (R136, R137). -/
def charPair (hi lo : Byte) : BitVec 16 := (hi.setWidth 16 <<< 8) ||| lo.setWidth 16

/-- `group0A(seg)` (R136). -/
def group0A (s : State) (seg : Fin 4) : List Bool :=
  groupBits s.pi (blockB 0 0 seg.val) 0 (charPair s.ps[2 * seg.val] s.ps[2 * seg.val + 1])

/-- `group2A(seg)` (R137). -/
def group2A (s : State) (seg : Fin 16) : List Bool :=
  groupBits s.pi (blockB 2 0 seg.val) (charPair s.rt[4 * seg.val] s.rt[4 * seg.val + 1])
    (charPair s.rt[4 * seg.val + 2] s.rt[4 * seg.val + 3])

/-- `writeG(g, type)` (R146): bits beyond the sequence are 0. -/
def writeG (g : List Bool) (type : GType) (s : State) : State :=
  { s with
    gbuf := Vector.ofFn fun k => packWord fun j => (g[32 * k.val + j]?).getD false
    glen := g.length
    gtype := type }

/-- CRC10 (R140). -/
def execCrc10 (imm : BitVec 16) (s : State) : Result :=
  succeed { s with result := (crc10 imm).setWidth 26 }

/-- PACK (R141). -/
def execPack (blk : Block) (imm : BitVec 16) (s : State) : Result :=
  succeed { s with result := packBlock imm (offsetWord blk) }

/-- GRP0A (R142). -/
def execGrp0a (imm : BitVec 16) (s : State) : Result :=
  succeed (writeG (group0A s (clampSeg (immNat imm) 3)) .group0A s)

/-- GRP2A (R143). -/
def execGrp2a (imm : BitVec 16) (s : State) : Result :=
  succeed (writeG (group2A s (clampSeg (immNat imm) 15)) .group2A s)

/-- PSLOAD (R144). -/
def execPsload (imm : BitVec 16) (s : State) : Result :=
  succeed { s with ps := fixText s.txt (immNat imm) 8 (by omega) }

/-- RTLOAD (R145). -/
def execRtload (imm : BitVec 16) (s : State) : Result :=
  succeed { s with rt := fixText s.txt (immNat imm) 64 (by omega) }

end Sys2Proof.Machine
end

