-- ==== Sys2Proof/Machine/RdsSequencer.lean ====
section
/-! DEFINITION. The RDS group sequencer and the commands NEXTGRP, GENBITS and SEQRST (spec/41_rds_sequencer.md R160 to R170). The
functions below change the sequencer state CYC, RT_IDX and LOGO_CUR of a state and nothing else of it. -/

namespace Sys2Proof.Machine

/-- `logoPresent` (R160). -/
def logoPresent (s : State) : Bool := logoEn s && decide (0 < s.logoLen)

/-- CYC advances by one, modulo 60, on every emission (R162). -/
def advanceCyc (s : State) : State :=
  { s with cyc := ⟨(s.cyc.val + 1) % 60, Nat.mod_lt _ (by omega)⟩ }

/-- RT_IDX advances by one, modulo 16 (R161). -/
def advanceRt (s : State) : State :=
  { s with rtIdx := ⟨(s.rtIdx.val + 1) % 16, Nat.mod_lt _ (by omega)⟩ }

/-- The number of bits in the next logo chunk (R163). Where LOGO_CUR has passed LOGO_LEN, which R62 rules out, the chunk is empty
(log entry 12). -/
def logoChunkLen (s : State) : Nat := min Config.groupBits (s.logoLen - s.logoCur)

/-- `logoChunk()` (R163): the next bits of the logo stream, the cursor wrapping at once at the end. -/
def logoChunk (cmd : Mnemonic) (s : State) : Except Fault (List Bool × State) :=
  match readOperand cmd .logo s.logoMem s.logoCur (logoChunkLen s) with
  | .error f => .error f
  | .ok g =>
    let cur := s.logoCur + logoChunkLen s
    .ok (g, { s with logoCur := if cur = s.logoLen then 0 else cur })

/-- The segment of a 0A group, `CYC mod 4` (R164). -/
def psSegment (s : State) : Fin 4 := ⟨s.cyc.val % Config.psCycle, Nat.mod_lt _ (by decide)⟩

/-- `nextGroup()` (R161): one emission, its type, and the sequencer after it. -/
def nextGroup (cmd : Mnemonic) (s : State) : Except Fault ((List Bool × GType) × State) :=
  if logoPresent s = true ∧ s.cyc.val % Config.logoPeriod = 0 then
    match logoChunk cmd s with
    | .error f => .error f
    | .ok (g, s') => .ok ((g, .logo), advanceCyc s')
  else if s.cyc.val % Config.cadencePeriod ≠ 2 then
    .ok ((group0A s (psSegment s), .group0A), advanceCyc s)
  else
    .ok ((group2A s s.rtIdx, .group2A), advanceCyc (advanceRt s))

/-- The loop of R167, with a bound on its number of emissions. -/
def generateLoop (cmd : Mnemonic) (n : Nat) : Nat → List Bool → State → Except Fault (List Bool × State)
  | 0, out, s => .ok (out, s)
  | fuel + 1, out, s =>
    if out.length < n then
      match nextGroup cmd s with
      | .error f => .error f
      | .ok ((g, _), s') => generateLoop cmd n fuel (out ++ g) s'
    else .ok (out, s)

/-- `generate(n)` (R167). Of two successive emissions one at least is a group of 104 bits, so `2 · n` emissions always
suffice (`generate_length` of Laws/Sequencer.lean). -/
def generate (cmd : Mnemonic) (n : Nat) (s : State) : Except Fault (List Bool × State) :=
  match generateLoop cmd n (2 * n) [] s with
  | .error f => .error f
  | .ok (out, s') => .ok (out.take n, s')

/-- NEXTGRP (R168). -/
def execNextgrp (s : State) : Result :=
  withValue (nextGroup .nextgrp s) fun r => succeed (writeG r.1.1 r.1.2 r.2)

/-- GENBITS (R169). -/
def execGenbits (imm : BitVec 16) (s : State) : Result :=
  if s.params.bitCap < immNat imm then raiseError .cap s
  else withValue (generate .genbits (immNat imm) s) fun r =>
    succeed { r.2 with bitMem := memFill r.2.bitMem r.1, bitLen := immNat imm }

/-- SEQRST (R170). -/
def execSeqrst (s : State) : Result := succeed { s with cyc := 0, rtIdx := 0, logoCur := 0 }

end Sys2Proof.Machine
end

