-- ==== Sys2Proof/Machine/Dispatch.lean ====
section
/-! DEFINITION. The meaning of each command, one arm per constructor. -/

namespace Sys2Proof.Machine

/-- R261's `execute` for a decoded command, with its completion. -/
def exec (i : Instr) (s : State) : Host.Outcome State Fault Refusal :=
  match i with
  | .nop => Sys2Proof.Machine.execNop s
  | .srst => Sys2Proof.Machine.execSrst s
  | .crc10 imm => Sys2Proof.Machine.execCrc10 imm s
  | .pack blk imm => Sys2Proof.Machine.execPack blk imm s
  | .grp0a imm => Sys2Proof.Machine.execGrp0a imm s
  | .grp2a imm => Sys2Proof.Machine.execGrp2a imm s
  | .psload imm => Sys2Proof.Machine.execPsload imm s
  | .rtload imm => Sys2Proof.Machine.execRtload imm s
  | .nextgrp => Sys2Proof.Machine.execNextgrp s
  | .genbits imm => Sys2Proof.Machine.execGenbits imm s
  | .seqrst => Sys2Proof.Machine.execSeqrst s
  | .design => Sys2Proof.Machine.execDesign s
  | .diffenc => Sys2Proof.Machine.execDiffenc s
  | .shape => Sys2Proof.Machine.execShape s
  | .mix car => Sys2Proof.Machine.execMix car s
  | .modulate car => Sys2Proof.Machine.execModulate car s
  | .compose => Sys2Proof.Machine.execCompose s

end Sys2Proof.Machine
end

