-- ==== Sys2Proof/Machine/Engine.lean ====
section
/-! DEFINITION. The engine's step and the move that comes next (spec/60_exceptions.md R260, R261; spec/00_scope.md R19;
spec/70_reset_and_hazards.md R293, R303). -/

namespace Sys2Proof.Machine

/-- R261's last step: decode the word in flight, then the command's rule; a word that does not decode completes with its
error (spec/30_encoding.md R107). -/
def execute (w : Word) (s : State) : Result :=
  match decode w with
  | .error code => raiseError code s
  | .ok i => exec i s

/-- One engine step. An idle engine does nothing (R293); a step before the last one changes nothing visible (R261). -/
def engineStep (s : State) : Result :=
  match s.eng with
  | .idle => .next s
  | .busy w 0 => execute w s
  | .busy w (left + 1) => .next { s with eng := .busy w left }

/-- One poll of the loop `wait`, and what follows it: while BUSY the engine moves and the host polls again (spec/30_encoding.md
R114; log entry 15). -/
def pollStatus (rest : List Turn) (s : State) : State :=
  let t := busRead (locAddr (.reg .status)) 4 s
  if isBusy s then { t with turns := .engine :: .wait :: rest } else { t with turns := rest }

/-- The next move: the first of `turns`, or the engine's where none is left (log entry 1). -/
def nextMove (s : State) : Result :=
  match s.turns with
  | [] => engineStep s
  | .engine :: rest => engineStep { s with turns := rest }
  | .read addr size :: rest => .next (busRead addr size { s with turns := rest })
  | .write addr size v :: rest => .next (busWrite addr size v { s with turns := rest })
  | .wait :: rest => .next (pollStatus rest s)
  | .powerOn :: rest => .next (powerOnReset { s with turns := rest })

/-- The state in which the engine's next move is the last step of a command word: the word accepted, nothing else pending
(R260; log entry 2). -/
def placeCommand (w : Word) (s : State) : State := { acceptWith w 0 s with turns := [] }

end Sys2Proof.Machine
end

