-- ==== Sys2Proof/Machine/Step.lean ====
section
/-! DEFINITION. The step, and where it finds its next command. -/

namespace Sys2Proof.Machine

/-- One move of the system of host and engine. -/
def step (s : State) : Host.Outcome State Fault Refusal := nextMove s

/-- The command of the bits `w` below `nbits` in flight, so that the very next step decodes and runs it: the block fetches
nothing, and a command comes to it by a write of CMD, for whose acceptance this stands (log entry 2). -/
def State.withFetchWord (s : State) (nbits w : Nat) : State :=
  placeCommand (BitVec.ofNat 32 (w % 2 ^ nbits)) s

end Sys2Proof.Machine
end

