-- ==== Sys2Proof/Machine/Assembler.lean ====
section
/-! DEFINITION. The assembler and the host program forms, as the words and the host moves they stand for (spec/30_encoding.md R111
to R114; log entry 16). -/

namespace Sys2Proof.Machine

/-- R106's mnemonics. -/
def mnemonicTable : List (String × Mnemonic) :=
  [("NOP", .nop), ("SRST", .srst), ("CRC10", .crc10), ("PACK", .pack), ("GRP0A", .grp0a), ("GRP2A", .grp2a),
    ("PSLOAD", .psload), ("RTLOAD", .rtload), ("NEXTGRP", .nextgrp), ("GENBITS", .genbits), ("SEQRST", .seqrst),
    ("DESIGN", .design), ("DIFFENC", .diffenc), ("SHAPE", .shape), ("MIX", .mix), ("MODULATE", .modulate),
    ("COMPOSE", .compose)]

/-- R111's block and carrier names. -/
def blockTable : List (String × Block) := [("A", .a), ("B", .b), ("C", .c), ("D", .d)]
def carrierTable : List (String × Carrier) := [("C57", .c57), ("C66", .c66), ("C76", .c76), ("C85", .c85)]

/-- What a name stands for in a table. -/
def named {α : Type} (table : List (String × α)) (s : String) : Option α :=
  (table.find? fun e => e.1 == s).map Prod.snd

/-- An immediate, rejected out of 0 to 65535 (R111). -/
def asmImm (n : Nat) : Option (BitVec 16) := if n ≤ 65535 then some (BitVec.ofNat 16 n) else none

/-- The one operand shape of each operation (R111): none, an immediate, a block and an immediate, or a carrier. -/
def asmNone (i : Instr) : List AsmOperand → Option Instr
  | [] => some i
  | _ => none

def asmOneImm (mk : BitVec 16 → Instr) : List AsmOperand → Option Instr
  | [.imm n] => (asmImm n).map mk
  | _ => none

def asmBlockImm : List AsmOperand → Option Instr
  | [.name blk, .imm n] =>
    match named blockTable blk, asmImm n with
    | some position, some imm => some (.pack position imm)
    | _, _ => none
  | _ => none

def asmCarrier (mk : Carrier → Instr) : List AsmOperand → Option Instr
  | [.name car] => (named carrierTable car).map mk
  | _ => none

/-- The command of an operation with its operands. -/
def asmOperands (c : Mnemonic) (ops : List AsmOperand) : Option Instr :=
  match c with
  | .nop => asmNone .nop ops
  | .srst => asmNone .srst ops
  | .crc10 => asmOneImm .crc10 ops
  | .pack => asmBlockImm ops
  | .grp0a => asmOneImm .grp0a ops
  | .grp2a => asmOneImm .grp2a ops
  | .psload => asmOneImm .psload ops
  | .rtload => asmOneImm .rtload ops
  | .nextgrp => asmNone .nextgrp ops
  | .genbits => asmOneImm .genbits ops
  | .seqrst => asmNone .seqrst ops
  | .design => asmNone .design ops
  | .diffenc => asmNone .diffenc ops
  | .shape => asmNone .shape ops
  | .mix => asmCarrier .mix ops
  | .modulate => asmCarrier .modulate ops
  | .compose => asmNone .compose ops

/-- A command line to its command; none where the assembler rejects it (R111). -/
def assemble (c : AsmLine) : Option Instr :=
  match named mnemonicTable c.mnemonic with
  | none => none
  | some m => asmOperands m c.operands

/-- R113: `issue <command>`, a write of the command's word to CMD. -/
def issueTurns (c : AsmLine) : Option (List Turn) :=
  (assemble c).map fun i => [.write (locAddr (.reg .cmd)) 4 (encode i)]

/-- R114: `run <command>`. -/
def runTurns (c : AsmLine) : Option (List Turn) := (issueTurns c).map fun ts => ts ++ [.wait]

/-- R114: word `t` of `settext`, with 0x00 beyond the text. -/
def textWord (s : List Byte) (t : Nat) : Word :=
  (s[4 * t]?).getD 0 ++ (s[4 * t + 1]?).getD 0 ++ (s[4 * t + 2]?).getD 0 ++ (s[4 * t + 3]?).getD 0

/-- R114: `settext "s"`. -/
def textTurns (s : List Byte) : List Turn :=
  (List.finRange 16).map fun t => .write (locAddr (.reg (.txt t))) 4 (textWord s t.val)

/-- R114: the load command of `setps` and `setrt`, with the text's length as far as an immediate reaches. -/
def loadLine (mnemonic : String) (s : List Byte) : AsmLine :=
  { mnemonic := mnemonic, operands := [.imm (min s.length 65535)] }

/-- The host moves of a line (R112 to R114); none where the assembler rejects it. -/
def lineTurns : HostLine → Option (List Turn)
  | .wr loc v => some [.write (locAddr loc) 4 v]
  | .rd loc => some [.read (locAddr loc) 4]
  | .issue c => issueTurns c
  | .wait => some [.wait]
  | .run c => runTurns c
  | .wrf loc r => some [.write (locAddr loc) 4 (word32OfRatio r.neg r.digits (10 ^ r.places))]
  | .settext s => some (textTurns s)
  | .setps s => (runTurns (loadLine "PSLOAD" s)).map fun ts => textTurns s ++ ts
  | .setrt s => (runTurns (loadLine "RTLOAD" s)).map fun ts => textTurns s ++ ts

/-- The host moves of a program (R112). -/
def programTurns : List HostLine → Option (List Turn)
  | [] => some []
  | l :: ls =>
    match lineTurns l, programTurns ls with
    | some ts, some us => some (ts ++ us)
    | _, _ => none

end Sys2Proof.Machine
end

