-- ==== Sys2Proof/Safety.lean ====
section
/-! DEFINITION. What holds of every state the block reaches, in the terms of the spec's own invariants (spec/10_state.md R37, R60,
R62, R63, R66; spec/43_mpx_composer.md R240). `Inv` is their conjunction. -/

namespace Sys2Proof.Machine

/-- Every memory is in its canonical form. -/
structure MemoriesCanonical (s : State) : Prop where
  l : Memory.wf s.lMem
  r : Memory.wf s.rMem
  out : Memory.wf s.outMem
  bb : Memory.wf s.bbMem
  sub : Memory.wf s.subMem
  tap : Memory.wf s.tapMem
  bit : Memory.wf s.bitMem
  sym : Memory.wf s.symMem
  logo : Memory.wf s.logoMem

/-- No memory holds an element at or beyond its capacity (R51 to R58, R269: "no command writes past a memory's
capacity"). -/
structure MemoriesWithinCapacity (s : State) : Prop where
  l : memBelow s.params.sampleCap s.lMem
  r : memBelow s.params.sampleCap s.rMem
  out : memBelow s.params.sampleCap s.outMem
  bb : memBelow s.params.sampleCap s.bbMem
  sub : memBelow s.params.sampleCap s.subMem
  tap : memBelow s.params.tapCap s.tapMem
  bit : memBelow s.params.bitCap s.bitMem
  sym : memBelow s.params.bitCap s.symMem
  logo : memBelow s.params.logoCap s.logoMem

/-- R66. -/
structure LengthsWithinCapacity (s : State) : Prop where
  nsamp : s.nsamp ≤ s.params.sampleCap
  bitLen : s.bitLen ≤ s.params.bitCap
  logoLen : s.logoLen ≤ s.params.logoCap
  symLen : s.symLen ≤ s.params.bitCap
  bbLen : s.bbLen ≤ s.params.sampleCap
  subLen : s.subLen ≤ s.params.sampleCap
  ntaps : s.ntaps ≤ s.params.tapCap

/-- R62: LOGO_CUR lies inside the logo stream. -/
def LogoCursorLegal (s : State) : Prop := s.logoCur = 0 ∨ s.logoCur < s.logoLen

/-- R63: a valid filter belongs to the current rate. R37, R38: without one, SPS and NTAPS are 0. -/
def TapsBelongToRate (s : State) : Prop :=
  (s.tapsValid = true →
    4750 ≤ s.fs.toNat ∧ s.sps = spsOf s.fs.toNat ∧ s.ntaps = ntapsOf s.sps ∧
      ∀ i, i < s.ntaps → memGet s.tapMem i = (designTaps (numType s.params) s.fs.toNat)[i]?) ∧
  (s.tapsValid = false → s.sps = 0 ∧ s.ntaps = 0)

/-- R60, R260, R275: while a command is in flight its word is LASTCMD, DONE is 0 and ERR is 0. -/
def EngineConsistent (s : State) : Prop :=
  ∀ w left, s.eng = .busy w left → s.lastCmd = w ∧ s.done = false ∧ s.err = .ok

/-- Bit `j` of the group buffer (R43). -/
def gbufBit (s : State) (j : Nat) : Bool := (s.gbuf.toList.getD (j / 32) 0).getMsbD (j % 32)

/-- R42, R43: at most 104 valid bits, and 0 beyond them. -/
def GroupBufferLegal (s : State) : Prop :=
  s.glen ≤ 104 ∧ ∀ j, s.glen ≤ j → j < 128 → gbufBit s j = false

/-- R44 to R46: the elements counted as valid are defined. -/
structure BuffersDefined (s : State) : Prop where
  sym : ∀ k, k < s.symLen → (memGet s.symMem k).isSome = true
  bb : ∀ k, k < s.bbLen → (memGet s.bbMem k).isSome = true
  sub : ∀ k, k < s.subLen → (memGet s.subMem k).isSome = true

/-- `−0.999 ≤ v ≤ 0.999`, and v is a number (R240(b)). -/
def withinClamp (v : Num64) : Bool :=
  !numIsNaN v && !numLt v (numNegate numClamp) && !numLt numClamp v

/-- R238, R240(b), of every element OUT_MEM holds: it is what clampOut makes of a finite sum, and so, under the default Num,
a number within the clamp interval. -/
def OutputBounded (s : State) : Prop := ∀ k v, memGet s.outMem k = some v →
  (∃ x, (numType s.params).isFinite x = true ∧ v = clampOut (numType s.params) x) ∧
    (s.params.num = .binary64 → withinClamp (toNum64 v) = true)

/-- The block's invariant. -/
structure Inv (s : State) : Prop where
  params : s.params.wellFormed = true
  canonical : MemoriesCanonical s
  capacity : MemoriesWithinCapacity s
  lengths : LengthsWithinCapacity s
  cursor : LogoCursorLegal s
  taps : TapsBelongToRate s
  engine : EngineConsistent s
  group : GroupBufferLegal s
  buffers : BuffersDefined s
  output : OutputBounded s

end Sys2Proof.Machine
end

