-- ==== Sys2Proof/Certificates/Slice0/Obligations.lean ====
section
/-! DEFINITION. The statements for the provers. A next state is given by its difference from the state before, `t = { s with … }`,
so that every field not named there is unchanged; a memory that changes is given by what a read of each of its elements
returns. -/

namespace Sys2Proof.Statements

open Sys2Proof.Machine

/-- The memory holds the sequence from index 0 on. -/
def holds {α : Type} (m : Mem α) (vs : List α) : Prop := ∀ k, k < vs.length → memGet m k = vs[k]?

/-- Element `k` of a memory is ⊥. -/
def isUndefined (s : State) (m : MemName) (k : Nat) : Prop :=
  match m with
  | .l => memGet s.lMem k = none
  | .r => memGet s.rMem k = none
  | .out => memGet s.outMem k = none
  | .bb => memGet s.bbMem k = none
  | .sub => memGet s.subMem k = none
  | .tap => memGet s.tapMem k = none
  | .bit => memGet s.bitMem k = none
  | .sym => memGet s.symMem k = none
  | .logo => memGet s.logoMem k = none

/-- The polynomial over GF(2) with coefficient `v[k]` at `x^k` (R131). -/
noncomputable def bitPoly {n : Nat} (v : BitVec n) : Polynomial (ZMod 2) :=
  ∑ k : Fin n, if v.getLsbD k.val then Polynomial.X ^ k.val else 0

/-- g(x) of R131. -/
noncomputable def crcGenerator : Polynomial (ZMod 2) :=
  Polynomial.X ^ 10 + Polynomial.X ^ 8 + Polynomial.X ^ 7 + Polynomial.X ^ 5 + Polynomial.X ^ 4 + Polynomial.X ^ 3 + 1

/-- R132's checkwords of the single-bit words 1<<k, k = 0 to 15. -/
def singleBitCrcs : List (BitVec 10) :=
  [0x1B9, 0x372, 0x35D, 0x303, 0x3BF, 0x2C7, 0x037, 0x06E, 0x0DC, 0x1B8, 0x370, 0x359, 0x30B, 0x3AF, 0x2E7, 0x077]

/-- The bits of GBUF from `start` on are the 26 bits of a block, most significant first (R43, R135). -/
def gbufHasBlock (t : State) (start : Nat) (block : BitVec 26) : Prop :=
  ∀ j, j < 26 → gbufBit t (start + j) = block.getMsbD j

/-- Two bytes of a text as a word, the first in the high byte; 0 stands where an index leaves the text, which no use below
does. -/
def textPair {n : Nat} (v : Vector Byte n) (j : Nat) : BitVec 16 := v.toList.getD j 0 ++ v.toList.getD (j + 1) 0

/-- `m` successive emissions of the sequencer, and the state after them. -/
def emissions (cmd : Mnemonic) : Nat → State → Except Fault (List (List Bool × GType) × State)
  | 0, s => .ok ([], s)
  | m + 1, s =>
    match nextGroup cmd s with
    | .error f => .error f
    | .ok (e, s') =>
      match emissions cmd m s' with
      | .error f => .error f
      | .ok (es, t) => .ok (e :: es, t)

/-- The number of emissions of a type. -/
def countType (ty : GType) (es : List (List Bool × GType)) : Nat := (es.filter fun e => e.2 == ty).length

/-- The bits of emissions in order. -/
def emittedBits (es : List (List Bool × GType)) : List Bool := (es.map Prod.fst).flatten

/-- R15's sinc, written out. -/
def sincValue (N : NumType) (x : NumVal) : NumVal :=
  if N.eq x (N.ofInt 0) then N.ofInt 1 else N.div (N.sin (N.mul N.pi x)) (N.mul N.pi x)

/-- R194's raw tap `i` for `sps` samples per symbol and `n` taps, written out. -/
def rawTapValue (N : NumType) (sps n i : Nat) : NumVal :=
  let t := N.div (N.ofInt ((i : Int) - ((n - 1) / 2 : Nat))) (N.ofInt sps)
  let u := N.mul (N.mul (N.ofInt 2) N.half) t
  let d := N.sub (N.ofInt 1) (N.mul u u)
  if N.lt (N.abs d) N.eps then
    N.mul (N.div N.pi (N.ofInt 4)) (sincValue N (N.div (N.ofInt 1) (N.mul (N.ofInt 2) N.half)))
  else N.div (N.mul (sincValue N t) (N.cos (N.mul (N.mul N.pi N.half) t))) d

/-- R196's `S` over the first `m` raw taps, added in ascending order to `num(0)`. -/
def rawTapSum (N : NumType) (sps n : Nat) : Nat → NumVal
  | 0 => N.ofInt 0
  | m + 1 => N.add (rawTapSum N sps n m) (rawTapValue N sps n m)

/-- Sample `j` of the impulse train of R199, for 0 ≤ j < len(s) · sps. -/
def impulseSample (N : NumType) (syms : List SymVal) (sps j : Nat) : NumVal :=
  if j % sps = 0 then
    match syms[j / sps]? with
    | some .plus => N.ofInt 1
    | some .minus => N.ofInt (-1)
    | none => N.ofInt 0
  else N.ofInt 0

/-- R200's sum for output `p`, written over integer indices: the terms with `0 ≤ p + c − k < M`, ascending in k. -/
def convolutionSum (N : NumType) (x : Nat → NumVal) (len : Nat) (taps : List NumVal) (p : Nat) : NumVal :=
  taps.zipIdx.foldl (init := N.ofInt 0) fun acc e =>
    let j : Int := (p : Int) + ((taps.length - 1) / 2 : Nat) - e.2
    if 0 ≤ j ∧ j < len then N.add acc (N.mul e.1 (x j.toNat)) else acc

/-- R17's carrier phase, and the carrier cosine of R201. -/
def phase (s : State) (f p : Nat) : NumVal :=
  let N := numType s.params
  N.mul (N.mul (N.mul (N.ofInt 2) N.pi) (N.ofInt f)) (N.div (N.ofInt p) (N.ofInt s.fs.toNat))

def carrier (s : State) (f p : Nat) : NumVal := (numType s.params).cos (phase s f p)

/-- The output sum of R237 for sample `i`, from the decoded levels and samples; `bb` is the baseband sample, none for i ≥ M. -/
def mpxSum (s : State) (pilot rds : NumVal) (rds2 : Option NumVal) (bb : Option NumVal) (i : Nat) (l r : NumVal) : NumVal :=
  let N := numType s.params
  let mid := N.mul N.half (N.add l r)
  let side := N.sub l r
  let stereo := N.add (N.add mid (N.mul pilot (N.sin (phase s 19000 i)))) (N.mul side (carrier s 38000 i))
  match bb with
  | none => stereo
  | some v =>
    let mono := N.add stereo (N.mul rds (N.mul v (carrier s 57000 i)))
    match rds2 with
    | none => mono
    | some g =>
      N.add (N.add (N.add mono (N.mul g (N.mul v (carrier s 66500 i)))) (N.mul g (N.mul v (carrier s 76000 i))))
        (N.mul g (N.mul v (carrier s 85500 i)))

/-- R16's saturation, written out. -/
def saturated (N : NumType) (v : NumVal) : NumVal :=
  if N.lt v (N.neg N.clamp) then N.neg N.clamp else if N.gt v N.clamp then N.clamp else v

/-- The levels COMPOSE uses are finite and decode to these (R241): RDS2_LEVEL only where RDS2_EN = 1. -/
def levelsDecode (s : State) (pilot rds : NumVal) (rds2 : Option NumVal) : Prop :=
  dec32 s.params s.pilotLevel = some pilot ∧ dec32 s.params s.rdsLevel = some rds ∧
    (if s.ctrl.getLsbD 0 then ∃ g, rds2 = some g ∧ dec32 s.params s.rds2Level = some g else rds2 = none)

/-- A word of memory that decodes to no finite value (R241). -/
def nonFiniteWord (p : Params) (m : Mem Word) (n : Nat) : Prop := ∃ k w, k < n ∧ memGet m k = some w ∧ dec32 p w = none

/-- The number an IEEE-754 pattern stands for, where its exponent field is not all ones. -/
def ieeeValue (fracBits expBits pattern : Nat) : ℚ :=
  let e := pattern / 2 ^ fracBits % 2 ^ expBits
  let frac := pattern % 2 ^ fracBits
  let least : ℚ := 1 / 2 ^ (2 ^ (expBits - 1) - 2 + fracBits)
  let magnitude : ℚ := if e = 0 then frac * least else (2 ^ fracBits + frac) * 2 ^ (e - 1) * least
  if pattern / 2 ^ (fracBits + expBits) = 0 then magnitude else -magnitude

/-- The default Num and the default conversions (R8). -/
def defaultDatapath (p : Params) : Prop := p.num = .binary64 ∧ p.format = .binary32

/-- The registers and the memories in each command's write set (the "Write set" lines of R140 to R251; STATUS is in none for
R83's purpose). -/
def writeSet : Mnemonic → List Reg × List MemName
  | .nop => ([], [])
  | .srst =>
    ([.ctrl, .result, .pi, .fs, .pilotLevel, .rdsLevel, .rds2Level, .nsamp, .bitLen, .logoLen, .sps, .ntaps, .seqCyc,
        .seqRt, .logoCur, .ginfo, .symLen, .bbLen, .subLen] ++
      (List.finRange 4).map .gbuf ++ (List.finRange 2).map .ps ++ (List.finRange 16).map .rt ++
      (List.finRange 16).map .txt, [])
  | .crc10 => ([.result], [])
  | .pack => ([.result], [])
  | .grp0a => ([.gbuf 0, .gbuf 1, .gbuf 2, .gbuf 3, .ginfo], [])
  | .grp2a => ([.gbuf 0, .gbuf 1, .gbuf 2, .gbuf 3, .ginfo], [])
  | .psload => ([.ps 0, .ps 1], [])
  | .rtload => ((List.finRange 16).map .rt, [])
  | .nextgrp => ([.gbuf 0, .gbuf 1, .gbuf 2, .gbuf 3, .ginfo, .seqCyc, .seqRt, .logoCur], [])
  | .genbits => ([.bitLen, .seqCyc, .seqRt, .logoCur], [.bit])
  | .seqrst => ([.seqCyc, .seqRt, .logoCur], [])
  | .design => ([.sps, .ntaps], [.tap])
  | .diffenc => ([.symLen], [.sym])
  | .shape => ([.bbLen], [.bb])
  | .mix => ([.subLen], [.sub])
  | .modulate => ([.symLen, .bbLen, .subLen], [.sym, .bb, .sub])
  | .compose => ([], [.out])

/-- A location is in a command's write set. -/
def written (c : Mnemonic) : Loc → Bool
  | .reg r => (writeSet c).1.contains r
  | .mem m _ => (writeSet c).2.contains m

/-- Word `k` of a byte array, its first byte in bits [31:24] (R47, R78). -/
def packedBytes {n : Nat} (v : Vector Byte n) (k : Nat) : Word := textPair v (4 * k) ++ textPair v (4 * k + 2)

/-- The register region (R23 to R49): each offset and what a read of it returns. The fields of STATUS are in
`Obligations.StatusFieldsClearingAndIrq`. -/
def registerTable (s : State) : List (Nat × Word) :=
  [(0x000, 0x4A4D5058), (0x004, 0x00070001), (0x008, 0#29 ++ s.ctrl), (0x00C, statusWord s), (0x010, s.lastCmd),
    (0x014, 0#6 ++ s.result), (0x018, 0#16 ++ s.pi), (0x01C, s.fs), (0x020, s.pilotLevel), (0x024, s.rdsLevel),
    (0x028, s.rds2Level), (0x02C, BitVec.ofNat 32 s.nsamp), (0x030, BitVec.ofNat 32 s.bitLen),
    (0x034, BitVec.ofNat 32 s.logoLen), (0x038, BitVec.ofNat 32 s.sps), (0x03C, BitVec.ofNat 32 s.ntaps),
    (0x040, 0#26 ++ BitVec.ofNat 6 s.cyc.val), (0x044, 0#28 ++ BitVec.ofNat 4 s.rtIdx.val),
    (0x048, BitVec.ofNat 32 s.logoCur),
    (0x04C, 0#22 ++ (match s.gtype with | .none => 0#2 | .group0A => 1#2 | .group2A => 2#2 | .logo => 3#2) ++ 0#1 ++
      BitVec.ofNat 7 s.glen),
    (0x060, BitVec.ofNat 32 s.symLen), (0x064, BitVec.ofNat 32 s.bbLen), (0x068, BitVec.ofNat 32 s.subLen)] ++
  (List.range 4).map (fun k => (0x050 + 4 * k, s.gbuf.toList.getD k 0)) ++
  (List.range 2).map (fun k => (0x080 + 4 * k, packedBytes s.ps k)) ++
  (List.range 16).map (fun k => (0x0C0 + 4 * k, packedBytes s.rt k)) ++
  (List.range 16).map (fun k => (0x100 + 4 * k, packedBytes s.txt k))

/-- The memory windows (R72): memory, base address, words reachable. -/
def windowTable (p : Params) : List (MemName × Nat × Nat) :=
  [(.l, 0x100000, p.sampleCap), (.r, 0x200000, p.sampleCap), (.out, 0x300000, p.sampleCap), (.bb, 0x400000, p.sampleCap),
    (.sub, 0x500000, p.sampleCap), (.tap, 0x600000, p.tapCap), (.bit, 0x700000, (p.bitCap + 31) / 32),
    (.sym, 0x740000, (p.bitCap + 31) / 32), (.logo, 0x780000, (p.logoCap + 31) / 32)]

/-- Addresses of the register region that the table of 10_state.md lists as read-only. -/
def readOnlyRegisterOffset (a : Nat) : Prop :=
  a = 0x000 ∨ a = 0x004 ∨ a = 0x014 ∨ (0x038 ≤ a ∧ a ≤ 0x068) ∨ (0x080 ≤ a ∧ a ≤ 0x084) ∨ (0x0C0 ≤ a ∧ a ≤ 0x0FC)

/-- Addresses that the map of 20_memory.md R72 leaves unmapped for these capacities. -/
def unmappedAddress (p : Params) (a : Nat) : Prop :=
  (0x06C ≤ a ∧ a < 0x080) ∨ (0x088 ≤ a ∧ a < 0x0C0) ∨ (0x140 ≤ a ∧ a < 0x100000) ∨ 0x800000 ≤ a ∨
    (∃ b, b ∈ [0x100000, 0x200000, 0x300000, 0x400000, 0x500000] ∧
      b + 4 * p.sampleCap ≤ a ∧ a < b + 0x100000) ∨
    (0x600000 + 4 * p.tapCap ≤ a ∧ a < 0x700000) ∨
    (0x700000 + 4 * ((p.bitCap + 31) / 32) ≤ a ∧ a < 0x740000) ∨
    (0x740000 + 4 * ((p.bitCap + 31) / 32) ≤ a ∧ a < 0x780000) ∨
    (0x780000 + 4 * ((p.logoCap + 31) / 32) ≤ a ∧ a < 0x800000)

end Sys2Proof.Statements

open Sys2Proof Sys2Proof.Machine Sys2Proof.Statements

/-! ### Encoding -/

/-- Decoding the word the assembler makes of a command gives the command, for every command and every operand value (R107,
R111). -/
def Obligations.DecodeOfEncodeIsTheCommand : Prop := ∀ i : Instr, decode (encode i) = .ok i

/-- Every word that decodes has one meaning: it is the word its command encodes to (R107, R109, R111). -/
def Obligations.EncodeOfDecodeIsTheWord : Prop := ∀ (w : Word) (i : Instr), decode w = .ok i → encode i = w

/-- R265: E_OPC exactly for the unassigned opcodes, whatever the other fields. -/
def Obligations.UnassignedOpcodesRaiseEOpc : Prop :=
  ∀ w : Word,
    let o := (w.extractLsb' 0 8).toNat
    let unassigned := (0x02 ≤ o ∧ o ≤ 0x0F) ∨ (0x16 ≤ o ∧ o ≤ 0x17) ∨ (0x1B ≤ o ∧ o ≤ 0x1F) ∨
      (0x25 ≤ o ∧ o ≤ 0x2F) ∨ (0x31 ≤ o ∧ o ≤ 0xFF)
    (decode w = .error .opc ↔ unassigned) ∧
      ∀ s : State, s.turns = [] → s.eng = .busy w 0 → unassigned →
        step s = .next { s with err := .opc, done := true, eng := .idle }

/-- R266: E_FIELD exactly for an assigned opcode with a non-zero RSV, or a non-zero SEL or IMM16 that the command does not use. -/
def Obligations.MalformedFieldsRaiseEField : Prop :=
  ∀ w : Word,
    let o := (w.extractLsb' 0 8).toNat
    let malformed :=
      o ∈ [0x00, 0x01, 0x10, 0x11, 0x12, 0x13, 0x14, 0x15, 0x18, 0x19, 0x1A, 0x20, 0x21, 0x22, 0x23, 0x24, 0x30] ∧
        (w.extractLsb' 10 6 ≠ 0 ∨ (w.extractLsb' 8 2 ≠ 0 ∧ o ∉ [0x11, 0x23, 0x24]) ∨
          (w.extractLsb' 16 16 ≠ 0 ∧ o ∉ [0x10, 0x11, 0x12, 0x13, 0x14, 0x15, 0x19]))
    (decode w = .error .field ↔ malformed) ∧
      ∀ s : State, s.turns = [] → s.eng = .busy w 0 → malformed →
        step s = .next { s with err := .field, done := true, eng := .idle }

/-- Words of T9 and T10, written out from the tables, decode to what the tables say. -/
def Obligations.TabulatedWordsDecode : Prop :=
  decode 0x12340010 = .ok (.crc10 0x1234) ∧ decode 0xFFFF0311 = .ok (.pack .d 0xFFFF) ∧
    decode 0x00000018 = .ok .nextgrp ∧ decode 0x00000323 = .ok (.mix .c85) ∧ decode 0x00000030 = .ok .compose ∧
    decode 0x00000001 = .ok .srst ∧ decode 0x0001FC16 = .error .opc ∧ decode 0x00010020 = .error .field

/-! ### The engine -/

/-- When the command in flight is in its last engine step and its word decodes, the step is the command's meaning, run on the state
with the move used up. That a word placed by `withFetchWord` runs so at once is the model's own choice (log entry 2). -/
def Obligations.StepRunsTheCommandInFlight : Prop :=
  (∀ (s : State) (w : Word) (i : Instr), s.eng = .busy w 0 → decode w = .ok i →
    (s.turns = [] → step s = exec i s) ∧
      ∀ rest, s.turns = .engine :: rest → step s = exec i { s with turns := rest }) ∧
  ∀ (s : State) (nbits w : Nat) (i : Instr), decodeTableWord nbits w = some i →
    step (s.withFetchWord nbits w) = exec i (s.withFetchWord nbits w)

/-- R261, R303: the engine steps before the last one change nothing but the count of steps to come, and then one more step completes
the command or ends in a model fault: an accepted command always ends. -/
def Obligations.AcceptedCommandEndsAfterItsLatency : Prop :=
  ∀ (s : State) (w : Word) (left : Nat), s.turns = [] → s.eng = .busy w left →
    Sys2Proof.core.run left s = .next { s with eng := .busy w 0 } ∧
      ((∃ t : State, Sys2Proof.core.run (left + 1) s = .next t ∧ t.eng = .idle ∧ t.done = true) ∨
        ∃ f : Fault, Sys2Proof.core.run (left + 1) s = .fault f)

/-- R260: a CMD write is accepted while idle, in one step that decodes and checks nothing, and dropped while BUSY. -/
def Obligations.CommandWriteIsAcceptedWhenIdle : Prop :=
  ∀ (s : State) (w : Word) (rest : List Turn), s.turns = .write 0x000010 4 w :: rest →
    (s.eng = .idle → ∃ left t, step s = .next t ∧
      t = { s with
        lastCmd := w, done := false, err := .ok, eng := .busy w left, turns := rest, draws := s.draws + 1 }) ∧
    (∀ v left, s.eng = .busy v left → step s = .next { s with wBusy := true, turns := rest })

/-- R263: a command that completes with an error writes none of its write set; R277: the state after it is the state before it but
for STATUS. Decoding errors included. -/
def Obligations.FailedCommandsChangeOnlyStatus : Prop :=
  ∀ (w : Word) (s t : State), execute w s = .next t → t.err ≠ .ok →
    t = { s with err := t.err, done := true, eng := .idle }

/-- R261, R274: every completion sets DONE and clears BUSY, keeps LASTCMD, and drives the interrupt line to IRQ_EN. -/
def Obligations.EveryCompletionSetsDone : Prop :=
  ∀ (w : Word) (s t : State), execute w s = .next t →
    t.done = true ∧ t.eng = .idle ∧ t.lastCmd = s.lastCmd ∧ irq t = t.ctrl.getLsbD 2

/-- R267: E_RATE is raised exactly by DESIGN with FS < 4750. -/
def Obligations.RateErrorExactlyAtLowRates : Prop :=
  ∀ (i : Instr) (s t : State), exec i s = .next t → (t.err = .rate ↔ i = .design ∧ s.fs.toNat < 4750)

/-- R268: E_NOTAPS is raised exactly by SHAPE, MIX, MODULATE and COMPOSE with TAPS_VALID = 0. -/
def Obligations.NoTapsErrorExactlyWithoutFilter : Prop :=
  ∀ (i : Instr) (s t : State), exec i s = .next t →
    (t.err = .noTaps ↔
      (i = .shape ∨ (∃ car, i = .mix car) ∨ (∃ car, i = .modulate car) ∨ i = .compose) ∧ s.tapsValid = false)

/-- R269 with the priority of R264: the commands that raise E_CAP and the condition of each. -/
def Obligations.CapacityErrorExactlyBeyondCapacity : Prop :=
  ∀ (i : Instr) (s t : State), exec i s = .next t →
    (t.err = .cap ↔
      (i = .design ∧ 4750 ≤ s.fs.toNat ∧ s.params.tapCap < ntapsOf (spsOf s.fs.toNat)) ∨
      (∃ n, i = .genbits n ∧ s.params.bitCap < n.toNat) ∨
      (i = .shape ∧ s.tapsValid = true ∧ s.params.sampleCap < s.symLen * s.sps) ∨
      (∃ car, i = .modulate car ∧ s.tapsValid = true ∧ s.params.sampleCap < s.bitLen * s.sps))

/-- R270, R241: E_NONFINITE is raised exactly by COMPOSE with a filter, where a sample or a level it uses is not finite. -/
def Obligations.NonFiniteErrorExactlyOnNonFiniteInput : Prop :=
  ∀ (i : Instr) (s t : State), exec i s = .next t →
    (t.err = .nonFinite ↔ i = .compose ∧ s.tapsValid = true ∧
      (nonFiniteWord s.params s.lMem s.nsamp ∨ nonFiniteWord s.params s.rMem s.nsamp ∨
        dec32 s.params s.pilotLevel = none ∨ dec32 s.params s.rdsLevel = none ∨
        (s.ctrl.getLsbD 0 = true ∧ dec32 s.params s.rds2Level = none)))

/-- R70(b): UNDEF_READ names the command and an element that is ⊥. -/
def Obligations.UndefReadNamesAnUndefinedElement : Prop :=
  ∀ (i : Instr) (s : State) (c : Mnemonic) (m : MemName) (k : Nat), exec i s = .fault (.undefRead c m k) →
    c = i.mnemonic ∧ isUndefined s m k

/-- R70(b): a command with a ⊥ element in its operand range stops with UNDEF_READ of that memory: DIFFENC at BIT_MEM, SHAPE at SYM_MEM,
MIX at BB_MEM, MODULATE at BIT_MEM, COMPOSE at L_MEM, R_MEM and BIT_MEM, NEXTGRP at a logo chunk, GENBITS at the logo chunk that the
emissions before it leave next. The order among COMPOSE's reads and its finiteness check is the model's reading (log entry 13): an
undefined sample stops it even where a level or another sample is not finite, an undefined bit where all of them are finite. -/
def Obligations.UndefinedOperandStopsTheCommand : Prop :=
  ∀ (s : State) (k : Nat),
    (k < s.bitLen → memGet s.bitMem k = none → ∃ j, exec .diffenc s = .fault (.undefRead .diffenc .bit j)) ∧
    (s.tapsValid = true → s.symLen * s.sps ≤ s.params.sampleCap → k < s.symLen → memGet s.symMem k = none →
      ∃ j, exec .shape s = .fault (.undefRead .shape .sym j)) ∧
    (∀ car, s.tapsValid = true → k < s.bbLen → memGet s.bbMem k = none →
      ∃ j, exec (.mix car) s = .fault (.undefRead .mix .bb j)) ∧
    (∀ car, s.tapsValid = true → s.bitLen * s.sps ≤ s.params.sampleCap → k < s.bitLen → memGet s.bitMem k = none →
      ∃ j, exec (.modulate car) s = .fault (.undefRead .modulate .bit j)) ∧
    (s.tapsValid = true → k < s.nsamp → memGet s.lMem k = none →
      ∃ j, exec .compose s = .fault (.undefRead .compose .l j)) ∧
    (s.tapsValid = true → (∀ i, i < s.nsamp → (memGet s.lMem i).isSome = true) → k < s.nsamp → memGet s.rMem k = none →
      ∃ j, exec .compose s = .fault (.undefRead .compose .r j)) ∧
    (∀ pilot rds rds2, s.tapsValid = true → levelsDecode s pilot rds rds2 →
      (∀ i, i < s.nsamp → ∃ a b u v, memGet s.lMem i = some a ∧ memGet s.rMem i = some b ∧
        dec32 s.params a = some u ∧ dec32 s.params b = some v) →
      k < s.bitLen → memGet s.bitMem k = none → ∃ j, exec .compose s = .fault (.undefRead .compose .bit j)) ∧
    (s.ctrl.getLsbD 1 = true → 0 < s.logoLen → s.cyc.val % 5 = 0 → s.logoCur ≤ k →
      k < s.logoCur + min 104 (s.logoLen - s.logoCur) → memGet s.logoMem k = none →
      ∃ j, exec .nextgrp s = .fault (.undefRead .nextgrp .logo j)) ∧
    (∀ (imm : BitVec 16) (m : Nat) (es : List (List Bool × GType)) (u : State), imm.toNat ≤ s.params.bitCap →
      emissions .genbits m s = .ok (es, u) → (emittedBits es).length < imm.toNat →
      u.ctrl.getLsbD 1 = true → 0 < u.logoLen → u.cyc.val % 5 = 0 → u.logoCur ≤ k →
      k < u.logoCur + min 104 (u.logoLen - u.logoCur) → memGet u.logoMem k = none →
      ∃ j, exec (.genbits imm) s = .fault (.undefRead .genbits .logo j))

/-- The machine refuses nothing: every step ends in a next state or in one of R280's model faults. -/
def Obligations.NoStepIsRefused : Prop := ∀ (s : State) (r : Refusal), step s ≠ .refused r

/-! ### RDS encoder -/

/-- R131: crc10(w) is the remainder of w(x)·x^10 divided by g(x) over GF(2). -/
def Obligations.Crc10IsThePolynomialRemainder : Prop :=
  ∀ w : BitVec 16, bitPoly (crc10 w) = (bitPoly w * Polynomial.X ^ 10) %ₘ crcGenerator

/-- R132: crc10 is linear, its sixteen single-bit values are those of the table, none is 0, and so changing one bit of a word changes
its checkword. -/
def Obligations.Crc10IsLinearAndSensitive : Prop :=
  (∀ a b : BitVec 16, crc10 (a ^^^ b) = crc10 a ^^^ crc10 b) ∧ crc10 0 = 0 ∧
    (∀ k, k < 16 → some (crc10 (1 <<< k)) = singleBitCrcs[k]?) ∧ (∀ v ∈ singleBitCrcs, v ≠ 0) ∧
    ∀ (w : BitVec 16) (k : Nat), k < 16 → crc10 (w ^^^ (1 <<< k)) ≠ crc10 w

/-- R28, R133, R140, R141: CRC10 leaves the checkword in RESULT, PACK the word's 16 bits and below them the checkword XORed with the
block's offset word; nothing else changes but STATUS. -/
def Obligations.Crc10AndPackResults : Prop :=
  ∀ (w : BitVec 16) (s : State),
    exec (.crc10 w) s =
        .next { s with result := (crc10 w).setWidth 26, err := .ok, done := true, eng := .idle } ∧
      ∀ blk, ∃ t, exec (.pack blk w) s = .next t ∧
        t = { s with result := t.result, err := .ok, done := true, eng := .idle } ∧
        t.result.extractLsb' 10 16 = w ∧
        t.result.extractLsb' 0 10 =
          crc10 w ^^^ (match blk with | .a => 0x0FC | .b => 0x198 | .c => 0x168 | .d => 0x1B4)

/-- R148: type, version and segment can be read back from block B, and the bits between them are 0 (R134). -/
def Obligations.BlockBFieldsAreRecoverable : Prop :=
  ∀ type ver seg : Nat, type < 16 → ver < 2 → seg < 16 →
    (blockB type ver seg).extractLsb' 12 4 = BitVec.ofNat 4 type ∧
      (blockB type ver seg).extractLsb' 11 1 = BitVec.ofNat 1 ver ∧
      (blockB type ver seg).extractLsb' 0 4 = BitVec.ofNat 4 seg ∧
      (blockB type ver seg).extractLsb' 4 7 = 0

/-- R135, R136, R138, R142, R146: GRP0A writes the four blocks of the clamped segment's group to GBUF, zeros behind them, and GINFO;
nothing else changes but STATUS. -/
def Obligations.Grp0aWritesTheGroup : Prop :=
  ∀ (imm : BitVec 16) (s : State), ∃ t, exec (.grp0a imm) s = .next t ∧
    t = { s with gbuf := t.gbuf, glen := 104, gtype := .group0A, err := .ok, done := true, eng := .idle } ∧
    gbufHasBlock t 0 (packBlock s.pi 0x0FC) ∧
    gbufHasBlock t 26 (packBlock (BitVec.ofNat 16 (min imm.toNat 3)) 0x198) ∧
    gbufHasBlock t 52 (packBlock 0 0x168) ∧
    gbufHasBlock t 78 (packBlock (textPair s.ps (2 * min imm.toNat 3)) 0x1B4) ∧
    ∀ j, 104 ≤ j → j < 128 → gbufBit t j = false

/-- R135, R137, R138, R143, R146: GRP2A, the same with four RT characters in blocks C and D and type 2 in block B. -/
def Obligations.Grp2aWritesTheGroup : Prop :=
  ∀ (imm : BitVec 16) (s : State), ∃ t, exec (.grp2a imm) s = .next t ∧
    t = { s with gbuf := t.gbuf, glen := 104, gtype := .group2A, err := .ok, done := true, eng := .idle } ∧
    gbufHasBlock t 0 (packBlock s.pi 0x0FC) ∧
    gbufHasBlock t 26 (packBlock (BitVec.ofNat 16 (0x2000 + min imm.toNat 15)) 0x198) ∧
    gbufHasBlock t 52 (packBlock (textPair s.rt (4 * min imm.toNat 15)) 0x168) ∧
    gbufHasBlock t 78 (packBlock (textPair s.rt (4 * min imm.toNat 15 + 2)) 0x1B4) ∧
    ∀ j, 104 ≤ j → j < 128 → gbufBit t j = false

/-- R139, R144, R145: PSLOAD and RTLOAD copy the first min(n, L) bytes of TXT and pad with spaces; nothing else changes but
STATUS. -/
def Obligations.TextLoadsTruncateAndPad : Prop :=
  ∀ (n : BitVec 16) (s : State),
    (∃ t, exec (.psload n) s = .next t ∧ t = { s with ps := t.ps, err := .ok, done := true, eng := .idle } ∧
      ∀ j, j < 8 → t.ps.toList[j]? = if j < min n.toNat 8 then s.txt.toList[j]? else some 0x20) ∧
    (∃ t, exec (.rtload n) s = .next t ∧ t = { s with rt := t.rt, err := .ok, done := true, eng := .idle } ∧
      ∀ j, j < 64 → t.rt.toList[j]? = if j < min n.toNat 64 then s.txt.toList[j]? else some 0x20)

/-- R147: the information bits of block D of the four 0A groups are the eight PS bytes in order, those of blocks C and D of the sixteen
2A groups the 64 RT bytes in order. -/
def Obligations.GroupsCarryTheTextInOrder : Prop :=
  ∀ (s : State) (j : Nat), j < 8 →
    (∀ seg : Fin 4, ∀ b, b < 2 →
      (group0A s seg)[78 + 8 * b + j]? = (s.ps.toList[2 * seg.val + b]?).map fun v => v.getMsbD j) ∧
    ∀ seg : Fin 16, ∀ b, b < 2 →
      (group2A s seg)[52 + 8 * b + j]? = (s.rt.toList[4 * seg.val + b]?).map (fun v => v.getMsbD j) ∧
        (group2A s seg)[78 + 8 * b + j]? = (s.rt.toList[4 * seg.val + 2 + b]?).map fun v => v.getMsbD j

/-- R149: CRC10, PACK, GRP0A and GRP2A give the same results in any two states with the same PI, PS and RT. -/
def Obligations.EncoderDependsOnIdentityAndTextOnly : Prop :=
  ∀ s s' : State, s.pi = s'.pi → s.ps = s'.ps → s.rt = s'.rt → ∀ (blk : Block) (imm : BitVec 16),
    (∃ t t', exec (.crc10 imm) s = .next t ∧ exec (.crc10 imm) s' = .next t' ∧ t.result = t'.result) ∧
    (∃ t t', exec (.pack blk imm) s = .next t ∧ exec (.pack blk imm) s' = .next t' ∧ t.result = t'.result) ∧
    (∃ t t', exec (.grp0a imm) s = .next t ∧ exec (.grp0a imm) s' = .next t' ∧
      t.gbuf = t'.gbuf ∧ t.glen = t'.glen ∧ t.gtype = t'.gtype) ∧
    ∃ t t', exec (.grp2a imm) s = .next t ∧ exec (.grp2a imm) s' = .next t' ∧
      t.gbuf = t'.gbuf ∧ t.glen = t'.glen ∧ t.gtype = t'.gtype

/-! ### RDS sequencer -/

/-- R161, R162, R168 without a logo: NEXTGRP writes the 0A group of segment CYC mod 4, or where CYC mod 3 = 2 the 2A group of RT_IDX,
and advances the counters; nothing else changes but STATUS. -/
def Obligations.NextgrpWithoutLogo : Prop :=
  ∀ s : State, (s.ctrl.getLsbD 1 = false ∨ s.logoLen = 0 ∨ s.cyc.val % 5 ≠ 0) → ∃ t, exec .nextgrp s = .next t ∧
    t = { s with
      gbuf := t.gbuf, glen := 104, gtype := t.gtype, cyc := s.cyc + 1, rtIdx := t.rtIdx,
      err := .ok, done := true, eng := .idle } ∧
    gbufHasBlock t 0 (packBlock s.pi 0x0FC) ∧
    (∀ j, 104 ≤ j → j < 128 → gbufBit t j = false) ∧
    (s.cyc.val % 3 ≠ 2 → t.gtype = .group0A ∧ t.rtIdx = s.rtIdx ∧
      gbufHasBlock t 26 (packBlock (BitVec.ofNat 16 (s.cyc.val % 4)) 0x198) ∧ gbufHasBlock t 52 (packBlock 0 0x168) ∧
      gbufHasBlock t 78 (packBlock (textPair s.ps (2 * (s.cyc.val % 4))) 0x1B4)) ∧
    (s.cyc.val % 3 = 2 → t.gtype = .group2A ∧ t.rtIdx = s.rtIdx + 1 ∧
      gbufHasBlock t 26 (packBlock (BitVec.ofNat 16 (0x2000 + s.rtIdx.val)) 0x198) ∧
      gbufHasBlock t 52 (packBlock (textPair s.rt (4 * s.rtIdx.val)) 0x168) ∧
      gbufHasBlock t 78 (packBlock (textPair s.rt (4 * s.rtIdx.val + 2)) 0x1B4))

/-- R161, R163, R168 with a logo, at a multiple of 5: NEXTGRP writes the next up to 104 logo bits, raw, and moves the cursor, which wraps
at once at the end; nothing else changes but CYC and STATUS. -/
def Obligations.NextgrpLogoChunk : Prop :=
  ∀ (s : State) (k : Nat), s.ctrl.getLsbD 1 = true → 0 < s.logoLen → s.cyc.val % 5 = 0 → LogoCursorLegal s →
    k = min 104 (s.logoLen - s.logoCur) → (∀ j, j < k → (memGet s.logoMem (s.logoCur + j)).isSome = true) →
    1 ≤ k ∧ ∃ t, exec .nextgrp s = .next t ∧
      t = { s with
        gbuf := t.gbuf, glen := k, gtype := .logo, cyc := s.cyc + 1,
        logoCur := if s.logoCur + k = s.logoLen then 0 else s.logoCur + k,
        err := .ok, done := true, eng := .idle } ∧
      ∀ j, j < 128 → gbufBit t j = if j < k then (memGet s.logoMem (s.logoCur + j)).getD false else false

/-- R165: without a logo, any three consecutive emissions are two 0A groups and one 2A group; sixty are 40 and 20. -/
def Obligations.CadenceWithoutLogo : Prop :=
  ∀ s : State, logoPresent s = false →
    (∃ es t, emissions .nextgrp 3 s = .ok (es, t) ∧ countType .group0A es = 2 ∧ countType .group2A es = 1 ∧
      countType .logo es = 0) ∧
    ∃ es t, emissions .nextgrp 60 s = .ok (es, t) ∧ countType .group0A es = 40 ∧ countType .group2A es = 20 ∧
      countType .logo es = 0

/-- R166: with a logo present, an emission is a logo chunk exactly where CYC is a multiple of 5, and sixty emissions are 12 logo chunks, 32
0A groups and 16 2A groups. -/
def Obligations.LogoEveryFifthEmission : Prop :=
  ∀ s : State, logoPresent s = true → LogoCursorLegal s →
    (∀ k, k < s.logoLen → (memGet s.logoMem k).isSome = true) →
    ∃ es t, emissions .nextgrp 60 s = .ok (es, t) ∧ es.length = 60 ∧
      (∀ k e, es[k]? = some e → (e.2 = .logo ↔ (s.cyc.val + k) % 5 = 0)) ∧
      countType .logo es = 12 ∧ countType .group0A es = 32 ∧ countType .group2A es = 16

/-- R167: generate(n) returns the first n bits of the fewest emissions that hold n bits, and leaves the sequencer after them. -/
def Obligations.GenerateTakesTheFewestEmissions : Prop :=
  ∀ (cmd : Mnemonic) (n : Nat) (s t : State) (bits : List Bool), generate cmd n s = .ok (bits, t) →
    bits.length = n ∧ ∃ m es, emissions cmd m s = .ok (es, t) ∧ bits = (emittedBits es).take n ∧
      ∀ m', m' < m → (emittedBits (es.take m')).length < n

/-- R169, R269: GENBITS writes the generated bits to BIT_MEM[0..n), sets BIT_LEN and leaves the sequencer where generate(n) does; beyond the
capacity it raises E_CAP. -/
def Obligations.GenbitsFillsTheBitSource : Prop :=
  ∀ (imm : BitVec 16) (s : State),
    (imm.toNat ≤ s.params.bitCap →
      (logoPresent s = false ∨
        (LogoCursorLegal s ∧ ∀ k, k < s.logoLen → (memGet s.logoMem k).isSome = true)) →
      ∃ bits u t, generate .genbits imm.toNat s = .ok (bits, u) ∧ bits.length = imm.toNat ∧
        exec (.genbits imm) s = .next t ∧
        t = { s with
          bitMem := t.bitMem, bitLen := imm.toNat, cyc := u.cyc, rtIdx := u.rtIdx, logoCur := u.logoCur,
          err := .ok, done := true, eng := .idle } ∧
        ∀ k, memGet t.bitMem k = if k < imm.toNat then bits[k]? else memGet s.bitMem k) ∧
    (s.params.bitCap < imm.toNat →
      exec (.genbits imm) s = .next { s with err := .cap, done := true, eng := .idle })

/-- R170, R250: SEQRST clears the three sequencer counters; NOP changes nothing; both complete with OK. -/
def Obligations.SeqrstAndNopResults : Prop :=
  ∀ s : State,
    exec .seqrst s = .next { s with cyc := 0, rtIdx := 0, logoCur := 0, err := .ok, done := true, eng := .idle } ∧
      exec .nop s = .next { s with err := .ok, done := true, eng := .idle }

/-! ### Subcarrier modulator -/

/-- R191: sps(FS) is FS / 1187.5 rounded to the nearest integer, with no tie. -/
def Obligations.SpsIsTheNearestInteger : Prop :=
  ∀ fs : Nat, spsOf fs = (4 * fs + 2375) / 4750 ∧ |(fs : ℚ) / (2375 / 2) - (spsOf fs : ℚ)| < 1 / 2

/-- R190, R192, R193: the rate check is FS / 1187.5 ≥ 4; the number of taps is 41 up to 6 samples per symbol and 6·sps + 1 above; it is odd
and the centre tap is its middle. -/
def Obligations.RateCheckAndFilterSize : Prop :=
  (∀ fs : Nat, rateOk fs = true ↔ ¬((fs : ℚ) / (2375 / 2) < 4)) ∧
    ∀ sps : Nat, ntapsOf sps = (if sps ≤ 6 then 41 else 6 * sps + 1) ∧ ntapsOf sps % 2 = 1 ∧
      2 * centreOf (ntapsOf sps) + 1 = ntapsOf sps

/-- R194, R196, R203, R267, R269: DESIGN writes the raw taps, each divided by their ascending sum, to TAP_MEM[0..n), and SPS, NTAPS and
TAPS_VALID, or raises E_RATE or E_CAP; at the default capacity E_CAP means FS ≥ 810469. In every Num. -/
def Obligations.DesignInstallsTheFilter : Prop :=
  ∀ s : State,
    let N := numType s.params
    let sps := spsOf s.fs.toNat
    let n := ntapsOf sps
    (4750 ≤ s.fs.toNat → n ≤ s.params.tapCap →
      ∃ t, exec .design s = .next t ∧
        t = { s with
          tapMem := t.tapMem, sps := sps, ntaps := n, tapsValid := true, err := .ok, done := true, eng := .idle } ∧
        ∀ k, memGet t.tapMem k =
          if k < n then some (N.div (rawTapValue N sps n k) (rawTapSum N sps n n)) else memGet s.tapMem k) ∧
    (s.fs.toNat < 4750 → exec .design s = .next { s with err := .rate, done := true, eng := .idle }) ∧
    (4750 ≤ s.fs.toNat → s.params.tapCap < n → exec .design s = .next { s with err := .cap, done := true, eng := .idle }) ∧
    (s.params.tapCap = 4096 → (s.params.tapCap < n ↔ 810469 ≤ s.fs.toNat))

/-- R194, R195, in binary64: at the two taps one symbol from the centre the denominator is exactly 0 and the limit branch is taken,
whose value is (π/4)·sinc(1). -/
def Obligations.LimitBranchAtOneSymbol : Prop :=
  ∀ sps c i : Nat, 0 < sps → sps < 2 ^ 31 → (i = c + sps ∨ i + sps = c) →
    rawTap binary64Num sps c i =
      ofNum64 (numMul (numDiv numPi (num 4)) (numDiv (sinN (numMul numPi (num 1))) (numMul numPi (num 1))))

/-- R198, R204: DIFFENC's symbol k is −1 exactly where the bits 0 to k hold an odd number of ones; SYM_MEM beyond BIT_LEN and everything else
is unchanged but STATUS. -/
def Obligations.DiffencEncodesParity : Prop :=
  ∀ (s : State) (bits : List Bool), bits.length = s.bitLen → holds s.bitMem bits →
    ∃ t, exec .diffenc s = .next t ∧
      t = { s with symMem := t.symMem, symLen := s.bitLen, err := .ok, done := true, eng := .idle } ∧
      ∀ k, memGet t.symMem k =
        if k < s.bitLen then some (if (bits.take (k + 1)).count true % 2 = 1 then .minus else .plus)
        else memGet s.symMem k

/-- R199, R200, R205: SHAPE writes the same-length convolution of the impulse train with the taps to BB_MEM[0..M). -/
def Obligations.ShapeConvolvesTheImpulseTrain : Prop :=
  ∀ (s : State) (syms : List SymVal) (taps : List NumVal), s.tapsValid = true →
    s.symLen * s.sps ≤ s.params.sampleCap → syms.length = s.symLen → holds s.symMem syms →
    taps.length = s.ntaps → holds s.tapMem taps →
    ∃ t, exec .shape s = .next t ∧
      t = { s with bbMem := t.bbMem, bbLen := s.symLen * s.sps, err := .ok, done := true, eng := .idle } ∧
      ∀ p, memGet t.bbMem p =
        if p < s.symLen * s.sps then
          some (convolutionSum (numType s.params) (impulseSample (numType s.params) syms s.sps) (s.symLen * s.sps) taps p)
        else memGet s.bbMem p

/-- R116, R201, R206: MIX writes BB_MEM[p] × cos(2π·f·p/FS) to SUB_MEM[p] for p < BB_LEN, f the selected carrier. -/
def Obligations.MixMultipliesByTheCarrier : Prop :=
  ∀ (s : State) (bb : List NumVal) (car : Carrier), s.tapsValid = true → bb.length = s.bbLen → holds s.bbMem bb →
    ∃ t, exec (.mix car) s = .next t ∧
      t = { s with subMem := t.subMem, subLen := s.bbLen, err := .ok, done := true, eng := .idle } ∧
      ∀ p, memGet t.subMem p =
        if p < s.bbLen then
          (bb[p]?).map fun v => (numType s.params).mul v
            (carrier s (match car with | .c57 => 57000 | .c66 => 66500 | .c76 => 76000 | .c85 => 85500) p)
        else memGet s.subMem p

/-- R207: MODULATE completes, and its state is that of the sequence DIFFENC; SHAPE; MIX from the same start. -/
def Obligations.ModulateIsDiffencShapeMix : Prop :=
  ∀ (s : State) (bits : List Bool) (taps : List NumVal) (car : Carrier), s.tapsValid = true →
    s.bitLen * s.sps ≤ s.params.sampleCap → bits.length = s.bitLen → holds s.bitMem bits →
    taps.length = s.ntaps → holds s.tapMem taps →
    ∃ t1 t2 t, exec .diffenc s = .next t1 ∧ exec .shape t1 = .next t2 ∧ exec (.mix car) t2 = .next t ∧
      exec (.modulate car) s = .next t ∧ t.err = .ok ∧ t.symLen = s.bitLen ∧ t.bbLen = s.bitLen * s.sps ∧
      t.subLen = s.bitLen * s.sps

/-! ### MPX composer -/

/-- R230 to R239: COMPOSE, with finite inputs and finite sums, writes the clamped sum of each sample to OUT_MEM[0..N); the baseband is its own,
computed from the bit source, and nothing else changes but STATUS. In every Num. That the sums are finite is a hypothesis: of another Num it need
not hold (93 I1), and of the default Num's sine and cosine the model knows only that they lie in [−1, 1] (log entries 6 and 7). -/
def Obligations.ComposeWritesTheClampedSum : Prop :=
  ∀ (s : State) (l r : List Word) (dl dr : List NumVal) (bits : List Bool) (taps : List NumVal) (pilot rds : NumVal)
    (rds2 : Option NumVal) (sum : Nat → NumVal),
    s.tapsValid = true → l.length = s.nsamp → holds s.lMem l → r.length = s.nsamp → holds s.rMem r →
    l.map (dec32 s.params) = dl.map some → r.map (dec32 s.params) = dr.map some → levelsDecode s pilot rds rds2 →
    bits.length = s.bitLen → holds s.bitMem bits → taps.length = s.ntaps → holds s.tapMem taps →
    (∀ i a b, dl[i]? = some a → dr[i]? = some b →
      sum i = mpxSum s pilot rds rds2
        (if i < s.bitLen * s.sps then
          some (convolutionSum (numType s.params) (impulseSample (numType s.params) (diffenc bits) s.sps)
            (s.bitLen * s.sps) taps i) else none) i a b) →
    (∀ i, i < s.nsamp → (numType s.params).isFinite (sum i) = true) →
    ∃ t, exec .compose s = .next t ∧ t = { s with outMem := t.outMem, err := .ok, done := true, eng := .idle } ∧
      ∀ i, memGet t.outMem i = if i < s.nsamp then some (saturated (numType s.params) (sum i)) else memGet s.outMem i

/-- R238, R240(b): every sample a successful COMPOSE writes is a finite sum saturated, in every Num, and under the default Num a number v with
−0.999 ≤ v ≤ 0.999. That the sum is finite in every Num is no promise of R240, which leaves a narrower Num out: it rests on the model's treatment
of a sum that is not finite as the fault `numDomain` (93 I1, R280; log entry 7, DEDUCED). -/
def Obligations.ComposeOutputIsBounded : Prop :=
  ∀ s t : State, exec .compose s = .next t → t.err = .ok →
    ∀ i, i < s.nsamp → ∃ x, (numType s.params).isFinite x = true ∧
      memGet t.outMem i = some (saturated (numType s.params) x) ∧
      (s.params.num = .binary64 → withinClamp (toNum64 (saturated binary64Num x)) = true)

/-- R14: at the defaults dec32 of a word is none exactly where the word's exponent field is all ones, and otherwise a value that equals the
word's and that enc32 turns back into the word. R8: no dec32 gives a value that is not finite. R238, R240(b): the host reads a bounded sample as
a binary32 word whose magnitude is at most 0x3F7FBE77. -/
def Obligations.HostConversionsExactAndClamped : Prop :=
  (∀ (p : Params) (w : Word), defaultDatapath p →
    (dec32 p w = none ↔ w.extractLsb' 23 8 = 0xFF) ∧
      ∀ v, dec32 p w = some v →
        ieeeValue 52 11 (toNum64 v).bits.toNat = ieeeValue 23 8 w.toNat ∧ enc32 p v = w) ∧
  (∀ (p : Params) (w : Word) (v : NumVal), dec32 p w = some v → (numType p).isFinite v = true) ∧
  ∀ (p : Params) (v : NumVal), defaultDatapath p → withinClamp (toNum64 v) = true →
    (enc32 p v).toNat % 2 ^ 31 ≤ 0x3F7FBE77

/-- R240(a), under the default Num: equal finite left and right samples give a difference of +0 exactly, and a difference-channel term that is a
zero. -/
def Obligations.EqualSamplesGiveZeroDifference : Prop :=
  ∀ (p : Params) (w : Word) (v x : NumVal), p.num = .binary64 → dec32 p w = some v →
    (numType p).sub v v = ofNum64 (num 0) ∧
      ∃ neg, (numType p).mul ((numType p).sub v v) ((numType p).cos x) = ofNum64 (numOf neg 0)

/-- R240(b), R240(c), under the default Num and conversions: with BIT_LEN = 0, a filter, defined operands and finite words, every sum is finite,
so COMPOSE completes, at every rate, with the clamped sum of mid, pilot and difference terms in OUT_MEM[0..N); nothing else changes but STATUS. It
rests on the range of sine and cosine, which the model infers (log entry 6). -/
def Obligations.ComposeWithoutBitsCompletes : Prop :=
  ∀ (s : State) (l r : List Word) (dl dr taps : List NumVal) (pilot rds : NumVal) (rds2 : Option NumVal),
    defaultDatapath s.params → s.tapsValid = true → s.bitLen = 0 → l.length = s.nsamp → holds s.lMem l →
    r.length = s.nsamp → holds s.rMem r →
    l.map (dec32 s.params) = dl.map some → r.map (dec32 s.params) = dr.map some → levelsDecode s pilot rds rds2 →
    taps.length = s.ntaps → holds s.tapMem taps →
    ∃ t, exec .compose s = .next t ∧ t = { s with outMem := t.outMem, err := .ok, done := true, eng := .idle } ∧
      (∀ i a b, dl[i]? = some a → dr[i]? = some b →
        (numType s.params).isFinite (mpxSum s pilot rds rds2 none i a b) = true ∧
          memGet t.outMem i = some (saturated (numType s.params) (mpxSum s pilot rds rds2 none i a b))) ∧
      ∀ i, s.nsamp ≤ i → memGet t.outMem i = memGet s.outMem i

/-! ### Control and reset -/

/-- R251: SRST gives every register but ID, VERSION, CMD and STATUS its reset value, leaves STATUS = DONE, keeps LASTCMD and every memory, and
raises no interrupt. -/
def Obligations.SrstRestoresTheRegisters : Prop :=
  ∀ s : State, ∃ t, exec .srst s = .next t ∧
    (∀ r : Reg, r ≠ .cmd → r ≠ .status → readReg t r = readReg State.reset r) ∧
    t.lastCmd = s.lastCmd ∧ statusWord t = 0x2 ∧ irq t = false ∧
    t = { State.reset with
      params := s.params, lastCmd := s.lastCmd, done := true, lMem := s.lMem, rMem := s.rMem, outMem := s.outMem,
      bbMem := s.bbMem, subMem := s.subMem, tapMem := s.tapMem, bitMem := s.bitMem, symMem := s.symMem,
      logoMem := s.logoMem, turns := s.turns, replies := s.replies, draws := s.draws }

/-- R291 to R293: the register values, memories, engine and interrupt line right after power-on reset. -/
def Obligations.ResetValues : Prop :=
  readReg State.reset .id = 0x4A4D5058 ∧ readReg State.reset .version = 0x00070001 ∧
    (∀ r : Reg, r ≠ .id → r ≠ .version → (∀ k, r ≠ .ps k) → (∀ k, r ≠ .rt k) → readReg State.reset r = 0) ∧
    (∀ k, readReg State.reset (.ps k) = 0x20202020) ∧ (∀ k, readReg State.reset (.rt k) = 0x20202020) ∧
    (∀ m k, isUndefined State.reset m k) ∧ State.reset.eng = .idle ∧ irq State.reset = false

/-- R290(a), R291, R292: power-on reset, at any time, abandons a command in flight and gives every register and memory element its reset value.
What it keeps is the model's: the parameters, the moves to come, the replies and the draw counter (log entry 10). -/
def Obligations.PowerOnResetAbandonsTheCommand : Prop :=
  ∀ (s : State) (rest : List Turn), s.turns = .powerOn :: rest → ∃ t, step s = .next t ∧
    (∀ r : Reg, readReg t r = readReg State.reset r) ∧ (∀ m k, isUndefined t m k) ∧ t.eng = .idle ∧
    t = { State.reset with params := s.params, turns := rest, replies := s.replies, draws := s.draws }

/-- R293: an idle block does nothing on its own. -/
def Obligations.IdleEngineDoesNothing : Prop :=
  ∀ s : State, s.eng = .idle →
    (s.turns = [] → step s = .next s) ∧ ∀ rest, s.turns = .engine :: rest → step s = .next { s with turns := rest }

/-! ### Bus -/

/-- R74 to R76: an access of another size, misaligned or unmapped is rejected, and so is a write to a read-only register or window: a read returns
0, a write changes nothing, and ACCERR is set, BUSY or not. -/
def Obligations.RejectedAccessesSetAccerr : Prop :=
  ∀ (s : State) (addr : BitVec 24) (size : Nat) (v : Word) (rest : List Turn),
    (size ≠ 4 ∨ addr.toNat % 4 ≠ 0 ∨ unmappedAddress s.params addr.toNat →
      (s.turns = .read addr size :: rest →
        step s = .next { s with accErr := true, replies := 0 :: s.replies, turns := rest }) ∧
      (s.turns = .write addr size v :: rest → step s = .next { s with accErr := true, turns := rest })) ∧
    (readOnlyRegisterOffset addr.toNat ∨ (0x300000 ≤ addr.toNat ∧ addr.toNat < 0x700000) ∨
        (0x740000 ≤ addr.toNat ∧ addr.toNat < 0x780000) →
      s.turns = .write addr size v :: rest → step s = .next { s with accErr := true, turns := rest })

/-- R83(a), R273: while BUSY a write that would be taken is dropped and sets WBUSY, but a write of STATUS is taken. -/
def Obligations.WritesWhileBusyAreDropped : Prop :=
  ∀ (s : State) (w v : Word) (left : Nat) (loc : Loc) (addr : BitVec 24) (rest : List Turn),
    s.eng = .busy w left → s.turns = .write addr 4 v :: rest → busTarget s addr 4 = some loc →
    locWritable loc = true →
    (loc ≠ .reg .status → step s = .next { s with wBusy := true, turns := rest }) ∧
      (loc = .reg .status → step s = .next
        { s with
          done := s.done && !v.getLsbD 1, accErr := s.accErr && !v.getLsbD 8, wBusy := s.wBusy && !v.getLsbD 9,
          turns := rest })

/-- R70(a), R83(b), R83(c): a read of a location in the write set of the command in flight, or of a word that holds a ⊥ element, returns the next free
word and uses it up; any other read returns the location's current value. Nothing else changes. And a command that completes changes no location
outside its write set but STATUS. That a malformed word keeps the write set of its opcode is the model's choice (log entry 14). -/
def Obligations.ReadsAreCurrentOrFree : Prop :=
  (∀ (s : State) (loc : Loc) (addr : BitVec 24) (rest : List Turn), s.turns = .read addr 4 :: rest →
    busTarget s addr 4 = some loc →
    ((∃ w left c, s.eng = .busy w left ∧ mnemonicOf (w.extractLsb' 0 8) = some c ∧ written c loc = true) ∨
        readLoc s loc = none →
      step s = .next
        { s with replies := Config.freeWord s.draws :: s.replies, draws := s.draws + 1, turns := rest }) ∧
    (∀ v, (∀ w left c, s.eng = .busy w left → mnemonicOf (w.extractLsb' 0 8) = some c → written c loc = false) →
      readLoc s loc = some v → step s = .next { s with replies := v :: s.replies, turns := rest })) ∧
  ∀ (i : Instr) (s t : State) (loc : Loc), exec i s = .next t → loc ≠ .reg .status → written i.mnemonic loc = false →
    readLoc t loc = readLoc s loc

/-- R25, R29 to R36, R49, R78: what an accepted register write stores, with the side effects of FS and LOGO_LEN, and for TXT the four bytes, the
first from the top of the word; nothing else changes. -/
def Obligations.RegisterWritesStoreTheLegalValue : Prop :=
  ∀ (s : State) (v : Word) (rest : List Turn), s.eng = .idle →
    (s.turns = .write 0x000008 4 v :: rest → step s = .next { s with ctrl := v.extractLsb' 0 3, turns := rest }) ∧
    (s.turns = .write 0x000018 4 v :: rest → step s = .next { s with pi := v.extractLsb' 0 16, turns := rest }) ∧
    (s.turns = .write 0x00001C 4 v :: rest → step s = .next
      { s with fs := v, tapsValid := false, sps := 0, ntaps := 0, bbLen := 0, subLen := 0, turns := rest }) ∧
    (s.turns = .write 0x000020 4 v :: rest → step s = .next { s with pilotLevel := v, turns := rest }) ∧
    (s.turns = .write 0x000024 4 v :: rest → step s = .next { s with rdsLevel := v, turns := rest }) ∧
    (s.turns = .write 0x000028 4 v :: rest → step s = .next { s with rds2Level := v, turns := rest }) ∧
    (s.turns = .write 0x00002C 4 v :: rest →
      step s = .next { s with nsamp := min v.toNat s.params.sampleCap, turns := rest }) ∧
    (s.turns = .write 0x000030 4 v :: rest →
      step s = .next { s with bitLen := min v.toNat s.params.bitCap, turns := rest }) ∧
    (s.turns = .write 0x000034 4 v :: rest →
      step s = .next { s with logoLen := min v.toNat s.params.logoCap, logoCur := 0, turns := rest }) ∧
    (∀ k : Fin 16, s.turns = .write (BitVec.ofNat 24 (0x100 + 4 * k.val)) 4 v :: rest → ∃ t, step s = .next t ∧
      t = { s with txt := t.txt, turns := rest } ∧
      ∀ j, j < 64 → t.txt.toList[j]? =
        if j / 4 = k.val then some (v.extractLsb' (24 - 8 * (j % 4)) 8) else s.txt.toList[j]?)

/-- R26, R275: a write of STATUS clears the bits DONE, ACCERR and WBUSY written as 1 and does nothing else, idle or BUSY; R26: the fields of STATUS
stand where the rule puts them; R64, R274: the interrupt line is IRQ_EN and DONE, and falls when DONE is cleared, when IRQ_EN is cleared, and when a
command is accepted. -/
def Obligations.StatusFieldsClearingAndIrq : Prop :=
  (∀ s : State,
    (statusWord s).getLsbD 0 = isBusy s ∧ (statusWord s).getLsbD 1 = s.done ∧
      (statusWord s).getLsbD 2 = s.tapsValid ∧ (statusWord s).getLsbD 3 = false ∧
      (statusWord s).extractLsb' 4 4 =
        (match s.err with
          | .ok => 0 | .opc => 1 | .field => 2 | .rate => 3 | .noTaps => 4 | .cap => 5 | .nonFinite => 6) ∧
      (statusWord s).getLsbD 8 = s.accErr ∧ (statusWord s).getLsbD 9 = s.wBusy ∧
      (statusWord s).extractLsb' 10 22 = 0) ∧
  (∀ (s : State) (v : Word) (rest : List Turn), s.turns = .write 0x00000C 4 v :: rest →
    step s = .next
      { s with
        done := s.done && !v.getLsbD 1, accErr := s.accErr && !v.getLsbD 8, wBusy := s.wBusy && !v.getLsbD 9,
        turns := rest }) ∧
  (∀ s : State, irq s = (s.ctrl.getLsbD 2 && s.done)) ∧
  ∀ (s : State) (v : Word) (rest : List Turn),
    (s.turns = .write 0x00000C 4 v :: rest → v.getLsbD 1 = true → ∃ t, step s = .next t ∧ irq t = false) ∧
    (s.eng = .idle → s.turns = .write 0x000008 4 v :: rest → v.getLsbD 2 = false →
      ∃ t, step s = .next t ∧ irq t = false) ∧
    (s.eng = .idle → s.turns = .write 0x000010 4 v :: rest → ∃ t, step s = .next t ∧ irq t = false)

/-- R51, R56, R58, R72, R79: an accepted write of a sample window changes one element, of a packed window the 32 elements of its word below the
capacity, the first in bit 31; no other element and nothing else changes. -/
def Obligations.WindowWritesChangeTheirWordOnly : Prop :=
  ∀ (s : State) (v : Word) (k : Nat) (addr : BitVec 24) (rest : List Turn), s.eng = .idle →
    s.turns = .write addr 4 v :: rest →
    (k < s.params.sampleCap → k < 2 ^ 18 → addr = BitVec.ofNat 24 (0x100000 + 4 * k) → ∃ t, step s = .next t ∧
      t = { s with lMem := t.lMem, turns := rest } ∧
      ∀ i, memGet t.lMem i = if i = k then some v else memGet s.lMem i) ∧
    (k < s.params.sampleCap → k < 2 ^ 18 → addr = BitVec.ofNat 24 (0x200000 + 4 * k) → ∃ t, step s = .next t ∧
      t = { s with rMem := t.rMem, turns := rest } ∧
      ∀ i, memGet t.rMem i = if i = k then some v else memGet s.rMem i) ∧
    (32 * k < s.params.bitCap → k < 2 ^ 16 → addr = BitVec.ofNat 24 (0x700000 + 4 * k) → ∃ t, step s = .next t ∧
      t = { s with bitMem := t.bitMem, turns := rest } ∧
      ∀ i, memGet t.bitMem i =
        if i / 32 = k ∧ i < s.params.bitCap then some (v.getLsbD (31 - i % 32)) else memGet s.bitMem i) ∧
    (32 * k < s.params.logoCap → k < 2 ^ 17 → addr = BitVec.ofNat 24 (0x780000 + 4 * k) → ∃ t, step s = .next t ∧
      t = { s with logoMem := t.logoMem, turns := rest } ∧
      ∀ i, memGet t.logoMem i =
        if i / 32 = k ∧ i < s.params.logoCap then some (v.getLsbD (31 - i % 32)) else memGet s.logoMem i)

/-- R23 to R49, R72: while idle, a read of each register offset returns the register's value as `registerTable` lays it out, and a read of word k of a
window the value of that word, where it has one. R79, R80: that value is, in a packed window, bit by bit the elements, with 0 beyond the capacity and
−1 as bit 1 in SYM_MEM; of a Num element its enc32 word; of a sample word the word as written. -/
def Obligations.ReadsReturnTheStoredValues : Prop :=
  (∀ (s : State) (off : Nat) (v : Word) (rest : List Turn), s.eng = .idle →
    s.turns = .read (BitVec.ofNat 24 off) 4 :: rest → (off, v) ∈ registerTable s →
    step s = .next { s with replies := v :: s.replies, turns := rest }) ∧
  (∀ (s : State) (m : MemName) (base words k : Nat) (v : Word) (rest : List Turn), s.eng = .idle →
    s.params.wellFormed = true → (m, base, words) ∈ windowTable s.params → k < words →
    s.turns = .read (BitVec.ofNat 24 (base + 4 * k)) 4 :: rest → readMem s m k = some v →
    step s = .next { s with replies := v :: s.replies, turns := rest }) ∧
  ∀ (s : State) (k : Nat) (w : Word),
    (readMem s .l k = memGet s.lMem k ∧ readMem s .r k = memGet s.rMem k) ∧
    (readMem s .out k = (memGet s.outMem k).map (enc32 s.params) ∧
      readMem s .bb k = (memGet s.bbMem k).map (enc32 s.params) ∧
      readMem s .sub k = (memGet s.subMem k).map (enc32 s.params) ∧
      readMem s .tap k = (memGet s.tapMem k).map (enc32 s.params)) ∧
    (readMem s .bit k = some w ↔ ∀ j, j < 32 →
      if 32 * k + j < s.params.bitCap then memGet s.bitMem (32 * k + j) = some (w.getLsbD (31 - j))
      else w.getLsbD (31 - j) = false) ∧
    (readMem s .logo k = some w ↔ ∀ j, j < 32 →
      if 32 * k + j < s.params.logoCap then memGet s.logoMem (32 * k + j) = some (w.getLsbD (31 - j))
      else w.getLsbD (31 - j) = false) ∧
    (readMem s .sym k = some w ↔ ∀ j, j < 32 →
      if 32 * k + j < s.params.bitCap then
        memGet s.symMem (32 * k + j) = some (if w.getLsbD (31 - j) then .minus else .plus)
      else w.getLsbD (31 - j) = false)

/-! ### Invariants -/

/-- Every step from a state with the block's invariant leads to one with it (R37, R38, R42, R43, R60, R62, R63, R66, R240(b), and the canonical form and
capacity of every memory). -/
def Obligations.StepKeepsTheInvariant : Prop := ∀ s t : State, Inv s → step s = .next t → Inv t

/-- The state after power-on reset has the invariant. -/
def Obligations.ResetHasTheInvariant : Prop := Inv State.reset

/-- R8: the implementation parameters in State are arguments of the model: no step changes them. -/
def Obligations.StepKeepsTheParameters : Prop := ∀ s t : State, step s = .next t → t.params = s.params
end

