-- ==== Sys2Proof/Laws/Num.lean ====
section
/-! SUPPORT. The laws of the numeric type: fields of a built pattern, the size of a rounded result, and from it when sums and products
of bounded values are finite and how large they are; and what the block's numeric type and conversions are at the defaults. -/

namespace Sys2Proof.Machine

theorem unitScale_eq : unitScale = 2 ^ unitExp binary64 := rfl

theorem unitExp64_eq : unitExp binary64 = 1074 := rfl

theorem unitScale_pos : 0 < unitScale := Nat.pow_pos (by decide)

theorem infPattern64_eq : infPattern binary64 = 2047 * 2 ^ 52 := rfl

theorem signWeight64_eq : signWeight binary64 = 2 ^ 63 := rfl

/-! ### Patterns -/

theorem numOf_toNat (neg : Bool) (mag : Nat) (h : mag < 2 ^ 63) :
    (numOf neg mag).bits.toNat = (if neg then 2 ^ 63 else 0) + mag := by
  have : signed binary64 neg mag < 2 ^ 64 := by
    rw [signed, signWeight64_eq]; split <;> omega
  rw [numOf, BitVec.toNat_ofNat, Nat.mod_eq_of_lt this, signed, signWeight64_eq]
  split <;> omega

theorem numMag_numOf (neg : Bool) (mag : Nat) (h : mag < 2 ^ 63) : numMag (numOf neg mag) = mag := by
  rw [numMag, numOf_toNat neg mag h, signWeight64_eq]
  split <;> omega

theorem numNeg_numOf (neg : Bool) (mag : Nat) (h : mag < 2 ^ 63) : numNeg (numOf neg mag) = neg := by
  rw [numNeg, numOf_toNat neg mag h, signWeight64_eq]
  cases neg
  · simpa using h
  · simp

theorem numMag_lt (x : Num64) : numMag x < 2 ^ 63 := by
  rw [numMag, signWeight64_eq]
  exact Nat.mod_lt _ (by decide)

/-- A Num is its sign and its magnitude. -/
theorem numOf_sign_mag (x : Num64) : numOf (numNeg x) (numMag x) = x := by
  have hx := x.bits.isLt
  have h : (numOf (numNeg x) (numMag x)).bits.toNat = x.bits.toNat := by
    rw [numOf_toNat _ _ (numMag_lt x), numNeg, numMag, signWeight64_eq]
    by_cases hs : 2 ^ 63 ≤ x.bits.toNat
    · simp only [hs, decide_true, if_true]; omega
    · simp only [hs, decide_false, Bool.false_eq_true, if_false]; omega
  cases x
  simp only [numOf] at h ⊢
  exact congrArg Num64.mk (BitVec.eq_of_toNat_eq h)

/-- A finite Num is neither NaN nor infinite. -/
theorem numFinite_iff (x : Num64) : numFinite x = true ↔ numIsNaN x = false ∧ numIsInf x = false := by
  simp only [numFinite, numIsNaN, numIsInf, decide_eq_true_eq, decide_eq_false_iff_not]
  omega

theorem numFinite_numOf (neg : Bool) (mag : Nat) (h : mag < 2047 * 2 ^ 52) : numFinite (numOf neg mag) = true := by
  rw [numFinite, numMag_numOf neg mag (by omega), infPattern64_eq]
  simpa using h

theorem numUnits_numOf (neg : Bool) (mag : Nat) (h : mag < 2 ^ 63) :
    numUnits (numOf neg mag) = unitsOf binary64 mag := by
  rw [numUnits, numMag_numOf neg mag h]

theorem numInt_natAbs (x : Num64) : (numInt x).natAbs = numUnits x := by
  rw [numInt]; split <;> simp

/-! ### The size of a magnitude -/

/-- A magnitude up to the start of exponent field `e` is at most `2 ^ (51 + e)` units. -/
theorem unitsOf_le (mag e : Nat) (he : 1 ≤ e) (h : mag ≤ e * 2 ^ 52) : unitsOf binary64 mag ≤ 2 ^ (51 + e) := by
  have hf : mag % 2 ^ 52 < 2 ^ 52 := Nat.mod_lt _ (by decide)
  have hdm := Nat.div_add_mod mag (2 ^ 52)
  show (if mag / 2 ^ 52 = 0 then mag % 2 ^ 52 else (2 ^ 52 + mag % 2 ^ 52) * 2 ^ (mag / 2 ^ 52 - 1)) ≤ _
  split
  · calc mag % 2 ^ 52 ≤ 2 ^ 52 := Nat.le_of_lt hf
      _ ≤ 2 ^ (51 + e) := Nat.pow_le_pow_right (by decide) (by omega)
  · by_cases hlt : mag / 2 ^ 52 < e
    · calc (2 ^ 52 + mag % 2 ^ 52) * 2 ^ (mag / 2 ^ 52 - 1)
          ≤ 2 ^ 53 * 2 ^ (e - 2) := Nat.mul_le_mul (by omega) (Nat.pow_le_pow_right (by decide) (by omega))
        _ = 2 ^ (51 + e) := by rw [← Nat.pow_add]; congr 1; omega
    · have h1 : mag / 2 ^ 52 = e := by omega
      have h2 : mag % 2 ^ 52 = 0 := by omega
      rw [h1, h2, Nat.add_zero, ← Nat.pow_add]
      exact Nat.le_of_eq (congrArg _ (by omega))

/-- A rounded magnitude below `2 ^ n` units lies at or below the start of exponent field `n − 51`. -/
theorem roundUnits_le (num den n : Nat) (hn : 53 ≤ n) (h : num < den * 2 ^ n) :
    roundUnits binary64 num den ≤ (n - 51) * 2 ^ 52 := by
  have hden : 0 < den := Nat.pos_of_ne_zero fun h0 => by simp [h0] at h
  have hv : num / den < 2 ^ n := Nat.div_lt_of_lt_mul h
  show min ((Nat.log2 (num / den) - 52) * 2 ^ 52 + _) (infPattern binary64) ≤ _
  refine Nat.le_trans (Nat.min_le_left _ _) ?_
  generalize hq : Nat.log2 (num / den) - 52 = q
  have hlog : num / den ≠ 0 → Nat.log2 (num / den) < n := fun hne => (Nat.log2_lt hne).2 hv
  have hqn : q ≤ n - 53 := by
    by_cases hne : num / den = 0
    · rw [hne, Nat.log2_zero] at hq; omega
    · have := hlog hne; omega
  have hk : num / (den * 2 ^ q) < 2 ^ 53 := by
    rw [← Nat.div_div_eq_div_mul]
    refine Nat.div_lt_of_lt_mul ?_
    rw [← Nat.pow_add]
    by_cases hne : num / den = 0
    · rw [hne]; exact Nat.pow_pos (by decide)
    · exact Nat.lt_of_lt_of_le Nat.lt_log2_self (Nat.pow_le_pow_right (by decide) (by omega))
  calc _ ≤ q * 2 ^ 52 + 2 ^ 53 := by
        refine Nat.add_le_add_left ?_ _
        have hk' : num / (den * 2 ^ (Nat.log2 (num / den) - binary64.fracBits)) < 2 ^ 53 := by
          rw [show Nat.log2 (num / den) - binary64.fracBits = q from hq]; exact hk
        split
        · exact hk'
        · exact Nat.le_of_lt hk'
    _ ≤ (n - 51) * 2 ^ 52 := by omega

/-- A Num made by rounding something below `2 ^ n` units: finite, and at most `2 ^ n` units. -/
theorem numOf_round (neg : Bool) (num den n : Nat) (hn : 53 ≤ n) (hn' : n ≤ 2000) (h : num < den * 2 ^ n) :
    numFinite (numOf neg (roundUnits binary64 num den)) = true ∧
      numUnits (numOf neg (roundUnits binary64 num den)) ≤ 2 ^ n := by
  have hr := roundUnits_le num den n hn h
  have hlt : roundUnits binary64 num den < 2047 * 2 ^ 52 := by omega
  refine ⟨numFinite_numOf _ _ hlt, ?_⟩
  rw [numUnits_numOf _ _ (by omega)]
  refine Nat.le_trans (unitsOf_le _ (n - 51) (by omega) hr) (Nat.pow_le_pow_right (by decide) (by omega))

theorem numOf_zero_finite (neg : Bool) : numFinite (numOf neg 0) = true := numFinite_numOf neg 0 (by decide)

theorem numOf_zero_units (neg : Bool) : numUnits (numOf neg 0) = 0 := by
  rw [numUnits_numOf neg 0 (by decide)]; rfl

/-! ### Sums and products of bounded values -/

/-- The sum of two finite values of fewer than `2 ^ n` units is finite and has at most `2 ^ (n + 1)`. -/
theorem numAdd_bound (x y : Num64) (n : Nat) (hn : 52 ≤ n) (hn' : n ≤ 1900) (hx : numFinite x = true)
    (hy : numFinite y = true) (hux : numUnits x < 2 ^ n) (huy : numUnits y < 2 ^ n) :
    numFinite (numAdd x y) = true ∧ numUnits (numAdd x y) ≤ 2 ^ (n + 1) := by
  obtain ⟨hxn, hxi⟩ := (numFinite_iff x).1 hx
  obtain ⟨hyn, hyi⟩ := (numFinite_iff y).1 hy
  simp only [numAdd, hxn, hxi, hyn, hyi, Bool.or_self, Bool.false_eq_true, if_false]
  split
  · exact ⟨numOf_zero_finite _, by rw [numOf_zero_units]; exact Nat.zero_le _⟩
  · refine numOf_round _ _ 1 (n + 1) (by omega) (by omega) ?_
    have h1 := numInt_natAbs x
    have h2 := numInt_natAbs y
    have h3 := Int.natAbs_add_le (numInt x) (numInt y)
    rw [Nat.pow_succ]
    omega

/-- The opposite of a value has its size. -/
theorem numNegate_finite (x : Num64) : numFinite (numNegate x) = numFinite x := by
  rw [numFinite, numFinite, numNegate, numMag_numOf _ _ (numMag_lt x)]

theorem numNegate_units (x : Num64) : numUnits (numNegate x) = numUnits x := by
  rw [numUnits, numUnits, numNegate, numMag_numOf _ _ (numMag_lt x)]

theorem numSub_bound (x y : Num64) (n : Nat) (hn : 52 ≤ n) (hn' : n ≤ 1900) (hx : numFinite x = true)
    (hy : numFinite y = true) (hux : numUnits x < 2 ^ n) (huy : numUnits y < 2 ^ n) :
    numFinite (numSub x y) = true ∧ numUnits (numSub x y) ≤ 2 ^ (n + 1) :=
  numAdd_bound x _ n hn hn' hx (by rw [numNegate_finite]; exact hy) hux (by rw [numNegate_units]; exact huy)

/-- The product of a finite value of fewer than `2 ^ n` units and one of magnitude at most 1 is finite and has at most `2 ^ n`
units. -/
theorem numMul_bound (x y : Num64) (n : Nat) (hn : 53 ≤ n) (hn' : n ≤ 2000) (hx : numFinite x = true)
    (hy : numFinite y = true) (hux : numUnits x < 2 ^ n) (huy : numUnits y ≤ unitScale) :
    numFinite (numMul x y) = true ∧ numUnits (numMul x y) ≤ 2 ^ n := by
  obtain ⟨hxn, hxi⟩ := (numFinite_iff x).1 hx
  obtain ⟨hyn, hyi⟩ := (numFinite_iff y).1 hy
  simp only [numMul, hxn, hxi, hyn, hyi, Bool.or_self, Bool.false_eq_true, if_false]
  refine numOf_round _ _ unitScale n hn hn' ?_
  have hs : 0 < unitScale := unitScale_pos
  calc numUnits x * numUnits y ≤ numUnits x * unitScale := Nat.mul_le_mul_left _ huy
    _ < 2 ^ n * unitScale := Nat.mul_lt_mul_of_pos_right hux hs
    _ = unitScale * 2 ^ n := Nat.mul_comm _ _

/-- A product with a zero is a zero. -/
theorem numMul_zero (x y : Num64) (hx : numFinite x = true) (hy : numFinite y = true)
    (h : numUnits x = 0 ∨ numUnits y = 0) : ∃ neg, numMul x y = numOf neg 0 := by
  obtain ⟨hxn, hxi⟩ := (numFinite_iff x).1 hx
  obtain ⟨hyn, hyi⟩ := (numFinite_iff y).1 hy
  have h0 : numUnits x * numUnits y = 0 := Nat.mul_eq_zero.2 h
  have hz : roundUnits binary64 0 unitScale = 0 := by
    simp [roundUnits]
  refine ⟨numNeg x != numNeg y, ?_⟩
  simp only [numMul, hxn, hxi, hyn, hyi, Bool.or_self, Bool.false_eq_true, if_false, h0, hz]

/-! ### Sine and cosine -/

theorem num_one_units : numUnits (num 1) = unitScale := by decide +kernel

theorem num_neg_one_units : numUnits (num (-1)) = unitScale := by decide +kernel

theorem num_zero_eq : num 0 = numOf false 0 := by decide +kernel

theorem num_one_facts : numFinite (num 1) = true ∧ numNeg (num 1) = false := by decide +kernel

theorem num_neg_one_facts : numFinite (num (-1)) = true ∧ numNeg (num (-1)) = true := by decide +kernel

/-- A free value in its imposed range: finite, and of magnitude at most 1. -/
theorem limitUnit_bound (v : Num64) : numFinite (limitUnit v) = true ∧ numUnits (limitUnit v) ≤ unitScale := by
  rw [limitUnit]
  split
  · rw [num_zero_eq]
    exact ⟨numOf_zero_finite _, by rw [numOf_zero_units]; exact Nat.zero_le _⟩
  · rename_i hnan
    split
    · exact ⟨num_neg_one_facts.1, Nat.le_of_eq num_neg_one_units⟩
    · rename_i hlo
      split
      · exact ⟨num_one_facts.1, Nat.le_of_eq num_one_units⟩
      · rename_i hhi
        have h1 := (numFinite_iff _).1 num_one_facts.1
        have h2 := (numFinite_iff _).1 num_neg_one_facts.1
        have hlo' : ¬numInt v < numInt (num (-1)) := by simpa [numLt, hnan, h2.1] using hlo
        have hhi' : ¬numInt (num 1) < numInt v := by simpa [numLt, hnan, h1.1] using hhi
        have e1 : numInt (num 1) = unitScale := by rw [numInt, num_one_facts.2, num_one_units, if_neg Bool.false_ne_true]
        have e2 : numInt (num (-1)) = -(unitScale : Int) := by rw [numInt, num_neg_one_facts.2, num_neg_one_units, if_pos rfl]
        have hu : numUnits v ≤ unitScale := by
          have := numInt_natAbs v
          rw [e1] at hhi'
          rw [e2] at hlo'
          omega
        refine ⟨?_, hu⟩
        by_contra hfin
        have hmag : infPattern binary64 ≤ numMag v := by
          simpa [numFinite] using hfin
        have hmag' : ¬infPattern binary64 < numMag v := by simpa [numIsNaN] using hnan
        have hinf : numMag v = infPattern binary64 := by omega
        have hbig : unitScale < unitsOf binary64 (infPattern binary64) := by decide +kernel
        rw [numUnits, hinf] at hu
        omega

theorem sinN_bound (x : Num64) : numFinite (sinN x) = true ∧ numUnits (sinN x) ≤ unitScale := limitUnit_bound _

theorem cosN_bound (x : Num64) : numFinite (cosN x) = true ∧ numUnits (cosN x) ≤ unitScale := limitUnit_bound _

/-! ### The block's numeric type and conversions -/

@[simp] theorem toNum64_ofNum64 (v : Num64) : toNum64 (ofNum64 v) = v :=
  congrArg Num64.mk (BitVec.ofNat_toNat _ _ |>.trans (BitVec.setWidth_eq _))

theorem numType_binary64 {p : Params} (h : p.num = .binary64) : numType p = binary64Num := by rw [numType, h]

theorem hostFormat_binary32 {p : Params} (h : p.format = .binary32) : hostFormat p = binary32Format := by rw [hostFormat, h]

@[simp] theorem binary64Num_ofInt (k : Int) : binary64Num.ofInt k = ofNum64 (num k) := rfl
@[simp] theorem binary64Num_half : binary64Num.half = ofNum64 numHalf := rfl
@[simp] theorem binary64Num_clamp : binary64Num.clamp = ofNum64 numClamp := rfl
@[simp] theorem binary64Num_eps : binary64Num.eps = ofNum64 numEps := rfl
@[simp] theorem binary64Num_pi : binary64Num.pi = ofNum64 numPi := rfl
@[simp] theorem binary64Num_add (x y : NumVal) : binary64Num.add x y = ofNum64 (numAdd (toNum64 x) (toNum64 y)) := rfl
@[simp] theorem binary64Num_sub (x y : NumVal) : binary64Num.sub x y = ofNum64 (numSub (toNum64 x) (toNum64 y)) := rfl
@[simp] theorem binary64Num_mul (x y : NumVal) : binary64Num.mul x y = ofNum64 (numMul (toNum64 x) (toNum64 y)) := rfl
@[simp] theorem binary64Num_div (x y : NumVal) : binary64Num.div x y = ofNum64 (numDiv (toNum64 x) (toNum64 y)) := rfl
@[simp] theorem binary64Num_neg (x : NumVal) : binary64Num.neg x = ofNum64 (numNegate (toNum64 x)) := rfl
@[simp] theorem binary64Num_abs (x : NumVal) : binary64Num.abs x = ofNum64 (numAbs (toNum64 x)) := rfl
@[simp] theorem binary64Num_lt (x y : NumVal) : binary64Num.lt x y = numLt (toNum64 x) (toNum64 y) := rfl
@[simp] theorem binary64Num_gt (x y : NumVal) : binary64Num.gt x y = numLt (toNum64 y) (toNum64 x) := rfl
@[simp] theorem binary64Num_eq (x y : NumVal) : binary64Num.eq x y = numEq (toNum64 x) (toNum64 y) := rfl
@[simp] theorem binary64Num_sin (x : NumVal) : binary64Num.sin x = ofNum64 (sinN (toNum64 x)) := rfl
@[simp] theorem binary64Num_cos (x : NumVal) : binary64Num.cos x = ofNum64 (cosN (toNum64 x)) := rfl
@[simp] theorem binary64Num_isFinite (x : NumVal) : binary64Num.isFinite x = numFinite (toNum64 x) := rfl
@[simp] theorem binary32Format_decode (w : Word) : binary32Format.decode w = (decBinary32 w).map ofNum64 := rfl
@[simp] theorem binary32Format_encode (v : NumVal) : binary32Format.encode v = encBinary32 (toNum64 v) := rfl

/-- A finite binary32 magnitude has fewer than `2 ^ n` units for every `n` beyond 277. -/
theorem unitsOf_binary32_lt (m n : Nat) (hm : m < 255 * 2 ^ 23) (hn : 277 < n) : unitsOf binary32 m < 2 ^ n := by
  show (if m / 2 ^ 23 = 0 then m % 2 ^ 23 else (2 ^ 23 + m % 2 ^ 23) * 2 ^ (m / 2 ^ 23 - 1)) < _
  have hf : m % 2 ^ 23 < 2 ^ 23 := Nat.mod_lt _ (by decide)
  split
  · exact Nat.lt_of_lt_of_le hf (Nat.pow_le_pow_right (by decide) (by omega))
  · have he : m / 2 ^ 23 - 1 + 24 < n := by omega
    calc (2 ^ 23 + m % 2 ^ 23) * 2 ^ (m / 2 ^ 23 - 1)
        ≤ 2 ^ 24 * 2 ^ (m / 2 ^ 23 - 1) := Nat.mul_le_mul_right _ (by omega)
      _ = 2 ^ (m / 2 ^ 23 - 1 + 24) := by rw [← Nat.pow_add, Nat.add_comm]
      _ < 2 ^ n := Nat.pow_lt_pow_right (by decide) he

/-- The default dec32 gives finite values only. -/
theorem decBinary32_finite {w : Word} {v : Num64} (h : decBinary32 w = some v) : numFinite v = true := by
  simp only [decBinary32] at h
  split at h
  · rename_i hm
    obtain rfl := Option.some.inj h
    obtain ⟨n, hn⟩ : ∃ n, n = 278 := ⟨_, rfl⟩
    obtain ⟨k, hk⟩ : ∃ k, k = unitExp binary64 - unitExp binary32 := ⟨_, rfl⟩
    have hk' : k = 925 := hk.trans (by decide)
    rw [← hk]
    refine (numOf_round _ _ 1 (n + k) (by omega) (by omega) ?_).1
    rw [Nat.one_mul, Nat.pow_add]
    exact Nat.mul_lt_mul_of_pos_right (unitsOf_binary32_lt _ n hm (by omega)) (Nat.pow_pos (by decide))
  · cases h

/-- A value that dec32 gives is finite, whatever the block's Num and conversions. -/
theorem dec32_finite {p : Params} {w : Word} {v : NumVal} (h : dec32 p w = some v) : (numType p).isFinite v = true :=
  (Option.filter_eq_some_iff.1 h).2

/-- At the defaults dec32 is the conversion from binary32 to binary64. -/
theorem dec32_default {p : Params} (hn : p.num = .binary64) (hf : p.format = .binary32) (w : Word) :
    dec32 p w = (decBinary32 w).map ofNum64 := by
  rw [dec32, numType_binary64 hn, hostFormat_binary32 hf, binary32Format_decode]
  cases h : decBinary32 w with
  | none => rfl
  | some v => simp [Option.filter, decBinary32_finite h]

/-- At the defaults enc32 is the conversion from binary64 to binary32. -/
theorem enc32_default {p : Params} (hf : p.format = .binary32) (v : NumVal) : enc32 p v = encBinary32 (toNum64 v) := by
  rw [enc32, hostFormat_binary32 hf, binary32Format_encode]

end Sys2Proof.Machine
end

