-- ==== Sys2Proof/Laws/Binary64.lean ====
section
/-! SUPPORT. The default Num is a model of R13: its literals and PI are the nearest values, and every operation rounds the exact
real result by one rounding, which leaves a representable number as it is. -/

namespace Sys2Proof.Machine

/-! ### The order of magnitudes -/

/-- The next magnitude has more units. -/
theorem unitsOf_lt_succ (m : Nat) : unitsOf binary64 m < unitsOf binary64 (m + 1) := by
  show (if m / 2 ^ 52 = 0 then m % 2 ^ 52 else (2 ^ 52 + m % 2 ^ 52) * 2 ^ (m / 2 ^ 52 - 1)) <
    (if (m + 1) / 2 ^ 52 = 0 then (m + 1) % 2 ^ 52 else (2 ^ 52 + (m + 1) % 2 ^ 52) * 2 ^ ((m + 1) / 2 ^ 52 - 1))
  obtain ⟨hd, hm⟩ | ⟨hd, hm, hm'⟩ : ((m + 1) / 2 ^ 52 = m / 2 ^ 52 ∧ (m + 1) % 2 ^ 52 = m % 2 ^ 52 + 1) ∨
      ((m + 1) / 2 ^ 52 = m / 2 ^ 52 + 1 ∧ (m + 1) % 2 ^ 52 = 0 ∧ m % 2 ^ 52 = 2 ^ 52 - 1) := by omega
  · rw [hd, hm]
    split
    · exact Nat.lt_succ_self _
    · exact Nat.mul_lt_mul_of_pos_right (by omega) (Nat.pow_pos (by decide))
  · rw [hd, hm, hm', if_neg (Nat.succ_ne_zero _)]
    split
    · rename_i h0; rw [h0]; decide
    · rename_i h0
      obtain ⟨e, he⟩ := Nat.exists_eq_succ_of_ne_zero h0
      have hp : 0 < 2 ^ e := Nat.pow_pos (by decide)
      rw [he, Nat.succ_sub_one, Nat.add_sub_cancel, Nat.pow_succ]
      omega

theorem unitsOf_strictMono : StrictMono (unitsOf binary64) := strictMono_nat_of_lt_succ unitsOf_lt_succ

/-! ### Rounding -/

/-- Only the ratio that is rounded matters. -/
theorem roundUnits_scale (c n d : Nat) (hc : 0 < c) : roundUnits binary64 (c * n) (c * d) = roundUnits binary64 n d := by
  simp only [roundUnits, Nat.mul_div_mul_left _ _ hc, Nat.mul_assoc, Nat.mul_mod_mul_left]
  have h1 : ∀ a b : Nat, (c * a < 2 * (c * b)) = (a < 2 * b) := fun a b => by
    rw [Nat.mul_left_comm 2 c b, Nat.mul_lt_mul_left hc]
  have h2 : ∀ a b : Nat, (2 * (c * a) == c * b) = (2 * a == b) := fun a b => by
    rw [Nat.mul_left_comm 2 c a, Bool.eq_iff_iff, beq_iff_eq, beq_iff_eq, Nat.mul_right_inj (Nat.pos_iff_ne_zero.1 hc)]
  simp only [h1, h2]

/-- A magnitude of the format rounds to itself. -/
theorem roundUnits_unitsOf (m : Nat) (hm : m < infPattern binary64) : roundUnits binary64 (unitsOf binary64 m) 1 = m := by
  have hf : m % 2 ^ 52 < 2 ^ 52 := Nat.mod_lt _ (by decide)
  have hdm := Nat.div_add_mod m (2 ^ 52)
  obtain ⟨e, k, hu, hlog, hem⟩ : ∃ e k, unitsOf binary64 m = k * 2 ^ e ∧ Nat.log2 (k * 2 ^ e) - 52 = e ∧ e * 2 ^ 52 + k = m := by
    show ∃ e k, (if m / 2 ^ 52 = 0 then m % 2 ^ 52 else (2 ^ 52 + m % 2 ^ 52) * 2 ^ (m / 2 ^ 52 - 1)) = _ ∧ _
    split
    · rename_i h0
      refine ⟨0, m % 2 ^ 52, by simp, ?_, ?_⟩
      · rw [Nat.pow_zero, Nat.mul_one]
        by_cases hz : m % 2 ^ 52 = 0
        · rw [hz, Nat.log2_zero]
        · have := (Nat.log2_lt hz).2 hf; omega
      · rw [h0, Nat.mul_zero, Nat.zero_add] at hdm
        rw [Nat.zero_mul, Nat.zero_add, hdm]
    · rename_i h0
      refine ⟨m / 2 ^ 52 - 1, 2 ^ 52 + m % 2 ^ 52, rfl, ?_, by omega⟩
      have hlow : 2 ^ (52 + (m / 2 ^ 52 - 1)) ≤ (2 ^ 52 + m % 2 ^ 52) * 2 ^ (m / 2 ^ 52 - 1) := by
        rw [Nat.pow_add]; exact Nat.mul_le_mul_right _ (by omega)
      have hhigh : (2 ^ 52 + m % 2 ^ 52) * 2 ^ (m / 2 ^ 52 - 1) < 2 ^ (53 + (m / 2 ^ 52 - 1)) := by
        rw [Nat.pow_add]; exact Nat.mul_lt_mul_of_pos_right (by omega) (Nat.pow_pos (by decide))
      have hne : (2 ^ 52 + m % 2 ^ 52) * 2 ^ (m / 2 ^ 52 - 1) ≠ 0 :=
        Nat.pos_iff_ne_zero.1 (Nat.lt_of_lt_of_le (Nat.pow_pos (by decide)) hlow)
      have h1 := (Nat.le_log2 hne).2 hlow
      have h2 := (Nat.log2_lt hne).2 hhigh
      omega
  have hp : 0 < 2 ^ e := Nat.pow_pos (by decide)
  rw [hu, roundUnits, Nat.div_one, Nat.one_mul, show binary64.fracBits = 52 from rfl, hlog, Nat.mul_div_cancel _ hp,
    Nat.mul_mod_left]
  have hz : (0 == 2 ^ e) = false := by rw [beq_eq_false_iff_ne]; omega
  simp only [Nat.mul_zero, Nat.not_lt_zero, decide_false, hz, Bool.false_and, Bool.or_self, Bool.false_eq_true, if_false, hem]
  exact Nat.min_eq_left (Nat.le_of_lt hm)

/-! ### The real number that a value is -/

/-- The sign −1 or 1. -/
def signFactor (neg : Bool) : ℝ := if neg then -1 else 1

theorem signFactor_xor (a b : Bool) : signFactor (a != b) = signFactor a * signFactor b := by
  cases a <;> cases b <;> simp [signFactor]

/-- The units in 1, as a real number that no tactic computes. -/
@[irreducible] noncomputable def unitReal : ℝ := (unitScale : ℝ)

theorem unitScale_cast : (unitScale : ℝ) = unitReal := by rw [unitReal]

theorem unitReal_pos : 0 < unitReal := by rw [← unitScale_cast]; exact Nat.cast_pos.2 unitScale_pos

/-- The real number a finite binary64 value is. -/
noncomputable def value64 (x : Num64) : Option ℝ := if numFinite x = true then some ((numInt x : ℝ) / unitReal) else none

theorem numInt_sign (x : Num64) : (numInt x : ℝ) = signFactor (numNeg x) * numUnits x := by
  rw [numInt, signFactor]; cases numNeg x <;> simp

/-- A value with a number is finite, and what number it is. -/
theorem value64_eq {x : Num64} {a : ℝ} (h : value64 x = some a) :
    numFinite x = true ∧ a = signFactor (numNeg x) * numUnits x / unitReal := by
  rw [value64] at h
  split at h
  · exact ⟨‹_›, by rw [← numInt_sign]; exact (Option.some.inj h).symm⟩
  · cases h

theorem value64_numOf (neg : Bool) (mag : Nat) (h : mag < infPattern binary64) :
    value64 (numOf neg mag) = some (signFactor neg * unitsOf binary64 mag / unitReal) := by
  have h' : mag < 2 ^ 63 := by rw [infPattern64_eq] at h; omega
  rw [value64, if_pos (numFinite_numOf neg mag h), numInt_sign, numNeg_numOf neg mag h', numUnits_numOf neg mag h']

/-- The ratio `± n / d` of units is the number `q`. -/
def IsRatio (q : ℝ) (t : Bool × Nat × Nat) : Prop := 0 < t.2.2 ∧ q = signFactor t.1 * (t.2.1 / t.2.2) / unitReal

open Classical in
/-- The default Num's rounding of a ratio of units; +0 of any other real number, which no operation gives. -/
noncomputable def round64 (q : ℝ) : Num64 :=
  if h : ∃ t, IsRatio q t then numOf h.choose.1 (roundUnits binary64 h.choose.2.1 h.choose.2.2) else numOf false 0

/-- Two ratios that are one number round to one number. -/
theorem value64_round_unique {q : ℝ} {s t : Bool × Nat × Nat} (hs : IsRatio q s) (ht : IsRatio q t) :
    value64 (numOf s.1 (roundUnits binary64 s.2.1 s.2.2)) = value64 (numOf t.1 (roundUnits binary64 t.2.1 t.2.2)) := by
  obtain ⟨sb, n, d⟩ := s
  obtain ⟨tb, n', d'⟩ := t
  obtain ⟨hd, hq⟩ := hs
  obtain ⟨hd', hq'⟩ := ht
  simp only at hd hd' hq hq' ⊢
  have hS := unitReal_pos
  have hdr : (0 : ℝ) < d := Nat.cast_pos.2 hd
  have hdr' : (0 : ℝ) < d' := Nat.cast_pos.2 hd'
  have hcross : signFactor sb * (n * d') = signFactor tb * (n' * d) := by
    have h := hq.symm.trans hq'
    field_simp at h
    linarith
  have hzero : ∀ (b : Bool) (k : Nat), value64 (numOf b (roundUnits binary64 0 k)) = some 0 := fun b k => by
    rw [show roundUnits binary64 0 k = 0 by simp [roundUnits], value64_numOf b 0 (by decide),
      show unitsOf binary64 0 = 0 from rfl]
    simp
  have hmag : n * d' = n' * d := by
    have : (n : ℝ) * d' = n' * d := by
      have h1 : (0 : ℝ) ≤ n * d' := by positivity
      have h2 : (0 : ℝ) ≤ n' * d := by positivity
      cases sb <;> cases tb <;> simp only [signFactor, Bool.false_eq_true, if_false, if_true] at hcross <;> linarith
    exact_mod_cast this
  have hround : roundUnits binary64 n d = roundUnits binary64 n' d' := by
    rw [← roundUnits_scale d' n d hd', ← roundUnits_scale d n' d' hd, Nat.mul_comm d' n, hmag, Nat.mul_comm n' d,
      Nat.mul_comm d' d]
  by_cases hn : n = 0
  · have hn' : n' = 0 := by
      have : n' * d = 0 := by rw [← hmag, hn, Nat.zero_mul]
      exact (Nat.mul_eq_zero.1 this).resolve_right (Nat.pos_iff_ne_zero.1 hd)
    rw [hn, hn', hzero, hzero]
  · have hpos : (0 : ℝ) < n * d' := mul_pos (Nat.cast_pos.2 (Nat.pos_of_ne_zero hn)) hdr'
    have hmag' : (n : ℝ) * d' = n' * d := by exact_mod_cast hmag
    have hsign : sb = tb := by
      rw [← hmag'] at hcross
      cases sb <;> cases tb <;> simp only [signFactor, Bool.false_eq_true, if_false, if_true] at hcross <;>
        first | rfl | (exfalso; linarith)
    rw [hsign, hround]

/-- What a ratio rounds to. -/
theorem value64_round {q : ℝ} (neg : Bool) (n d : Nat) (hd : 0 < d) (hq : q = signFactor neg * (n / d) / unitReal) :
    value64 (numOf neg (roundUnits binary64 n d)) = value64 (round64 q) := by
  have h : ∃ t, IsRatio q t := ⟨(neg, n, d), hd, hq⟩
  rw [round64, dif_pos h]
  exact value64_round_unique (s := (neg, n, d)) ⟨hd, hq⟩ h.choose_spec

/-- A number of the format rounds to itself. -/
theorem value64_round_exact {x : Num64} {q : ℝ} (h : value64 x = some q) : value64 (round64 q) = some q := by
  obtain ⟨hf, hq⟩ := value64_eq h
  have hm : numMag x < infPattern binary64 := by simpa [numFinite] using hf
  rw [← value64_round (numNeg x) (numUnits x) 1 Nat.one_pos (by rw [hq, Nat.cast_one, div_one]), numUnits,
    roundUnits_unitsOf _ hm, numOf_sign_mag, h]

/-! ### The nearest value -/

/-- A value is nearest to `q` where `q` lies between the midpoints to its neighbours: `lo / d ≤ q ≤ hi / d`, and the midpoints
are outside. -/
theorem isNearest_of_midpoints {q : ℝ} (c lo hi d : Nat) (hc : c + 1 < infPattern binary64) (hd : 0 < d)
    (hlo : (lo : ℝ) / d ≤ q) (hhi : q ≤ (hi : ℝ) / d)
    (hl : d * (unitsOf binary64 c + unitsOf binary64 (c + 1)) ≤ 2 * lo * unitScale)
    (hh : 2 * hi * unitScale ≤ d * (unitsOf binary64 (c + 1) + unitsOf binary64 (c + 2))) :
    IsNearest (fun v => value64 (toNum64 v)) q (ofNum64 (numOf false (c + 1))) := by
  have hS := unitReal_pos
  have hdr : (0 : ℝ) < d := Nat.cast_pos.2 hd
  have hab : unitsOf binary64 c < unitsOf binary64 (c + 1) := unitsOf_lt_succ c
  have hbc : unitsOf binary64 (c + 1) < unitsOf binary64 (c + 2) := unitsOf_lt_succ (c + 1)
  have hneg : ∀ x : Num64, numInt x ≤ unitsOf binary64 c ∨ numInt x = unitsOf binary64 (c + 1) ∨
      (unitsOf binary64 (c + 2) : Int) ≤ numInt x := fun x => by
    rw [numInt]
    split
    · left; omega
    · rw [numUnits]
      obtain h | h | h : numMag x ≤ c ∨ numMag x = c + 1 ∨ c + 2 ≤ numMag x := by omega
      · exact .inl (Int.ofNat_le.2 (unitsOf_strictMono.monotone h))
      · exact .inr (.inl (by rw [h]))
      · exact .inr (.inr (Int.ofNat_le.2 (unitsOf_strictMono.monotone h)))
  generalize unitsOf binary64 c = A at *
  generalize hB : unitsOf binary64 (c + 1) = B at *
  generalize unitsOf binary64 (c + 2) = C at *
  refine ⟨(B : ℝ) / unitReal, ?_, ?_⟩
  · show value64 (toNum64 (ofNum64 _)) = _
    rw [toNum64_ofNum64, value64_numOf _ _ hc, hB, signFactor, if_neg Bool.false_ne_true, one_mul]
  · intro v b hb
    have hb' : b = (numInt (toNum64 v) : ℝ) / unitReal := by
      rw [numInt_sign]; exact (value64_eq hb).2
    have hl' : ((A : ℝ) + B) / 2 ≤ q * unitReal := by
      have h1 : (d : ℝ) * (A + B) ≤ 2 * lo * unitReal := by rw [← unitScale_cast]; exact_mod_cast hl
      have h2 : (lo : ℝ) ≤ q * d := (div_le_iff₀ hdr).1 hlo
      have h3 : (lo : ℝ) * unitReal ≤ q * d * unitReal := mul_le_mul_of_nonneg_right h2 hS.le
      have h4 : (d : ℝ) * (A + B) ≤ d * (2 * (q * unitReal)) := by linarith
      linarith [le_of_mul_le_mul_left h4 hdr]
    have hh' : q * unitReal ≤ ((B : ℝ) + C) / 2 := by
      have h1 : 2 * (hi : ℝ) * unitReal ≤ d * (B + C) := by rw [← unitScale_cast]; exact_mod_cast hh
      have h2 : q * d ≤ hi := (le_div_iff₀ hdr).1 hhi
      have h3 : q * d * unitReal ≤ hi * unitReal := mul_le_mul_of_nonneg_right h2 hS.le
      have h4 : (d : ℝ) * (2 * (q * unitReal)) ≤ d * (B + C) := by linarith
      linarith [le_of_mul_le_mul_left h4 hdr]
    have hAB : (A : ℝ) < B := by exact_mod_cast hab
    have hBC : (B : ℝ) < C := by exact_mod_cast hbc
    rw [hb', ← mul_le_mul_iff_left₀ hS, ← abs_of_pos hS, ← abs_mul, ← abs_mul, abs_of_pos hS, sub_mul, sub_mul,
      div_mul_cancel₀ _ hS.ne', div_mul_cancel₀ _ hS.ne']
    generalize q * unitReal = Q at hl' hh' ⊢
    obtain h | h | h := hneg (toNum64 v)
    · have hv : (numInt (toNum64 v) : ℝ) ≤ A := by exact_mod_cast h
      rw [abs_of_nonpos (by linarith : (numInt (toNum64 v) : ℝ) - Q ≤ 0), abs_le]
      constructor <;> linarith
    · have hv : (numInt (toNum64 v) : ℝ) = B := by exact_mod_cast h
      rw [hv]
    · have hv : (C : ℝ) ≤ numInt (toNum64 v) := by exact_mod_cast h
      rw [abs_of_nonneg (by linarith : (0 : ℝ) ≤ (numInt (toNum64 v) : ℝ) - Q), abs_le]
      constructor <;> linarith

theorem half_isNearest : IsNearest (fun v => value64 (toNum64 v)) (1 / 2) (ofNum64 numHalf) := by
  rw [show numHalf = numOf false (0x3FDFFFFFFFFFFFFF + 1) by decide +kernel]
  exact isNearest_of_midpoints _ 1 1 2 (by decide) (by decide) (by norm_num) (by norm_num) (by decide +kernel) (by decide +kernel)

theorem clamp_isNearest : IsNearest (fun v => value64 (toNum64 v)) (999 / 1000) (ofNum64 numClamp) := by
  rw [show numClamp = numOf false (0x3FEFF7CED916872A + 1) by decide +kernel]
  exact isNearest_of_midpoints _ 999 999 1000 (by decide) (by decide) (by norm_num) (by norm_num) (by decide +kernel)
    (by decide +kernel)

theorem eps_isNearest : IsNearest (fun v => value64 (toNum64 v)) (1 / 100000000) (ofNum64 numEps) := by
  rw [show numEps = numOf false (0x3E45798EE2308C39 + 1) by decide +kernel]
  exact isNearest_of_midpoints _ 1 1 100000000 (by decide) (by decide) (by norm_num) (by norm_num) (by decide +kernel)
    (by decide +kernel)

/-- The pattern of PI is the binary64 value nearest π. -/
theorem pi_isNearest : IsNearest (fun v => value64 (toNum64 v)) Real.pi (ofNum64 numPi) := by
  rw [show numPi = numOf false (0x400921FB54442D17 + 1) by decide +kernel]
  refine isNearest_of_midpoints _ 314159265358979323846 314159265358979323847 100000000000000000000 (by decide) (by decide) ?_ ?_
    (by decide +kernel) (by decide +kernel)
  · have := Real.pi_gt_d20; norm_num at this ⊢; linarith
  · have := Real.pi_lt_d20; norm_num at this ⊢; linarith

/-! ### The operations -/

/-- An operation whose exact result is representable rounds it to itself. -/
theorem value64_exact {z : Num64} {q : ℝ} (h : value64 z = some q) : value64 z = value64 (round64 q) :=
  h.trans (value64_round_exact h).symm

theorem num_value (k : Int) : value64 (num k) = value64 (round64 k) := by
  refine value64_round _ _ 1 Nat.one_pos ?_
  have hS := unitReal_pos.ne'
  have habs : (k : ℝ) = signFactor (decide (k < 0)) * k.natAbs := by
    rw [Nat.cast_natAbs, signFactor]
    by_cases h : k < 0
    · simp [h, abs_of_neg h]
    · simp [h, abs_of_nonneg (Int.not_lt.1 h)]
  rw [Nat.cast_mul, unitScale_cast, Nat.cast_one, div_one, ← mul_assoc, ← habs, mul_div_cancel_right₀ _ hS]

theorem numNegate_value {x : Num64} {a : ℝ} (hx : value64 x = some a) : value64 (numNegate x) = some (-a) := by
  obtain ⟨hf, ha⟩ := value64_eq hx
  have hm : numMag x < infPattern binary64 := by simpa [numFinite] using hf
  rw [numNegate, value64_numOf _ _ hm, ha, numUnits]
  cases numNeg x <;> simp [signFactor, neg_div]

theorem numAbs_value {x : Num64} {a : ℝ} (hx : value64 x = some a) : value64 (numAbs x) = some |a| := by
  obtain ⟨hf, ha⟩ := value64_eq hx
  have hm : numMag x < infPattern binary64 := by simpa [numFinite] using hf
  have h0 : (0 : ℝ) ≤ (numUnits x : ℝ) / unitReal := div_nonneg (Nat.cast_nonneg _) unitReal_pos.le
  rw [numAbs, value64_numOf _ _ hm, ha, ← numUnits, mul_div_assoc, mul_div_assoc, abs_mul, abs_of_nonneg h0]
  cases numNeg x <;> simp [signFactor]

theorem numAdd_value {x y : Num64} {a b : ℝ} (hx : value64 x = some a) (hy : value64 y = some b) :
    value64 (numAdd x y) = value64 (round64 (a + b)) := by
  obtain ⟨hfx, ha⟩ := value64_eq hx
  obtain ⟨hfy, hb⟩ := value64_eq hy
  obtain ⟨hxn, hxi⟩ := (numFinite_iff x).1 hfx
  obtain ⟨hyn, hyi⟩ := (numFinite_iff y).1 hfy
  have hsum : a + b = ((numInt x + numInt y : Int) : ℝ) / unitReal := by
    push_cast; rw [ha, hb, numInt_sign, numInt_sign, add_div]
  simp only [numAdd, hxn, hxi, hyn, hyi, Bool.or_self, Bool.false_eq_true, if_false]
  generalize numInt x + numInt y = k at hsum ⊢
  split
  · rename_i h0
    refine value64_exact ?_
    rw [value64_numOf _ 0 (by decide), hsum, h0, show unitsOf binary64 0 = 0 from rfl]
    simp
  · refine value64_round _ _ 1 Nat.one_pos ?_
    rw [hsum, Nat.cast_one, div_one, Nat.cast_natAbs, signFactor]
    by_cases h : k < 0
    · simp [h, abs_of_neg h]
    · simp [h, abs_of_nonneg (Int.not_lt.1 h)]

theorem numSub_value {x y : Num64} {a b : ℝ} (hx : value64 x = some a) (hy : value64 y = some b) :
    value64 (numSub x y) = value64 (round64 (a - b)) := by
  rw [numSub, sub_eq_add_neg]; exact numAdd_value hx (numNegate_value hy)

theorem numMul_value {x y : Num64} {a b : ℝ} (hx : value64 x = some a) (hy : value64 y = some b) :
    value64 (numMul x y) = value64 (round64 (a * b)) := by
  obtain ⟨hfx, ha⟩ := value64_eq hx
  obtain ⟨hfy, hb⟩ := value64_eq hy
  obtain ⟨hxn, hxi⟩ := (numFinite_iff x).1 hfx
  obtain ⟨hyn, hyi⟩ := (numFinite_iff y).1 hfy
  simp only [numMul, hxn, hxi, hyn, hyi, Bool.or_self, Bool.false_eq_true, if_false]
  refine value64_round _ _ unitScale unitScale_pos ?_
  rw [ha, hb, signFactor_xor, Nat.cast_mul, unitScale_cast]
  ring

theorem numDiv_value {x y : Num64} {a b : ℝ} (hx : value64 x = some a) (hy : value64 y = some b) (hb0 : b ≠ 0) :
    value64 (numDiv x y) = value64 (round64 (a / b)) := by
  obtain ⟨hfx, ha⟩ := value64_eq hx
  obtain ⟨hfy, hb⟩ := value64_eq hy
  obtain ⟨hxn, hxi⟩ := (numFinite_iff x).1 hfx
  obtain ⟨hyn, hyi⟩ := (numFinite_iff y).1 hfy
  have hy0 : numUnits y ≠ 0 := fun h => hb0 (by rw [hb, h]; simp)
  simp only [numDiv, hxn, hxi, hyn, hyi, Bool.or_self, Bool.false_eq_true, if_false, if_neg hy0]
  refine value64_round _ _ _ (Nat.pos_of_ne_zero hy0) ?_
  have hS := unitReal_pos.ne'
  have hyr : (numUnits y : ℝ) ≠ 0 := Nat.cast_ne_zero.2 hy0
  have hsign : signFactor (numNeg y) * signFactor (numNeg y) = 1 := by cases numNeg y <;> simp [signFactor]
  have hsne : signFactor (numNeg y) ≠ 0 := fun h => by simp [h] at hsign
  rw [ha, hb, signFactor_xor, Nat.cast_mul, unitScale_cast]
  field_simp
  linear_combination (-(signFactor (numNeg x) * numUnits x)) * hsign

theorem numLt_value {x y : Num64} {a b : ℝ} (hx : value64 x = some a) (hy : value64 y = some b) :
    numLt x y = true ↔ a < b := by
  obtain ⟨hfx, ha⟩ := value64_eq hx
  obtain ⟨hfy, hb⟩ := value64_eq hy
  rw [← numInt_sign] at ha hb
  rw [numLt, ((numFinite_iff x).1 hfx).1, ((numFinite_iff y).1 hfy).1, ha, hb, div_lt_div_iff_of_pos_right unitReal_pos]
  simp

theorem numEq_value {x y : Num64} {a b : ℝ} (hx : value64 x = some a) (hy : value64 y = some b) :
    numEq x y = true ↔ a = b := by
  obtain ⟨hfx, ha⟩ := value64_eq hx
  obtain ⟨hfy, hb⟩ := value64_eq hy
  rw [← numInt_sign] at ha hb
  rw [numEq, ((numFinite_iff x).1 hfx).1, ((numFinite_iff y).1 hfy).1, ha, hb, div_left_inj' unitReal_pos.ne']
  simp

/-! ### The model of R13 -/

theorem binary64Num_models : binary64Num.Models (fun v => value64 (toNum64 v)) (fun q => ofNum64 (round64 q)) where
  isFinite x := by simp [value64]; cases numFinite (toNum64 x) <;> simp
  round_exact x q h := by simpa using value64_round_exact h
  ofInt k := by simpa using num_value k
  half := half_isNearest
  clamp := clamp_isNearest
  eps := eps_isNearest
  pi := pi_isNearest
  add x y a b hx hy := by simpa using numAdd_value hx hy
  sub x y a b hx hy := by simpa using numSub_value hx hy
  mul x y a b hx hy := by simpa using numMul_value hx hy
  div x y a b hx hy hb := by simpa using numDiv_value hx hy hb
  neg x a hx := by simpa using value64_exact (numNegate_value hx)
  abs x a hx := by simpa using value64_exact (numAbs_value hx)
  lt x y a b hx hy := by simpa using numLt_value hx hy
  gt x y a b hx hy := by simpa using numLt_value hy hx
  eq x y a b hx hy := by simpa using numEq_value hx hy

/-- R8: the default Num is a model of R13. -/
theorem binary64Num_legal : binary64Num.Legal := ⟨_, _, binary64Num_models⟩

/-- R8: so is the Num of every block. -/
theorem numType_legal (p : Params) : (numType p).Legal := by
  rw [numType]
  split
  · exact binary64Num_legal
  · exact (Config.otherNum _).legal

end Sys2Proof.Machine
end

