-- ==== Sys2Proof/Laws/Memory.lean ====
section
/-! SUPPORT. The laws of the block memories: what a read returns after each update, and that every update keeps the canonical
form and the capacity. -/

namespace Sys2Proof.Machine

variable {α : Type}

@[simp] theorem memGet_nil (k : Nat) : memGet ([] : Mem α) k = none := rfl

theorem memGet_cons (j : Nat) (v : α) (m : Mem α) (k : Nat) :
    memGet ((j, v) :: m) k = if j = k then some v else memGet m k := rfl

/-- The empty memory is canonical, and every memory of `State.reset` is empty (R292). -/
theorem memWf_nil : Memory.wf ([] : Mem α) := List.Pairwise.nil

/-! ### One element -/

theorem memGet_memSet (m : Mem α) (k : Nat) (v : α) (i : Nat) :
    memGet (memSet m k v) i = if i = k then some v else memGet m i := by
  induction m with
  | nil => simp only [memSet, memGet_cons, memGet_nil]; split <;> split <;> first | rfl | omega
  | cons e m ih =>
    obtain ⟨j, u⟩ := e
    simp only [memSet]
    split
    · simp only [memGet_cons]; repeat' split
      all_goals first | rfl | omega
    · split
      · simp only [memGet_cons]; repeat' split
        all_goals first | rfl | omega
      · simp only [memGet_cons, ih]; repeat' split
        all_goals first | rfl | omega

theorem mem_memSet (m : Mem α) (k : Nat) (v : α) (e : Nat × α) (h : e ∈ memSet m k v) : e = (k, v) ∨ e ∈ m := by
  induction m with
  | nil => simpa [memSet] using h
  | cons d m ih =>
    obtain ⟨j, u⟩ := d
    simp only [memSet] at h
    split at h
    · simpa using h
    · split at h
      · rcases List.mem_cons.1 h with h | h
        · exact .inl h
        · exact .inr (List.mem_cons_of_mem _ h)
      · rcases List.mem_cons.1 h with h | h
        · exact .inr (h ▸ List.mem_cons_self)
        · exact (ih h).imp id (List.mem_cons_of_mem _)

theorem memWf_memSet (m : Mem α) (k : Nat) (v : α) (h : Memory.wf m) : Memory.wf (memSet m k v) := by
  induction m with
  | nil => simp [memSet]
  | cons d m ih =>
    obtain ⟨j, u⟩ := d
    have hj := (List.pairwise_cons.1 h).1
    have hm := (List.pairwise_cons.1 h).2
    simp only [memSet]
    split
    · rename_i hk
      refine List.pairwise_cons.2 ⟨fun e he => ?_, h⟩
      rcases List.mem_cons.1 he with rfl | he
      · exact hk
      · exact Nat.lt_trans hk (hj e he)
    · split
      · rename_i hk
        subst hk
        exact List.pairwise_cons.2 ⟨hj, hm⟩
      · refine List.pairwise_cons.2 ⟨fun e he => ?_, ih hm⟩
        rcases mem_memSet m k v e he with rfl | he
        · show j < k
          omega
        · exact hj e he

theorem memBelow_memSet (cap : Nat) (m : Mem α) (k : Nat) (v : α) (hk : k < cap) (h : memBelow cap m) :
    memBelow cap (memSet m k v) := by
  intro e he
  rcases mem_memSet m k v e he with rfl | he
  · exact hk
  · exact h e he

/-! ### A block from index 0 -/

theorem memGet_memIndexed (vs : List α) (k i : Nat) :
    memGet (memIndexed k vs) i = if k ≤ i then vs[i - k]? else none := by
  induction vs generalizing k with
  | nil => simp [memIndexed]
  | cons v vs ih =>
    simp only [memIndexed, memGet_cons, ih]
    by_cases h : k = i
    · subst h; simp
    · by_cases h' : k ≤ i
      · obtain ⟨d, rfl⟩ : ∃ d, i = k + 1 + d := ⟨i - (k + 1), by omega⟩
        rw [if_neg h, if_pos (by omega), if_pos (by omega), show k + 1 + d - k = d + 1 by omega,
          show k + 1 + d - (k + 1) = d by omega]
        rfl
      · rw [if_neg h, if_neg (by omega), if_neg h']

theorem mem_memIndexed (vs : List α) (k : Nat) (e : Nat × α) (h : e ∈ memIndexed k vs) :
    k ≤ e.1 ∧ e.1 < k + vs.length := by
  induction vs generalizing k with
  | nil => simp [memIndexed] at h
  | cons v vs ih =>
    rcases List.mem_cons.1 h with rfl | h
    · simp
    · have := ih (k + 1) h
      simp only [List.length_cons]; omega

theorem memWf_memIndexed (vs : List α) (k : Nat) : Memory.wf (memIndexed k vs) := by
  induction vs generalizing k with
  | nil => simp [memIndexed]
  | cons v vs ih =>
    refine List.pairwise_cons.2 ⟨fun e he => ?_, ih (k + 1)⟩
    have := mem_memIndexed vs (k + 1) e he
    show k < e.1
    omega

theorem memGet_append (m n : Mem α) (i : Nat) : memGet (m ++ n) i = (memGet m i).or (memGet n i) := by
  induction m with
  | nil => simp
  | cons e m ih =>
    obtain ⟨j, v⟩ := e
    simp only [List.cons_append, memGet_cons, ih]
    split <;> simp

theorem memGet_filter (m : Mem α) (n i : Nat) :
    memGet (m.filter fun e => decide (n ≤ e.1)) i = if n ≤ i then memGet m i else none := by
  induction m with
  | nil => simp
  | cons e m ih =>
    obtain ⟨j, v⟩ := e
    by_cases hj : n ≤ j
    · rw [List.filter_cons_of_pos (by simpa using hj), memGet_cons, memGet_cons, ih]
      repeat' split
      all_goals first | rfl | omega
    · rw [List.filter_cons_of_neg (by simpa using hj), memGet_cons, ih]
      repeat' split
      all_goals first | rfl | omega

/-- What a read returns after `MEM[0 .. len) <- vs`. -/
theorem memGet_memFill (m : Mem α) (vs : List α) (i : Nat) :
    memGet (memFill m vs) i = if i < vs.length then vs[i]? else memGet m i := by
  rw [memFill, memGet_append, memGet_memIndexed, memGet_filter]
  by_cases h : i < vs.length
  · simp [h]
  · simp [h, Nat.le_of_not_lt h]

theorem memWf_memFill (m : Mem α) (vs : List α) (h : Memory.wf m) : Memory.wf (memFill m vs) := by
  refine List.pairwise_append.2 ⟨memWf_memIndexed vs 0, h.filter _, fun e he d hd => ?_⟩
  have h1 := mem_memIndexed vs 0 e he
  have h2 := (List.mem_filter.1 hd).2
  simp only [decide_eq_true_eq] at h2
  omega

theorem memBelow_memFill (cap : Nat) (m : Mem α) (vs : List α) (hv : vs.length ≤ cap) (h : memBelow cap m) :
    memBelow cap (memFill m vs) := by
  intro e he
  rcases List.mem_append.1 he with he | he
  · have := mem_memIndexed vs 0 e he
    omega
  · exact h e (List.mem_filter.1 he).1

/-! ### Ranges -/

/-- A range that can be read: as many elements as it is long, each the memory's. -/
theorem memRange_ok (m : Mem α) (a n : Nat) (vs : List α) (h : memRange m a n = .ok vs) :
    vs.length = n ∧ ∀ i, i < n → memGet m (a + i) = vs[i]? := by
  induction n generalizing a vs with
  | zero => simp only [memRange, Except.ok.injEq] at h; subst h; simp
  | succ n ih =>
    simp only [memRange] at h
    split at h
    · cases h
    · rename_i v hv
      split at h
      · rename_i ws hw
        cases h
        obtain ⟨hl, hg⟩ := ih (a + 1) ws hw
        refine ⟨by simp [hl], fun i hi => ?_⟩
        cases i with
        | zero => simpa using hv
        | succ i =>
          rw [show a + (i + 1) = a + 1 + i by omega, hg i (by omega)]
          rfl
      · cases h

/-- A range that cannot be read: the index answered is in it and is ⊥. -/
theorem memRange_error (m : Mem α) (a n k : Nat) (h : memRange m a n = .error k) :
    a ≤ k ∧ k < a + n ∧ memGet m k = none := by
  induction n generalizing a with
  | zero => cases h
  | succ n ih =>
    simp only [memRange] at h
    split at h
    · rename_i hv
      cases h
      exact ⟨Nat.le_refl _, by omega, hv⟩
    · split at h
      · cases h
      · rename_i k' hk
        cases h
        have := ih (a + 1) hk
        exact ⟨by omega, by omega, this.2.2⟩

/-- A range of defined elements can be read. -/
theorem memRange_of_isSome (m : Mem α) (a n : Nat) (h : ∀ i, i < n → (memGet m (a + i)).isSome = true) :
    ∃ vs, memRange m a n = .ok vs := by
  cases hr : memRange m a n with
  | ok vs => exact ⟨vs, rfl⟩
  | error k =>
    obtain ⟨h1, h2, h3⟩ := memRange_error m a n k hr
    have := h (k - a) (by omega)
    rw [show a + (k - a) = k by omega, h3] at this
    cases this

/-- A range determined by its elements. -/
theorem memRange_eq_ok (m : Mem α) (a : Nat) (vs : List α) (h : ∀ i, i < vs.length → memGet m (a + i) = vs[i]?) :
    memRange m a vs.length = .ok vs := by
  obtain ⟨ws, hw⟩ := memRange_of_isSome m a vs.length fun i hi => by rw [h i hi]; simp [hi]
  rw [hw]
  obtain ⟨hl, hg⟩ := memRange_ok m a _ ws hw
  refine congrArg _ (List.ext_getElem? fun i => ?_)
  by_cases hi : i < vs.length
  · rw [← hg i hi, h i hi]
  · rw [List.getElem?_eq_none (by omega), List.getElem?_eq_none (by omega)]

/-! ### Packed words -/

theorem memGet_packedFold (cap k : Nat) (w : Word) (js : List Nat) (m : Mem Bool) (i : Nat) :
    memGet (js.foldl (fun m j => if 32 * k + j < cap then memSet m (32 * k + j) (w.getMsbD j) else m) m) i =
      if 32 * k ≤ i ∧ i - 32 * k ∈ js ∧ i < cap then some (w.getMsbD (i - 32 * k)) else memGet m i := by
  induction js generalizing m with
  | nil => simp
  | cons j js ih =>
    rw [List.foldl_cons, ih]
    by_cases hc : 32 * k + j < cap
    · rw [if_pos hc, memGet_memSet]
      by_cases hij : i = 32 * k + j
      · subst hij
        have hsub : 32 * k + j - 32 * k = j := by omega
        simp [hc, hsub]
      · have : 32 * k ≤ i → i - 32 * k ≠ j := by omega
        rw [if_neg hij]
        refine if_congr ?_ rfl rfl
        constructor
        · rintro ⟨h1, h2, h3⟩; exact ⟨h1, List.mem_cons_of_mem _ h2, h3⟩
        · rintro ⟨h1, h2, h3⟩; exact ⟨h1, (List.mem_cons.1 h2).resolve_left (this h1), h3⟩
    · rw [if_neg hc]
      refine if_congr ?_ rfl rfl
      constructor
      · rintro ⟨h1, h2, h3⟩; exact ⟨h1, List.mem_cons_of_mem _ h2, h3⟩
      · rintro ⟨h1, h2, h3⟩
        rcases List.mem_cons.1 h2 with h2 | h2
        · omega
        · exact ⟨h1, h2, h3⟩

/-- What a read returns after a host write of packed word `k`: the word's elements below the capacity change, no other. -/
theorem memGet_packedWrite (m : Mem Bool) (cap k : Nat) (w : Word) (i : Nat) :
    memGet (packedWrite m cap k w) i =
      if i / 32 = k ∧ i < cap then some (w.getMsbD (i % 32)) else memGet m i := by
  rw [packedWrite, memGet_packedFold]
  have : (32 * k ≤ i ∧ i - 32 * k ∈ List.range 32 ∧ i < cap) ↔ (i / 32 = k ∧ i < cap) := by
    rw [List.mem_range]; omega
  by_cases h : i / 32 = k ∧ i < cap
  · rw [if_pos (this.2 h), if_pos h, show i - 32 * k = i % 32 by omega]
  · rw [if_neg (mt this.1 h), if_neg h]

theorem packedWrite_induct (p : Mem Bool → Prop) (m : Mem Bool) (cap k : Nat) (w : Word) (h0 : p m)
    (hs : ∀ m i b, i < cap → p m → p (memSet m i b)) : p (packedWrite m cap k w) := by
  rw [packedWrite]
  generalize List.range 32 = js
  induction js generalizing m with
  | nil => exact h0
  | cons j js ih =>
    rw [List.foldl_cons]
    split
    · exact ih _ (hs _ _ _ (by assumption) h0)
    · exact ih _ h0

theorem memWf_packedWrite (m : Mem Bool) (cap k : Nat) (w : Word) (h : Memory.wf m) : Memory.wf (packedWrite m cap k w) :=
  packedWrite_induct Memory.wf m cap k w h fun m i b _ hm => memWf_memSet m i b hm

theorem memBelow_packedWrite (m : Mem Bool) (cap k : Nat) (w : Word) (h : memBelow cap m) :
    memBelow cap (packedWrite m cap k w) :=
  packedWrite_induct (memBelow cap) m cap k w h fun m i b hi hm => memBelow_memSet cap m i b hi hm

end Sys2Proof.Machine
end

