-- ==== Sys2Proof/Laws/Ops.lean ====
section
/-! SUPPORT. What the shared operations can do, said once: operand ranges, the error path, and the packing of bits and bytes in
words. -/

namespace Sys2Proof.Machine

/-! ### Operand ranges and outcomes -/

theorem readOperand_ok {α : Type} {cmd : Mnemonic} {name : MemName} {m : Mem α} {a n : Nat} {vs : List α}
    (h : readOperand cmd name m a n = .ok vs) : vs.length = n ∧ ∀ i, i < n → memGet m (a + i) = vs[i]? := by
  rw [readOperand] at h
  split at h
  · rename_i ws hw
    cases h
    exact memRange_ok m a n vs hw
  · cases h

theorem readOperand_error {α : Type} {cmd : Mnemonic} {name : MemName} {m : Mem α} {a n : Nat} {f : Fault}
    (h : readOperand cmd name m a n = .error f) :
    ∃ k, f = .undefRead cmd name k ∧ a ≤ k ∧ k < a + n ∧ memGet m k = none := by
  rw [readOperand] at h
  split at h
  · cases h
  · rename_i k hk
    cases h
    exact ⟨k, rfl, memRange_error m a n k hk⟩

theorem readOperand_of_isSome {α : Type} (cmd : Mnemonic) (name : MemName) (m : Mem α) (a n : Nat)
    (h : ∀ i, i < n → (memGet m (a + i)).isSome = true) : ∃ vs, readOperand cmd name m a n = .ok vs := by
  obtain ⟨vs, hv⟩ := memRange_of_isSome m a n h
  exact ⟨vs, by rw [readOperand, hv]⟩

theorem readOperand_eq_ok {α : Type} (cmd : Mnemonic) (name : MemName) (m : Mem α) (a : Nat) (vs : List α)
    (h : ∀ i, i < vs.length → memGet m (a + i) = vs[i]?) : readOperand cmd name m a vs.length = .ok vs := by
  rw [readOperand, memRange_eq_ok m a vs h]

@[simp] theorem withValue_ok {α : Type} (v : α) (k : α → Result) : withValue (.ok v) k = k v := rfl

@[simp] theorem withValue_error {α : Type} (f : Fault) (k : α → Result) :
    withValue (.error f : Except Fault α) k = .fault f := rfl

/-- A next state after `withValue` comes from its continuation. -/
theorem withValue_next {α : Type} {r : Except Fault α} {k : α → Result} {t : State} (h : withValue r k = .next t) :
    ∃ v, r = .ok v ∧ k v = .next t := by
  cases r with
  | error f => cases h
  | ok v => exact ⟨v, rfl, h⟩

/-- A fault of `withValue` is the operand's or its continuation's. -/
theorem withValue_fault {α : Type} {r : Except Fault α} {k : α → Result} {f : Fault}
    (h : withValue r k = .fault f) : r = .error f ∨ ∃ v, r = .ok v ∧ k v = .fault f := by
  cases r with
  | error g => cases h; exact .inl rfl
  | ok v => exact .inr ⟨v, rfl, h⟩

theorem succeed_next {s t : State} (h : succeed s = .next t) : t = complete .ok s := by
  cases h; rfl

theorem raiseError_next {code : ErrCode} {s t : State} (h : raiseError code s = .next t) : t = complete code s := by
  cases h; rfl

@[simp] theorem complete_complete (c d : ErrCode) (s : State) : complete c (complete d s) = complete c s := rfl

theorem isBusy_iff (s : State) : isBusy s = true ↔ ∃ w left, s.eng = .busy w left := by
  rw [isBusy]
  cases s.eng with
  | idle => simp
  | busy w left => simp

/-! ### All values or none -/

theorem allSome_some {α : Type} {os : List (Option α)} {vs : List α} (h : allSome os = some vs) :
    os = vs.map some := by
  induction os generalizing vs with
  | nil => cases h; rfl
  | cons o os ih =>
    cases o with
    | none => cases h
    | some v =>
      simp only [allSome] at h
      split at h
      · cases h
      · rename_i r hr
        cases h
        rw [ih hr]; rfl

@[simp] theorem allSome_map_some {α : Type} (vs : List α) : allSome (vs.map some) = some vs := by
  induction vs with
  | nil => rfl
  | cons v vs ih => simp [allSome, ih]

theorem allSome_none {α : Type} {os : List (Option α)} : allSome os = none ↔ none ∈ os := by
  induction os with
  | nil => simp [allSome]
  | cons o os ih =>
    cases o with
    | none => simp [allSome]
    | some v =>
      simp only [allSome]
      cases hr : allSome os with
      | none => simpa using ih.1 hr
      | some r => simpa [hr] using ih

/-! ### Bits of a word -/

theorem bitsToNat_lt (bs : List Bool) : bitsToNat bs < 2 ^ bs.length := by
  rw [bitsToNat]
  suffices h : ∀ n m, n < 2 ^ m → bs.foldl (fun n b => 2 * n + b.toNat) n < 2 ^ (m + bs.length) by
    simpa using h 0 0 (by simp)
  induction bs with
  | nil => intro n m h; simpa using h
  | cons b bs ih =>
    intro n m h
    rw [List.foldl_cons, List.length_cons, show m + (bs.length + 1) = m + 1 + bs.length by omega]
    refine ih _ _ ?_
    have := Bool.toNat_le b
    rw [Nat.pow_succ]; omega

theorem bitsToNat_append (bs : List Bool) (b : Bool) : bitsToNat (bs ++ [b]) = 2 * bitsToNat bs + b.toNat := by
  simp [bitsToNat]

/-- The digits of `bitsToNat`, the last element the least significant. -/
theorem testBit_bitsToNat (bs : List Bool) (i : Nat) :
    (bitsToNat bs).testBit i = if i < bs.length then (bs[bs.length - 1 - i]?).getD false else false := by
  induction bs using List.reverseRecOn generalizing i with
  | nil => simp [bitsToNat]
  | append_singleton bs b ih =>
    rw [bitsToNat_append]
    cases i with
    | zero =>
      have : (2 * bitsToNat bs + b.toNat).testBit 0 = b := by
        rw [Nat.testBit_zero]; cases b <;> simp
      simp [this]
    | succ i =>
      rw [Nat.testBit_succ]
      have hb := Bool.toNat_le b
      rw [show (2 * bitsToNat bs + b.toNat) / 2 = bitsToNat bs by omega, ih i]
      simp only [List.length_append, List.length_singleton]
      by_cases h : i < bs.length
      · rw [if_pos h, if_pos (by omega), show bs.length + 1 - 1 - (i + 1) = bs.length - 1 - i by omega,
          List.getElem?_append_left (by omega)]
      · rw [if_neg h, if_neg (by omega)]

theorem getMsbD_ofNat_bitsToNat (bs : List Bool) (h : bs.length = 32) (j : Nat) (hj : j < 32) :
    (BitVec.ofNat 32 (bitsToNat bs)).getMsbD j = (bs[j]?).getD false := by
  rw [BitVec.getMsbD_eq_getLsbD, BitVec.getLsbD_ofNat, testBit_bitsToNat, h]
  simp [hj, show 32 - 1 - j < 32 by omega, show 32 - 1 - (32 - 1 - j) = j by omega]

/-- Bit `j` of a packed word is element `j` (R79). -/
theorem packWord_getMsbD (f : Nat → Bool) (j : Nat) (hj : j < 32) : (packWord f).getMsbD j = f j := by
  rw [packWord, getMsbD_ofNat_bitsToNat _ (by simp) j hj]
  simp [hj]

/-- A word is the packing of its bits. -/
theorem packWord_bits (w : Word) : packWord w.getMsbD = w := by
  refine BitVec.eq_of_getMsbD_eq fun i hi => ?_
  exact packWord_getMsbD _ i hi

@[simp] theorem bitsMSB_length {n : Nat} (v : BitVec n) : (bitsMSB v).length = n := by simp [bitsMSB]

theorem bitsMSB_getElem? {n : Nat} (v : BitVec n) (j : Nat) (h : j < n) : (bitsMSB v)[j]? = some (v.getMsbD j) := by
  simp [bitsMSB, h]

/-- A host read of a packed word whose elements are all defined (R79). -/
theorem packedRead_some {α : Type} {toBit : α → Bool} {m : Mem α} {cap k : Nat} {w : Word}
    (h : packedRead toBit m cap k = some w) (j : Nat) (hj : j < 32) :
    if 32 * k + j < cap then (memGet m (32 * k + j)).map toBit = some (w.getMsbD j) else w.getMsbD j = false := by
  rw [packedRead] at h
  split at h
  · cases h
  · rename_i bs hbs
    cases h
    have hmap := allSome_some hbs
    have hlen : bs.length = 32 := by simpa using (congrArg List.length hmap).symm
    rw [getMsbD_ofNat_bitsToNat bs hlen j hj]
    have hj' := congrArg (fun l => l[j]?) hmap
    simp only [List.getElem?_map, List.getElem?_range hj, Option.map_some] at hj'
    have hb : bs[j]? = some bs[j] := List.getElem?_eq_getElem (by omega)
    rw [hb] at hj' ⊢
    simp only [Option.map_some, Option.some.injEq] at hj'
    simp only [Option.getD_some]
    by_cases hc : 32 * k + j < cap
    · rw [if_pos hc] at hj' ⊢; exact hj'
    · rw [if_neg hc] at hj' ⊢; simpa using hj'.symm

/-- A host read of a packed word is unspecified exactly where an element below the capacity is ⊥ (R70(a)). -/
theorem packedRead_none {α : Type} {toBit : α → Bool} {m : Mem α} {cap k : Nat} :
    packedRead toBit m cap k = none ↔ ∃ j, j < 32 ∧ 32 * k + j < cap ∧ memGet m (32 * k + j) = none := by
  have key : packedRead toBit m cap k = none ↔
      none ∈ (List.range 32).map fun j =>
        if 32 * k + j < cap then (memGet m (32 * k + j)).map toBit else some false := by
    rw [packedRead, ← allSome_none]
    split
    · simp_all
    · simp_all
  rw [key, List.mem_map]
  constructor
  · rintro ⟨j, hj, h⟩
    rw [List.mem_range] at hj
    split at h
    · rename_i hc
      exact ⟨j, hj, hc, Option.map_eq_none_iff.1 h⟩
    · cases h
  · rintro ⟨j, hj, hc, h⟩
    exact ⟨j, List.mem_range.2 hj, by rw [if_pos hc, h]; rfl⟩

/-! ### Bytes of a word -/

theorem setWordOfBytes_getElem {n : Nat} (v : Vector Byte n) (k : Nat) (w : Word) (j : Nat) (h : j < n) :
    (setWordOfBytes v k w)[j] = if j / 4 = k then byteOfWord w (j % 4) else v[j] := by
  simp [setWordOfBytes]

end Sys2Proof.Machine
end

