-- ==== Sys2Proof/Laws/State.lean ====
section
/-! SUPPORT. One lemma per field per update of the state, each true by rfl, so that no proof unfolds a record update. -/

namespace Sys2Proof.Machine

/-! ### `complete` -/

@[simp] theorem complete_params (code : ErrCode) (s : State) : (complete code s).params = s.params := rfl
@[simp] theorem complete_ctrl (code : ErrCode) (s : State) : (complete code s).ctrl = s.ctrl := rfl
@[simp] theorem complete_done (code : ErrCode) (s : State) : (complete code s).done = true := rfl
@[simp] theorem complete_tapsValid (code : ErrCode) (s : State) : (complete code s).tapsValid = s.tapsValid := rfl
@[simp] theorem complete_err (code : ErrCode) (s : State) : (complete code s).err = code := rfl
@[simp] theorem complete_accErr (code : ErrCode) (s : State) : (complete code s).accErr = s.accErr := rfl
@[simp] theorem complete_wBusy (code : ErrCode) (s : State) : (complete code s).wBusy = s.wBusy := rfl
@[simp] theorem complete_lastCmd (code : ErrCode) (s : State) : (complete code s).lastCmd = s.lastCmd := rfl
@[simp] theorem complete_result (code : ErrCode) (s : State) : (complete code s).result = s.result := rfl
@[simp] theorem complete_pi (code : ErrCode) (s : State) : (complete code s).pi = s.pi := rfl
@[simp] theorem complete_fs (code : ErrCode) (s : State) : (complete code s).fs = s.fs := rfl
@[simp] theorem complete_pilotLevel (code : ErrCode) (s : State) : (complete code s).pilotLevel = s.pilotLevel := rfl
@[simp] theorem complete_rdsLevel (code : ErrCode) (s : State) : (complete code s).rdsLevel = s.rdsLevel := rfl
@[simp] theorem complete_rds2Level (code : ErrCode) (s : State) : (complete code s).rds2Level = s.rds2Level := rfl
@[simp] theorem complete_nsamp (code : ErrCode) (s : State) : (complete code s).nsamp = s.nsamp := rfl
@[simp] theorem complete_bitLen (code : ErrCode) (s : State) : (complete code s).bitLen = s.bitLen := rfl
@[simp] theorem complete_logoLen (code : ErrCode) (s : State) : (complete code s).logoLen = s.logoLen := rfl
@[simp] theorem complete_sps (code : ErrCode) (s : State) : (complete code s).sps = s.sps := rfl
@[simp] theorem complete_ntaps (code : ErrCode) (s : State) : (complete code s).ntaps = s.ntaps := rfl
@[simp] theorem complete_cyc (code : ErrCode) (s : State) : (complete code s).cyc = s.cyc := rfl
@[simp] theorem complete_rtIdx (code : ErrCode) (s : State) : (complete code s).rtIdx = s.rtIdx := rfl
@[simp] theorem complete_logoCur (code : ErrCode) (s : State) : (complete code s).logoCur = s.logoCur := rfl
@[simp] theorem complete_glen (code : ErrCode) (s : State) : (complete code s).glen = s.glen := rfl
@[simp] theorem complete_gtype (code : ErrCode) (s : State) : (complete code s).gtype = s.gtype := rfl
@[simp] theorem complete_gbuf (code : ErrCode) (s : State) : (complete code s).gbuf = s.gbuf := rfl
@[simp] theorem complete_symLen (code : ErrCode) (s : State) : (complete code s).symLen = s.symLen := rfl
@[simp] theorem complete_bbLen (code : ErrCode) (s : State) : (complete code s).bbLen = s.bbLen := rfl
@[simp] theorem complete_subLen (code : ErrCode) (s : State) : (complete code s).subLen = s.subLen := rfl
@[simp] theorem complete_ps (code : ErrCode) (s : State) : (complete code s).ps = s.ps := rfl
@[simp] theorem complete_rt (code : ErrCode) (s : State) : (complete code s).rt = s.rt := rfl
@[simp] theorem complete_txt (code : ErrCode) (s : State) : (complete code s).txt = s.txt := rfl
@[simp] theorem complete_lMem (code : ErrCode) (s : State) : (complete code s).lMem = s.lMem := rfl
@[simp] theorem complete_rMem (code : ErrCode) (s : State) : (complete code s).rMem = s.rMem := rfl
@[simp] theorem complete_outMem (code : ErrCode) (s : State) : (complete code s).outMem = s.outMem := rfl
@[simp] theorem complete_bbMem (code : ErrCode) (s : State) : (complete code s).bbMem = s.bbMem := rfl
@[simp] theorem complete_subMem (code : ErrCode) (s : State) : (complete code s).subMem = s.subMem := rfl
@[simp] theorem complete_tapMem (code : ErrCode) (s : State) : (complete code s).tapMem = s.tapMem := rfl
@[simp] theorem complete_bitMem (code : ErrCode) (s : State) : (complete code s).bitMem = s.bitMem := rfl
@[simp] theorem complete_symMem (code : ErrCode) (s : State) : (complete code s).symMem = s.symMem := rfl
@[simp] theorem complete_logoMem (code : ErrCode) (s : State) : (complete code s).logoMem = s.logoMem := rfl
@[simp] theorem complete_eng (code : ErrCode) (s : State) : (complete code s).eng = .idle := rfl
@[simp] theorem complete_turns (code : ErrCode) (s : State) : (complete code s).turns = s.turns := rfl
@[simp] theorem complete_replies (code : ErrCode) (s : State) : (complete code s).replies = s.replies := rfl
@[simp] theorem complete_draws (code : ErrCode) (s : State) : (complete code s).draws = s.draws := rfl

/-! ### `acceptWith` -/

@[simp] theorem acceptWith_params (w : Word) (left : Nat) (s : State) : (acceptWith w left s).params = s.params := rfl
@[simp] theorem acceptWith_ctrl (w : Word) (left : Nat) (s : State) : (acceptWith w left s).ctrl = s.ctrl := rfl
@[simp] theorem acceptWith_done (w : Word) (left : Nat) (s : State) : (acceptWith w left s).done = false := rfl
@[simp] theorem acceptWith_tapsValid (w : Word) (left : Nat) (s : State) : (acceptWith w left s).tapsValid = s.tapsValid := rfl
@[simp] theorem acceptWith_err (w : Word) (left : Nat) (s : State) : (acceptWith w left s).err = .ok := rfl
@[simp] theorem acceptWith_accErr (w : Word) (left : Nat) (s : State) : (acceptWith w left s).accErr = s.accErr := rfl
@[simp] theorem acceptWith_wBusy (w : Word) (left : Nat) (s : State) : (acceptWith w left s).wBusy = s.wBusy := rfl
@[simp] theorem acceptWith_lastCmd (w : Word) (left : Nat) (s : State) : (acceptWith w left s).lastCmd = w := rfl
@[simp] theorem acceptWith_result (w : Word) (left : Nat) (s : State) : (acceptWith w left s).result = s.result := rfl
@[simp] theorem acceptWith_pi (w : Word) (left : Nat) (s : State) : (acceptWith w left s).pi = s.pi := rfl
@[simp] theorem acceptWith_fs (w : Word) (left : Nat) (s : State) : (acceptWith w left s).fs = s.fs := rfl
@[simp] theorem acceptWith_pilotLevel (w : Word) (left : Nat) (s : State) : (acceptWith w left s).pilotLevel = s.pilotLevel := rfl
@[simp] theorem acceptWith_rdsLevel (w : Word) (left : Nat) (s : State) : (acceptWith w left s).rdsLevel = s.rdsLevel := rfl
@[simp] theorem acceptWith_rds2Level (w : Word) (left : Nat) (s : State) : (acceptWith w left s).rds2Level = s.rds2Level := rfl
@[simp] theorem acceptWith_nsamp (w : Word) (left : Nat) (s : State) : (acceptWith w left s).nsamp = s.nsamp := rfl
@[simp] theorem acceptWith_bitLen (w : Word) (left : Nat) (s : State) : (acceptWith w left s).bitLen = s.bitLen := rfl
@[simp] theorem acceptWith_logoLen (w : Word) (left : Nat) (s : State) : (acceptWith w left s).logoLen = s.logoLen := rfl
@[simp] theorem acceptWith_sps (w : Word) (left : Nat) (s : State) : (acceptWith w left s).sps = s.sps := rfl
@[simp] theorem acceptWith_ntaps (w : Word) (left : Nat) (s : State) : (acceptWith w left s).ntaps = s.ntaps := rfl
@[simp] theorem acceptWith_cyc (w : Word) (left : Nat) (s : State) : (acceptWith w left s).cyc = s.cyc := rfl
@[simp] theorem acceptWith_rtIdx (w : Word) (left : Nat) (s : State) : (acceptWith w left s).rtIdx = s.rtIdx := rfl
@[simp] theorem acceptWith_logoCur (w : Word) (left : Nat) (s : State) : (acceptWith w left s).logoCur = s.logoCur := rfl
@[simp] theorem acceptWith_glen (w : Word) (left : Nat) (s : State) : (acceptWith w left s).glen = s.glen := rfl
@[simp] theorem acceptWith_gtype (w : Word) (left : Nat) (s : State) : (acceptWith w left s).gtype = s.gtype := rfl
@[simp] theorem acceptWith_gbuf (w : Word) (left : Nat) (s : State) : (acceptWith w left s).gbuf = s.gbuf := rfl
@[simp] theorem acceptWith_symLen (w : Word) (left : Nat) (s : State) : (acceptWith w left s).symLen = s.symLen := rfl
@[simp] theorem acceptWith_bbLen (w : Word) (left : Nat) (s : State) : (acceptWith w left s).bbLen = s.bbLen := rfl
@[simp] theorem acceptWith_subLen (w : Word) (left : Nat) (s : State) : (acceptWith w left s).subLen = s.subLen := rfl
@[simp] theorem acceptWith_ps (w : Word) (left : Nat) (s : State) : (acceptWith w left s).ps = s.ps := rfl
@[simp] theorem acceptWith_rt (w : Word) (left : Nat) (s : State) : (acceptWith w left s).rt = s.rt := rfl
@[simp] theorem acceptWith_txt (w : Word) (left : Nat) (s : State) : (acceptWith w left s).txt = s.txt := rfl
@[simp] theorem acceptWith_lMem (w : Word) (left : Nat) (s : State) : (acceptWith w left s).lMem = s.lMem := rfl
@[simp] theorem acceptWith_rMem (w : Word) (left : Nat) (s : State) : (acceptWith w left s).rMem = s.rMem := rfl
@[simp] theorem acceptWith_outMem (w : Word) (left : Nat) (s : State) : (acceptWith w left s).outMem = s.outMem := rfl
@[simp] theorem acceptWith_bbMem (w : Word) (left : Nat) (s : State) : (acceptWith w left s).bbMem = s.bbMem := rfl
@[simp] theorem acceptWith_subMem (w : Word) (left : Nat) (s : State) : (acceptWith w left s).subMem = s.subMem := rfl
@[simp] theorem acceptWith_tapMem (w : Word) (left : Nat) (s : State) : (acceptWith w left s).tapMem = s.tapMem := rfl
@[simp] theorem acceptWith_bitMem (w : Word) (left : Nat) (s : State) : (acceptWith w left s).bitMem = s.bitMem := rfl
@[simp] theorem acceptWith_symMem (w : Word) (left : Nat) (s : State) : (acceptWith w left s).symMem = s.symMem := rfl
@[simp] theorem acceptWith_logoMem (w : Word) (left : Nat) (s : State) : (acceptWith w left s).logoMem = s.logoMem := rfl
@[simp] theorem acceptWith_eng (w : Word) (left : Nat) (s : State) : (acceptWith w left s).eng = .busy w left := rfl
@[simp] theorem acceptWith_turns (w : Word) (left : Nat) (s : State) : (acceptWith w left s).turns = s.turns := rfl
@[simp] theorem acceptWith_replies (w : Word) (left : Nat) (s : State) : (acceptWith w left s).replies = s.replies := rfl
@[simp] theorem acceptWith_draws (w : Word) (left : Nat) (s : State) : (acceptWith w left s).draws = s.draws := rfl

/-! ### `acceptCommand` -/

@[simp] theorem acceptCommand_params (w : Word) (s : State) : (acceptCommand w s).params = s.params := rfl
@[simp] theorem acceptCommand_ctrl (w : Word) (s : State) : (acceptCommand w s).ctrl = s.ctrl := rfl
@[simp] theorem acceptCommand_done (w : Word) (s : State) : (acceptCommand w s).done = false := rfl
@[simp] theorem acceptCommand_tapsValid (w : Word) (s : State) : (acceptCommand w s).tapsValid = s.tapsValid := rfl
@[simp] theorem acceptCommand_err (w : Word) (s : State) : (acceptCommand w s).err = .ok := rfl
@[simp] theorem acceptCommand_accErr (w : Word) (s : State) : (acceptCommand w s).accErr = s.accErr := rfl
@[simp] theorem acceptCommand_wBusy (w : Word) (s : State) : (acceptCommand w s).wBusy = s.wBusy := rfl
@[simp] theorem acceptCommand_lastCmd (w : Word) (s : State) : (acceptCommand w s).lastCmd = w := rfl
@[simp] theorem acceptCommand_result (w : Word) (s : State) : (acceptCommand w s).result = s.result := rfl
@[simp] theorem acceptCommand_pi (w : Word) (s : State) : (acceptCommand w s).pi = s.pi := rfl
@[simp] theorem acceptCommand_fs (w : Word) (s : State) : (acceptCommand w s).fs = s.fs := rfl
@[simp] theorem acceptCommand_pilotLevel (w : Word) (s : State) : (acceptCommand w s).pilotLevel = s.pilotLevel := rfl
@[simp] theorem acceptCommand_rdsLevel (w : Word) (s : State) : (acceptCommand w s).rdsLevel = s.rdsLevel := rfl
@[simp] theorem acceptCommand_rds2Level (w : Word) (s : State) : (acceptCommand w s).rds2Level = s.rds2Level := rfl
@[simp] theorem acceptCommand_nsamp (w : Word) (s : State) : (acceptCommand w s).nsamp = s.nsamp := rfl
@[simp] theorem acceptCommand_bitLen (w : Word) (s : State) : (acceptCommand w s).bitLen = s.bitLen := rfl
@[simp] theorem acceptCommand_logoLen (w : Word) (s : State) : (acceptCommand w s).logoLen = s.logoLen := rfl
@[simp] theorem acceptCommand_sps (w : Word) (s : State) : (acceptCommand w s).sps = s.sps := rfl
@[simp] theorem acceptCommand_ntaps (w : Word) (s : State) : (acceptCommand w s).ntaps = s.ntaps := rfl
@[simp] theorem acceptCommand_cyc (w : Word) (s : State) : (acceptCommand w s).cyc = s.cyc := rfl
@[simp] theorem acceptCommand_rtIdx (w : Word) (s : State) : (acceptCommand w s).rtIdx = s.rtIdx := rfl
@[simp] theorem acceptCommand_logoCur (w : Word) (s : State) : (acceptCommand w s).logoCur = s.logoCur := rfl
@[simp] theorem acceptCommand_glen (w : Word) (s : State) : (acceptCommand w s).glen = s.glen := rfl
@[simp] theorem acceptCommand_gtype (w : Word) (s : State) : (acceptCommand w s).gtype = s.gtype := rfl
@[simp] theorem acceptCommand_gbuf (w : Word) (s : State) : (acceptCommand w s).gbuf = s.gbuf := rfl
@[simp] theorem acceptCommand_symLen (w : Word) (s : State) : (acceptCommand w s).symLen = s.symLen := rfl
@[simp] theorem acceptCommand_bbLen (w : Word) (s : State) : (acceptCommand w s).bbLen = s.bbLen := rfl
@[simp] theorem acceptCommand_subLen (w : Word) (s : State) : (acceptCommand w s).subLen = s.subLen := rfl
@[simp] theorem acceptCommand_ps (w : Word) (s : State) : (acceptCommand w s).ps = s.ps := rfl
@[simp] theorem acceptCommand_rt (w : Word) (s : State) : (acceptCommand w s).rt = s.rt := rfl
@[simp] theorem acceptCommand_txt (w : Word) (s : State) : (acceptCommand w s).txt = s.txt := rfl
@[simp] theorem acceptCommand_lMem (w : Word) (s : State) : (acceptCommand w s).lMem = s.lMem := rfl
@[simp] theorem acceptCommand_rMem (w : Word) (s : State) : (acceptCommand w s).rMem = s.rMem := rfl
@[simp] theorem acceptCommand_outMem (w : Word) (s : State) : (acceptCommand w s).outMem = s.outMem := rfl
@[simp] theorem acceptCommand_bbMem (w : Word) (s : State) : (acceptCommand w s).bbMem = s.bbMem := rfl
@[simp] theorem acceptCommand_subMem (w : Word) (s : State) : (acceptCommand w s).subMem = s.subMem := rfl
@[simp] theorem acceptCommand_tapMem (w : Word) (s : State) : (acceptCommand w s).tapMem = s.tapMem := rfl
@[simp] theorem acceptCommand_bitMem (w : Word) (s : State) : (acceptCommand w s).bitMem = s.bitMem := rfl
@[simp] theorem acceptCommand_symMem (w : Word) (s : State) : (acceptCommand w s).symMem = s.symMem := rfl
@[simp] theorem acceptCommand_logoMem (w : Word) (s : State) : (acceptCommand w s).logoMem = s.logoMem := rfl
@[simp] theorem acceptCommand_eng (w : Word) (s : State) : (acceptCommand w s).eng = .busy w (Config.latency s.draws) := rfl
@[simp] theorem acceptCommand_turns (w : Word) (s : State) : (acceptCommand w s).turns = s.turns := rfl
@[simp] theorem acceptCommand_replies (w : Word) (s : State) : (acceptCommand w s).replies = s.replies := rfl
@[simp] theorem acceptCommand_draws (w : Word) (s : State) : (acceptCommand w s).draws = s.draws + 1 := rfl

/-! ### `writeG` -/

@[simp] theorem writeG_params (g : List Bool) (type : GType) (s : State) : (writeG g type s).params = s.params := rfl
@[simp] theorem writeG_ctrl (g : List Bool) (type : GType) (s : State) : (writeG g type s).ctrl = s.ctrl := rfl
@[simp] theorem writeG_done (g : List Bool) (type : GType) (s : State) : (writeG g type s).done = s.done := rfl
@[simp] theorem writeG_tapsValid (g : List Bool) (type : GType) (s : State) : (writeG g type s).tapsValid = s.tapsValid := rfl
@[simp] theorem writeG_err (g : List Bool) (type : GType) (s : State) : (writeG g type s).err = s.err := rfl
@[simp] theorem writeG_accErr (g : List Bool) (type : GType) (s : State) : (writeG g type s).accErr = s.accErr := rfl
@[simp] theorem writeG_wBusy (g : List Bool) (type : GType) (s : State) : (writeG g type s).wBusy = s.wBusy := rfl
@[simp] theorem writeG_lastCmd (g : List Bool) (type : GType) (s : State) : (writeG g type s).lastCmd = s.lastCmd := rfl
@[simp] theorem writeG_result (g : List Bool) (type : GType) (s : State) : (writeG g type s).result = s.result := rfl
@[simp] theorem writeG_pi (g : List Bool) (type : GType) (s : State) : (writeG g type s).pi = s.pi := rfl
@[simp] theorem writeG_fs (g : List Bool) (type : GType) (s : State) : (writeG g type s).fs = s.fs := rfl
@[simp] theorem writeG_pilotLevel (g : List Bool) (type : GType) (s : State) : (writeG g type s).pilotLevel = s.pilotLevel := rfl
@[simp] theorem writeG_rdsLevel (g : List Bool) (type : GType) (s : State) : (writeG g type s).rdsLevel = s.rdsLevel := rfl
@[simp] theorem writeG_rds2Level (g : List Bool) (type : GType) (s : State) : (writeG g type s).rds2Level = s.rds2Level := rfl
@[simp] theorem writeG_nsamp (g : List Bool) (type : GType) (s : State) : (writeG g type s).nsamp = s.nsamp := rfl
@[simp] theorem writeG_bitLen (g : List Bool) (type : GType) (s : State) : (writeG g type s).bitLen = s.bitLen := rfl
@[simp] theorem writeG_logoLen (g : List Bool) (type : GType) (s : State) : (writeG g type s).logoLen = s.logoLen := rfl
@[simp] theorem writeG_sps (g : List Bool) (type : GType) (s : State) : (writeG g type s).sps = s.sps := rfl
@[simp] theorem writeG_ntaps (g : List Bool) (type : GType) (s : State) : (writeG g type s).ntaps = s.ntaps := rfl
@[simp] theorem writeG_cyc (g : List Bool) (type : GType) (s : State) : (writeG g type s).cyc = s.cyc := rfl
@[simp] theorem writeG_rtIdx (g : List Bool) (type : GType) (s : State) : (writeG g type s).rtIdx = s.rtIdx := rfl
@[simp] theorem writeG_logoCur (g : List Bool) (type : GType) (s : State) : (writeG g type s).logoCur = s.logoCur := rfl
@[simp] theorem writeG_glen (g : List Bool) (type : GType) (s : State) : (writeG g type s).glen = g.length := rfl
@[simp] theorem writeG_gtype (g : List Bool) (type : GType) (s : State) : (writeG g type s).gtype = type := rfl
@[simp] theorem writeG_gbuf (g : List Bool) (type : GType) (s : State) : (writeG g type s).gbuf = Vector.ofFn fun k => packWord fun j => (g[32 * k.val + j]?).getD false := rfl
@[simp] theorem writeG_symLen (g : List Bool) (type : GType) (s : State) : (writeG g type s).symLen = s.symLen := rfl
@[simp] theorem writeG_bbLen (g : List Bool) (type : GType) (s : State) : (writeG g type s).bbLen = s.bbLen := rfl
@[simp] theorem writeG_subLen (g : List Bool) (type : GType) (s : State) : (writeG g type s).subLen = s.subLen := rfl
@[simp] theorem writeG_ps (g : List Bool) (type : GType) (s : State) : (writeG g type s).ps = s.ps := rfl
@[simp] theorem writeG_rt (g : List Bool) (type : GType) (s : State) : (writeG g type s).rt = s.rt := rfl
@[simp] theorem writeG_txt (g : List Bool) (type : GType) (s : State) : (writeG g type s).txt = s.txt := rfl
@[simp] theorem writeG_lMem (g : List Bool) (type : GType) (s : State) : (writeG g type s).lMem = s.lMem := rfl
@[simp] theorem writeG_rMem (g : List Bool) (type : GType) (s : State) : (writeG g type s).rMem = s.rMem := rfl
@[simp] theorem writeG_outMem (g : List Bool) (type : GType) (s : State) : (writeG g type s).outMem = s.outMem := rfl
@[simp] theorem writeG_bbMem (g : List Bool) (type : GType) (s : State) : (writeG g type s).bbMem = s.bbMem := rfl
@[simp] theorem writeG_subMem (g : List Bool) (type : GType) (s : State) : (writeG g type s).subMem = s.subMem := rfl
@[simp] theorem writeG_tapMem (g : List Bool) (type : GType) (s : State) : (writeG g type s).tapMem = s.tapMem := rfl
@[simp] theorem writeG_bitMem (g : List Bool) (type : GType) (s : State) : (writeG g type s).bitMem = s.bitMem := rfl
@[simp] theorem writeG_symMem (g : List Bool) (type : GType) (s : State) : (writeG g type s).symMem = s.symMem := rfl
@[simp] theorem writeG_logoMem (g : List Bool) (type : GType) (s : State) : (writeG g type s).logoMem = s.logoMem := rfl
@[simp] theorem writeG_eng (g : List Bool) (type : GType) (s : State) : (writeG g type s).eng = s.eng := rfl
@[simp] theorem writeG_turns (g : List Bool) (type : GType) (s : State) : (writeG g type s).turns = s.turns := rfl
@[simp] theorem writeG_replies (g : List Bool) (type : GType) (s : State) : (writeG g type s).replies = s.replies := rfl
@[simp] theorem writeG_draws (g : List Bool) (type : GType) (s : State) : (writeG g type s).draws = s.draws := rfl

/-! ### `advanceCyc` -/

@[simp] theorem advanceCyc_params (s : State) : (advanceCyc s).params = s.params := rfl
@[simp] theorem advanceCyc_ctrl (s : State) : (advanceCyc s).ctrl = s.ctrl := rfl
@[simp] theorem advanceCyc_done (s : State) : (advanceCyc s).done = s.done := rfl
@[simp] theorem advanceCyc_tapsValid (s : State) : (advanceCyc s).tapsValid = s.tapsValid := rfl
@[simp] theorem advanceCyc_err (s : State) : (advanceCyc s).err = s.err := rfl
@[simp] theorem advanceCyc_accErr (s : State) : (advanceCyc s).accErr = s.accErr := rfl
@[simp] theorem advanceCyc_wBusy (s : State) : (advanceCyc s).wBusy = s.wBusy := rfl
@[simp] theorem advanceCyc_lastCmd (s : State) : (advanceCyc s).lastCmd = s.lastCmd := rfl
@[simp] theorem advanceCyc_result (s : State) : (advanceCyc s).result = s.result := rfl
@[simp] theorem advanceCyc_pi (s : State) : (advanceCyc s).pi = s.pi := rfl
@[simp] theorem advanceCyc_fs (s : State) : (advanceCyc s).fs = s.fs := rfl
@[simp] theorem advanceCyc_pilotLevel (s : State) : (advanceCyc s).pilotLevel = s.pilotLevel := rfl
@[simp] theorem advanceCyc_rdsLevel (s : State) : (advanceCyc s).rdsLevel = s.rdsLevel := rfl
@[simp] theorem advanceCyc_rds2Level (s : State) : (advanceCyc s).rds2Level = s.rds2Level := rfl
@[simp] theorem advanceCyc_nsamp (s : State) : (advanceCyc s).nsamp = s.nsamp := rfl
@[simp] theorem advanceCyc_bitLen (s : State) : (advanceCyc s).bitLen = s.bitLen := rfl
@[simp] theorem advanceCyc_logoLen (s : State) : (advanceCyc s).logoLen = s.logoLen := rfl
@[simp] theorem advanceCyc_sps (s : State) : (advanceCyc s).sps = s.sps := rfl
@[simp] theorem advanceCyc_ntaps (s : State) : (advanceCyc s).ntaps = s.ntaps := rfl
@[simp] theorem advanceCyc_cyc (s : State) : (advanceCyc s).cyc = ⟨(s.cyc.val + 1) % 60, Nat.mod_lt _ (by omega)⟩ := rfl
@[simp] theorem advanceCyc_rtIdx (s : State) : (advanceCyc s).rtIdx = s.rtIdx := rfl
@[simp] theorem advanceCyc_logoCur (s : State) : (advanceCyc s).logoCur = s.logoCur := rfl
@[simp] theorem advanceCyc_glen (s : State) : (advanceCyc s).glen = s.glen := rfl
@[simp] theorem advanceCyc_gtype (s : State) : (advanceCyc s).gtype = s.gtype := rfl
@[simp] theorem advanceCyc_gbuf (s : State) : (advanceCyc s).gbuf = s.gbuf := rfl
@[simp] theorem advanceCyc_symLen (s : State) : (advanceCyc s).symLen = s.symLen := rfl
@[simp] theorem advanceCyc_bbLen (s : State) : (advanceCyc s).bbLen = s.bbLen := rfl
@[simp] theorem advanceCyc_subLen (s : State) : (advanceCyc s).subLen = s.subLen := rfl
@[simp] theorem advanceCyc_ps (s : State) : (advanceCyc s).ps = s.ps := rfl
@[simp] theorem advanceCyc_rt (s : State) : (advanceCyc s).rt = s.rt := rfl
@[simp] theorem advanceCyc_txt (s : State) : (advanceCyc s).txt = s.txt := rfl
@[simp] theorem advanceCyc_lMem (s : State) : (advanceCyc s).lMem = s.lMem := rfl
@[simp] theorem advanceCyc_rMem (s : State) : (advanceCyc s).rMem = s.rMem := rfl
@[simp] theorem advanceCyc_outMem (s : State) : (advanceCyc s).outMem = s.outMem := rfl
@[simp] theorem advanceCyc_bbMem (s : State) : (advanceCyc s).bbMem = s.bbMem := rfl
@[simp] theorem advanceCyc_subMem (s : State) : (advanceCyc s).subMem = s.subMem := rfl
@[simp] theorem advanceCyc_tapMem (s : State) : (advanceCyc s).tapMem = s.tapMem := rfl
@[simp] theorem advanceCyc_bitMem (s : State) : (advanceCyc s).bitMem = s.bitMem := rfl
@[simp] theorem advanceCyc_symMem (s : State) : (advanceCyc s).symMem = s.symMem := rfl
@[simp] theorem advanceCyc_logoMem (s : State) : (advanceCyc s).logoMem = s.logoMem := rfl
@[simp] theorem advanceCyc_eng (s : State) : (advanceCyc s).eng = s.eng := rfl
@[simp] theorem advanceCyc_turns (s : State) : (advanceCyc s).turns = s.turns := rfl
@[simp] theorem advanceCyc_replies (s : State) : (advanceCyc s).replies = s.replies := rfl
@[simp] theorem advanceCyc_draws (s : State) : (advanceCyc s).draws = s.draws := rfl

/-! ### `advanceRt` -/

@[simp] theorem advanceRt_params (s : State) : (advanceRt s).params = s.params := rfl
@[simp] theorem advanceRt_ctrl (s : State) : (advanceRt s).ctrl = s.ctrl := rfl
@[simp] theorem advanceRt_done (s : State) : (advanceRt s).done = s.done := rfl
@[simp] theorem advanceRt_tapsValid (s : State) : (advanceRt s).tapsValid = s.tapsValid := rfl
@[simp] theorem advanceRt_err (s : State) : (advanceRt s).err = s.err := rfl
@[simp] theorem advanceRt_accErr (s : State) : (advanceRt s).accErr = s.accErr := rfl
@[simp] theorem advanceRt_wBusy (s : State) : (advanceRt s).wBusy = s.wBusy := rfl
@[simp] theorem advanceRt_lastCmd (s : State) : (advanceRt s).lastCmd = s.lastCmd := rfl
@[simp] theorem advanceRt_result (s : State) : (advanceRt s).result = s.result := rfl
@[simp] theorem advanceRt_pi (s : State) : (advanceRt s).pi = s.pi := rfl
@[simp] theorem advanceRt_fs (s : State) : (advanceRt s).fs = s.fs := rfl
@[simp] theorem advanceRt_pilotLevel (s : State) : (advanceRt s).pilotLevel = s.pilotLevel := rfl
@[simp] theorem advanceRt_rdsLevel (s : State) : (advanceRt s).rdsLevel = s.rdsLevel := rfl
@[simp] theorem advanceRt_rds2Level (s : State) : (advanceRt s).rds2Level = s.rds2Level := rfl
@[simp] theorem advanceRt_nsamp (s : State) : (advanceRt s).nsamp = s.nsamp := rfl
@[simp] theorem advanceRt_bitLen (s : State) : (advanceRt s).bitLen = s.bitLen := rfl
@[simp] theorem advanceRt_logoLen (s : State) : (advanceRt s).logoLen = s.logoLen := rfl
@[simp] theorem advanceRt_sps (s : State) : (advanceRt s).sps = s.sps := rfl
@[simp] theorem advanceRt_ntaps (s : State) : (advanceRt s).ntaps = s.ntaps := rfl
@[simp] theorem advanceRt_cyc (s : State) : (advanceRt s).cyc = s.cyc := rfl
@[simp] theorem advanceRt_rtIdx (s : State) : (advanceRt s).rtIdx = ⟨(s.rtIdx.val + 1) % 16, Nat.mod_lt _ (by omega)⟩ := rfl
@[simp] theorem advanceRt_logoCur (s : State) : (advanceRt s).logoCur = s.logoCur := rfl
@[simp] theorem advanceRt_glen (s : State) : (advanceRt s).glen = s.glen := rfl
@[simp] theorem advanceRt_gtype (s : State) : (advanceRt s).gtype = s.gtype := rfl
@[simp] theorem advanceRt_gbuf (s : State) : (advanceRt s).gbuf = s.gbuf := rfl
@[simp] theorem advanceRt_symLen (s : State) : (advanceRt s).symLen = s.symLen := rfl
@[simp] theorem advanceRt_bbLen (s : State) : (advanceRt s).bbLen = s.bbLen := rfl
@[simp] theorem advanceRt_subLen (s : State) : (advanceRt s).subLen = s.subLen := rfl
@[simp] theorem advanceRt_ps (s : State) : (advanceRt s).ps = s.ps := rfl
@[simp] theorem advanceRt_rt (s : State) : (advanceRt s).rt = s.rt := rfl
@[simp] theorem advanceRt_txt (s : State) : (advanceRt s).txt = s.txt := rfl
@[simp] theorem advanceRt_lMem (s : State) : (advanceRt s).lMem = s.lMem := rfl
@[simp] theorem advanceRt_rMem (s : State) : (advanceRt s).rMem = s.rMem := rfl
@[simp] theorem advanceRt_outMem (s : State) : (advanceRt s).outMem = s.outMem := rfl
@[simp] theorem advanceRt_bbMem (s : State) : (advanceRt s).bbMem = s.bbMem := rfl
@[simp] theorem advanceRt_subMem (s : State) : (advanceRt s).subMem = s.subMem := rfl
@[simp] theorem advanceRt_tapMem (s : State) : (advanceRt s).tapMem = s.tapMem := rfl
@[simp] theorem advanceRt_bitMem (s : State) : (advanceRt s).bitMem = s.bitMem := rfl
@[simp] theorem advanceRt_symMem (s : State) : (advanceRt s).symMem = s.symMem := rfl
@[simp] theorem advanceRt_logoMem (s : State) : (advanceRt s).logoMem = s.logoMem := rfl
@[simp] theorem advanceRt_eng (s : State) : (advanceRt s).eng = s.eng := rfl
@[simp] theorem advanceRt_turns (s : State) : (advanceRt s).turns = s.turns := rfl
@[simp] theorem advanceRt_replies (s : State) : (advanceRt s).replies = s.replies := rfl
@[simp] theorem advanceRt_draws (s : State) : (advanceRt s).draws = s.draws := rfl

/-! ### `clearStatus` -/

@[simp] theorem clearStatus_params (v : Word) (s : State) : (clearStatus v s).params = s.params := rfl
@[simp] theorem clearStatus_ctrl (v : Word) (s : State) : (clearStatus v s).ctrl = s.ctrl := rfl
@[simp] theorem clearStatus_done (v : Word) (s : State) : (clearStatus v s).done = (s.done && !v.getLsbD 1) := rfl
@[simp] theorem clearStatus_tapsValid (v : Word) (s : State) : (clearStatus v s).tapsValid = s.tapsValid := rfl
@[simp] theorem clearStatus_err (v : Word) (s : State) : (clearStatus v s).err = s.err := rfl
@[simp] theorem clearStatus_accErr (v : Word) (s : State) : (clearStatus v s).accErr = (s.accErr && !v.getLsbD 8) := rfl
@[simp] theorem clearStatus_wBusy (v : Word) (s : State) : (clearStatus v s).wBusy = (s.wBusy && !v.getLsbD 9) := rfl
@[simp] theorem clearStatus_lastCmd (v : Word) (s : State) : (clearStatus v s).lastCmd = s.lastCmd := rfl
@[simp] theorem clearStatus_result (v : Word) (s : State) : (clearStatus v s).result = s.result := rfl
@[simp] theorem clearStatus_pi (v : Word) (s : State) : (clearStatus v s).pi = s.pi := rfl
@[simp] theorem clearStatus_fs (v : Word) (s : State) : (clearStatus v s).fs = s.fs := rfl
@[simp] theorem clearStatus_pilotLevel (v : Word) (s : State) : (clearStatus v s).pilotLevel = s.pilotLevel := rfl
@[simp] theorem clearStatus_rdsLevel (v : Word) (s : State) : (clearStatus v s).rdsLevel = s.rdsLevel := rfl
@[simp] theorem clearStatus_rds2Level (v : Word) (s : State) : (clearStatus v s).rds2Level = s.rds2Level := rfl
@[simp] theorem clearStatus_nsamp (v : Word) (s : State) : (clearStatus v s).nsamp = s.nsamp := rfl
@[simp] theorem clearStatus_bitLen (v : Word) (s : State) : (clearStatus v s).bitLen = s.bitLen := rfl
@[simp] theorem clearStatus_logoLen (v : Word) (s : State) : (clearStatus v s).logoLen = s.logoLen := rfl
@[simp] theorem clearStatus_sps (v : Word) (s : State) : (clearStatus v s).sps = s.sps := rfl
@[simp] theorem clearStatus_ntaps (v : Word) (s : State) : (clearStatus v s).ntaps = s.ntaps := rfl
@[simp] theorem clearStatus_cyc (v : Word) (s : State) : (clearStatus v s).cyc = s.cyc := rfl
@[simp] theorem clearStatus_rtIdx (v : Word) (s : State) : (clearStatus v s).rtIdx = s.rtIdx := rfl
@[simp] theorem clearStatus_logoCur (v : Word) (s : State) : (clearStatus v s).logoCur = s.logoCur := rfl
@[simp] theorem clearStatus_glen (v : Word) (s : State) : (clearStatus v s).glen = s.glen := rfl
@[simp] theorem clearStatus_gtype (v : Word) (s : State) : (clearStatus v s).gtype = s.gtype := rfl
@[simp] theorem clearStatus_gbuf (v : Word) (s : State) : (clearStatus v s).gbuf = s.gbuf := rfl
@[simp] theorem clearStatus_symLen (v : Word) (s : State) : (clearStatus v s).symLen = s.symLen := rfl
@[simp] theorem clearStatus_bbLen (v : Word) (s : State) : (clearStatus v s).bbLen = s.bbLen := rfl
@[simp] theorem clearStatus_subLen (v : Word) (s : State) : (clearStatus v s).subLen = s.subLen := rfl
@[simp] theorem clearStatus_ps (v : Word) (s : State) : (clearStatus v s).ps = s.ps := rfl
@[simp] theorem clearStatus_rt (v : Word) (s : State) : (clearStatus v s).rt = s.rt := rfl
@[simp] theorem clearStatus_txt (v : Word) (s : State) : (clearStatus v s).txt = s.txt := rfl
@[simp] theorem clearStatus_lMem (v : Word) (s : State) : (clearStatus v s).lMem = s.lMem := rfl
@[simp] theorem clearStatus_rMem (v : Word) (s : State) : (clearStatus v s).rMem = s.rMem := rfl
@[simp] theorem clearStatus_outMem (v : Word) (s : State) : (clearStatus v s).outMem = s.outMem := rfl
@[simp] theorem clearStatus_bbMem (v : Word) (s : State) : (clearStatus v s).bbMem = s.bbMem := rfl
@[simp] theorem clearStatus_subMem (v : Word) (s : State) : (clearStatus v s).subMem = s.subMem := rfl
@[simp] theorem clearStatus_tapMem (v : Word) (s : State) : (clearStatus v s).tapMem = s.tapMem := rfl
@[simp] theorem clearStatus_bitMem (v : Word) (s : State) : (clearStatus v s).bitMem = s.bitMem := rfl
@[simp] theorem clearStatus_symMem (v : Word) (s : State) : (clearStatus v s).symMem = s.symMem := rfl
@[simp] theorem clearStatus_logoMem (v : Word) (s : State) : (clearStatus v s).logoMem = s.logoMem := rfl
@[simp] theorem clearStatus_eng (v : Word) (s : State) : (clearStatus v s).eng = s.eng := rfl
@[simp] theorem clearStatus_turns (v : Word) (s : State) : (clearStatus v s).turns = s.turns := rfl
@[simp] theorem clearStatus_replies (v : Word) (s : State) : (clearStatus v s).replies = s.replies := rfl
@[simp] theorem clearStatus_draws (v : Word) (s : State) : (clearStatus v s).draws = s.draws := rfl

/-! ### `reject` -/

@[simp] theorem reject_params (s : State) : (reject s).params = s.params := rfl
@[simp] theorem reject_ctrl (s : State) : (reject s).ctrl = s.ctrl := rfl
@[simp] theorem reject_done (s : State) : (reject s).done = s.done := rfl
@[simp] theorem reject_tapsValid (s : State) : (reject s).tapsValid = s.tapsValid := rfl
@[simp] theorem reject_err (s : State) : (reject s).err = s.err := rfl
@[simp] theorem reject_accErr (s : State) : (reject s).accErr = true := rfl
@[simp] theorem reject_wBusy (s : State) : (reject s).wBusy = s.wBusy := rfl
@[simp] theorem reject_lastCmd (s : State) : (reject s).lastCmd = s.lastCmd := rfl
@[simp] theorem reject_result (s : State) : (reject s).result = s.result := rfl
@[simp] theorem reject_pi (s : State) : (reject s).pi = s.pi := rfl
@[simp] theorem reject_fs (s : State) : (reject s).fs = s.fs := rfl
@[simp] theorem reject_pilotLevel (s : State) : (reject s).pilotLevel = s.pilotLevel := rfl
@[simp] theorem reject_rdsLevel (s : State) : (reject s).rdsLevel = s.rdsLevel := rfl
@[simp] theorem reject_rds2Level (s : State) : (reject s).rds2Level = s.rds2Level := rfl
@[simp] theorem reject_nsamp (s : State) : (reject s).nsamp = s.nsamp := rfl
@[simp] theorem reject_bitLen (s : State) : (reject s).bitLen = s.bitLen := rfl
@[simp] theorem reject_logoLen (s : State) : (reject s).logoLen = s.logoLen := rfl
@[simp] theorem reject_sps (s : State) : (reject s).sps = s.sps := rfl
@[simp] theorem reject_ntaps (s : State) : (reject s).ntaps = s.ntaps := rfl
@[simp] theorem reject_cyc (s : State) : (reject s).cyc = s.cyc := rfl
@[simp] theorem reject_rtIdx (s : State) : (reject s).rtIdx = s.rtIdx := rfl
@[simp] theorem reject_logoCur (s : State) : (reject s).logoCur = s.logoCur := rfl
@[simp] theorem reject_glen (s : State) : (reject s).glen = s.glen := rfl
@[simp] theorem reject_gtype (s : State) : (reject s).gtype = s.gtype := rfl
@[simp] theorem reject_gbuf (s : State) : (reject s).gbuf = s.gbuf := rfl
@[simp] theorem reject_symLen (s : State) : (reject s).symLen = s.symLen := rfl
@[simp] theorem reject_bbLen (s : State) : (reject s).bbLen = s.bbLen := rfl
@[simp] theorem reject_subLen (s : State) : (reject s).subLen = s.subLen := rfl
@[simp] theorem reject_ps (s : State) : (reject s).ps = s.ps := rfl
@[simp] theorem reject_rt (s : State) : (reject s).rt = s.rt := rfl
@[simp] theorem reject_txt (s : State) : (reject s).txt = s.txt := rfl
@[simp] theorem reject_lMem (s : State) : (reject s).lMem = s.lMem := rfl
@[simp] theorem reject_rMem (s : State) : (reject s).rMem = s.rMem := rfl
@[simp] theorem reject_outMem (s : State) : (reject s).outMem = s.outMem := rfl
@[simp] theorem reject_bbMem (s : State) : (reject s).bbMem = s.bbMem := rfl
@[simp] theorem reject_subMem (s : State) : (reject s).subMem = s.subMem := rfl
@[simp] theorem reject_tapMem (s : State) : (reject s).tapMem = s.tapMem := rfl
@[simp] theorem reject_bitMem (s : State) : (reject s).bitMem = s.bitMem := rfl
@[simp] theorem reject_symMem (s : State) : (reject s).symMem = s.symMem := rfl
@[simp] theorem reject_logoMem (s : State) : (reject s).logoMem = s.logoMem := rfl
@[simp] theorem reject_eng (s : State) : (reject s).eng = s.eng := rfl
@[simp] theorem reject_turns (s : State) : (reject s).turns = s.turns := rfl
@[simp] theorem reject_replies (s : State) : (reject s).replies = s.replies := rfl
@[simp] theorem reject_draws (s : State) : (reject s).draws = s.draws := rfl

/-! ### `reply` -/

@[simp] theorem reply_params (w : Word) (s : State) : (reply w s).params = s.params := rfl
@[simp] theorem reply_ctrl (w : Word) (s : State) : (reply w s).ctrl = s.ctrl := rfl
@[simp] theorem reply_done (w : Word) (s : State) : (reply w s).done = s.done := rfl
@[simp] theorem reply_tapsValid (w : Word) (s : State) : (reply w s).tapsValid = s.tapsValid := rfl
@[simp] theorem reply_err (w : Word) (s : State) : (reply w s).err = s.err := rfl
@[simp] theorem reply_accErr (w : Word) (s : State) : (reply w s).accErr = s.accErr := rfl
@[simp] theorem reply_wBusy (w : Word) (s : State) : (reply w s).wBusy = s.wBusy := rfl
@[simp] theorem reply_lastCmd (w : Word) (s : State) : (reply w s).lastCmd = s.lastCmd := rfl
@[simp] theorem reply_result (w : Word) (s : State) : (reply w s).result = s.result := rfl
@[simp] theorem reply_pi (w : Word) (s : State) : (reply w s).pi = s.pi := rfl
@[simp] theorem reply_fs (w : Word) (s : State) : (reply w s).fs = s.fs := rfl
@[simp] theorem reply_pilotLevel (w : Word) (s : State) : (reply w s).pilotLevel = s.pilotLevel := rfl
@[simp] theorem reply_rdsLevel (w : Word) (s : State) : (reply w s).rdsLevel = s.rdsLevel := rfl
@[simp] theorem reply_rds2Level (w : Word) (s : State) : (reply w s).rds2Level = s.rds2Level := rfl
@[simp] theorem reply_nsamp (w : Word) (s : State) : (reply w s).nsamp = s.nsamp := rfl
@[simp] theorem reply_bitLen (w : Word) (s : State) : (reply w s).bitLen = s.bitLen := rfl
@[simp] theorem reply_logoLen (w : Word) (s : State) : (reply w s).logoLen = s.logoLen := rfl
@[simp] theorem reply_sps (w : Word) (s : State) : (reply w s).sps = s.sps := rfl
@[simp] theorem reply_ntaps (w : Word) (s : State) : (reply w s).ntaps = s.ntaps := rfl
@[simp] theorem reply_cyc (w : Word) (s : State) : (reply w s).cyc = s.cyc := rfl
@[simp] theorem reply_rtIdx (w : Word) (s : State) : (reply w s).rtIdx = s.rtIdx := rfl
@[simp] theorem reply_logoCur (w : Word) (s : State) : (reply w s).logoCur = s.logoCur := rfl
@[simp] theorem reply_glen (w : Word) (s : State) : (reply w s).glen = s.glen := rfl
@[simp] theorem reply_gtype (w : Word) (s : State) : (reply w s).gtype = s.gtype := rfl
@[simp] theorem reply_gbuf (w : Word) (s : State) : (reply w s).gbuf = s.gbuf := rfl
@[simp] theorem reply_symLen (w : Word) (s : State) : (reply w s).symLen = s.symLen := rfl
@[simp] theorem reply_bbLen (w : Word) (s : State) : (reply w s).bbLen = s.bbLen := rfl
@[simp] theorem reply_subLen (w : Word) (s : State) : (reply w s).subLen = s.subLen := rfl
@[simp] theorem reply_ps (w : Word) (s : State) : (reply w s).ps = s.ps := rfl
@[simp] theorem reply_rt (w : Word) (s : State) : (reply w s).rt = s.rt := rfl
@[simp] theorem reply_txt (w : Word) (s : State) : (reply w s).txt = s.txt := rfl
@[simp] theorem reply_lMem (w : Word) (s : State) : (reply w s).lMem = s.lMem := rfl
@[simp] theorem reply_rMem (w : Word) (s : State) : (reply w s).rMem = s.rMem := rfl
@[simp] theorem reply_outMem (w : Word) (s : State) : (reply w s).outMem = s.outMem := rfl
@[simp] theorem reply_bbMem (w : Word) (s : State) : (reply w s).bbMem = s.bbMem := rfl
@[simp] theorem reply_subMem (w : Word) (s : State) : (reply w s).subMem = s.subMem := rfl
@[simp] theorem reply_tapMem (w : Word) (s : State) : (reply w s).tapMem = s.tapMem := rfl
@[simp] theorem reply_bitMem (w : Word) (s : State) : (reply w s).bitMem = s.bitMem := rfl
@[simp] theorem reply_symMem (w : Word) (s : State) : (reply w s).symMem = s.symMem := rfl
@[simp] theorem reply_logoMem (w : Word) (s : State) : (reply w s).logoMem = s.logoMem := rfl
@[simp] theorem reply_eng (w : Word) (s : State) : (reply w s).eng = s.eng := rfl
@[simp] theorem reply_turns (w : Word) (s : State) : (reply w s).turns = s.turns := rfl
@[simp] theorem reply_replies (w : Word) (s : State) : (reply w s).replies = w :: s.replies := rfl
@[simp] theorem reply_draws (w : Word) (s : State) : (reply w s).draws = s.draws := rfl

/-! ### `replyFree` -/

@[simp] theorem replyFree_params (s : State) : (replyFree s).params = s.params := rfl
@[simp] theorem replyFree_ctrl (s : State) : (replyFree s).ctrl = s.ctrl := rfl
@[simp] theorem replyFree_done (s : State) : (replyFree s).done = s.done := rfl
@[simp] theorem replyFree_tapsValid (s : State) : (replyFree s).tapsValid = s.tapsValid := rfl
@[simp] theorem replyFree_err (s : State) : (replyFree s).err = s.err := rfl
@[simp] theorem replyFree_accErr (s : State) : (replyFree s).accErr = s.accErr := rfl
@[simp] theorem replyFree_wBusy (s : State) : (replyFree s).wBusy = s.wBusy := rfl
@[simp] theorem replyFree_lastCmd (s : State) : (replyFree s).lastCmd = s.lastCmd := rfl
@[simp] theorem replyFree_result (s : State) : (replyFree s).result = s.result := rfl
@[simp] theorem replyFree_pi (s : State) : (replyFree s).pi = s.pi := rfl
@[simp] theorem replyFree_fs (s : State) : (replyFree s).fs = s.fs := rfl
@[simp] theorem replyFree_pilotLevel (s : State) : (replyFree s).pilotLevel = s.pilotLevel := rfl
@[simp] theorem replyFree_rdsLevel (s : State) : (replyFree s).rdsLevel = s.rdsLevel := rfl
@[simp] theorem replyFree_rds2Level (s : State) : (replyFree s).rds2Level = s.rds2Level := rfl
@[simp] theorem replyFree_nsamp (s : State) : (replyFree s).nsamp = s.nsamp := rfl
@[simp] theorem replyFree_bitLen (s : State) : (replyFree s).bitLen = s.bitLen := rfl
@[simp] theorem replyFree_logoLen (s : State) : (replyFree s).logoLen = s.logoLen := rfl
@[simp] theorem replyFree_sps (s : State) : (replyFree s).sps = s.sps := rfl
@[simp] theorem replyFree_ntaps (s : State) : (replyFree s).ntaps = s.ntaps := rfl
@[simp] theorem replyFree_cyc (s : State) : (replyFree s).cyc = s.cyc := rfl
@[simp] theorem replyFree_rtIdx (s : State) : (replyFree s).rtIdx = s.rtIdx := rfl
@[simp] theorem replyFree_logoCur (s : State) : (replyFree s).logoCur = s.logoCur := rfl
@[simp] theorem replyFree_glen (s : State) : (replyFree s).glen = s.glen := rfl
@[simp] theorem replyFree_gtype (s : State) : (replyFree s).gtype = s.gtype := rfl
@[simp] theorem replyFree_gbuf (s : State) : (replyFree s).gbuf = s.gbuf := rfl
@[simp] theorem replyFree_symLen (s : State) : (replyFree s).symLen = s.symLen := rfl
@[simp] theorem replyFree_bbLen (s : State) : (replyFree s).bbLen = s.bbLen := rfl
@[simp] theorem replyFree_subLen (s : State) : (replyFree s).subLen = s.subLen := rfl
@[simp] theorem replyFree_ps (s : State) : (replyFree s).ps = s.ps := rfl
@[simp] theorem replyFree_rt (s : State) : (replyFree s).rt = s.rt := rfl
@[simp] theorem replyFree_txt (s : State) : (replyFree s).txt = s.txt := rfl
@[simp] theorem replyFree_lMem (s : State) : (replyFree s).lMem = s.lMem := rfl
@[simp] theorem replyFree_rMem (s : State) : (replyFree s).rMem = s.rMem := rfl
@[simp] theorem replyFree_outMem (s : State) : (replyFree s).outMem = s.outMem := rfl
@[simp] theorem replyFree_bbMem (s : State) : (replyFree s).bbMem = s.bbMem := rfl
@[simp] theorem replyFree_subMem (s : State) : (replyFree s).subMem = s.subMem := rfl
@[simp] theorem replyFree_tapMem (s : State) : (replyFree s).tapMem = s.tapMem := rfl
@[simp] theorem replyFree_bitMem (s : State) : (replyFree s).bitMem = s.bitMem := rfl
@[simp] theorem replyFree_symMem (s : State) : (replyFree s).symMem = s.symMem := rfl
@[simp] theorem replyFree_logoMem (s : State) : (replyFree s).logoMem = s.logoMem := rfl
@[simp] theorem replyFree_eng (s : State) : (replyFree s).eng = s.eng := rfl
@[simp] theorem replyFree_turns (s : State) : (replyFree s).turns = s.turns := rfl
@[simp] theorem replyFree_replies (s : State) : (replyFree s).replies = Config.freeWord s.draws :: s.replies := rfl
@[simp] theorem replyFree_draws (s : State) : (replyFree s).draws = s.draws + 1 := rfl

/-! ### `writeFs` -/

@[simp] theorem writeFs_params (v : Word) (s : State) : (writeFs v s).params = s.params := rfl
@[simp] theorem writeFs_ctrl (v : Word) (s : State) : (writeFs v s).ctrl = s.ctrl := rfl
@[simp] theorem writeFs_done (v : Word) (s : State) : (writeFs v s).done = s.done := rfl
@[simp] theorem writeFs_tapsValid (v : Word) (s : State) : (writeFs v s).tapsValid = false := rfl
@[simp] theorem writeFs_err (v : Word) (s : State) : (writeFs v s).err = s.err := rfl
@[simp] theorem writeFs_accErr (v : Word) (s : State) : (writeFs v s).accErr = s.accErr := rfl
@[simp] theorem writeFs_wBusy (v : Word) (s : State) : (writeFs v s).wBusy = s.wBusy := rfl
@[simp] theorem writeFs_lastCmd (v : Word) (s : State) : (writeFs v s).lastCmd = s.lastCmd := rfl
@[simp] theorem writeFs_result (v : Word) (s : State) : (writeFs v s).result = s.result := rfl
@[simp] theorem writeFs_pi (v : Word) (s : State) : (writeFs v s).pi = s.pi := rfl
@[simp] theorem writeFs_fs (v : Word) (s : State) : (writeFs v s).fs = v := rfl
@[simp] theorem writeFs_pilotLevel (v : Word) (s : State) : (writeFs v s).pilotLevel = s.pilotLevel := rfl
@[simp] theorem writeFs_rdsLevel (v : Word) (s : State) : (writeFs v s).rdsLevel = s.rdsLevel := rfl
@[simp] theorem writeFs_rds2Level (v : Word) (s : State) : (writeFs v s).rds2Level = s.rds2Level := rfl
@[simp] theorem writeFs_nsamp (v : Word) (s : State) : (writeFs v s).nsamp = s.nsamp := rfl
@[simp] theorem writeFs_bitLen (v : Word) (s : State) : (writeFs v s).bitLen = s.bitLen := rfl
@[simp] theorem writeFs_logoLen (v : Word) (s : State) : (writeFs v s).logoLen = s.logoLen := rfl
@[simp] theorem writeFs_sps (v : Word) (s : State) : (writeFs v s).sps = 0 := rfl
@[simp] theorem writeFs_ntaps (v : Word) (s : State) : (writeFs v s).ntaps = 0 := rfl
@[simp] theorem writeFs_cyc (v : Word) (s : State) : (writeFs v s).cyc = s.cyc := rfl
@[simp] theorem writeFs_rtIdx (v : Word) (s : State) : (writeFs v s).rtIdx = s.rtIdx := rfl
@[simp] theorem writeFs_logoCur (v : Word) (s : State) : (writeFs v s).logoCur = s.logoCur := rfl
@[simp] theorem writeFs_glen (v : Word) (s : State) : (writeFs v s).glen = s.glen := rfl
@[simp] theorem writeFs_gtype (v : Word) (s : State) : (writeFs v s).gtype = s.gtype := rfl
@[simp] theorem writeFs_gbuf (v : Word) (s : State) : (writeFs v s).gbuf = s.gbuf := rfl
@[simp] theorem writeFs_symLen (v : Word) (s : State) : (writeFs v s).symLen = s.symLen := rfl
@[simp] theorem writeFs_bbLen (v : Word) (s : State) : (writeFs v s).bbLen = 0 := rfl
@[simp] theorem writeFs_subLen (v : Word) (s : State) : (writeFs v s).subLen = 0 := rfl
@[simp] theorem writeFs_ps (v : Word) (s : State) : (writeFs v s).ps = s.ps := rfl
@[simp] theorem writeFs_rt (v : Word) (s : State) : (writeFs v s).rt = s.rt := rfl
@[simp] theorem writeFs_txt (v : Word) (s : State) : (writeFs v s).txt = s.txt := rfl
@[simp] theorem writeFs_lMem (v : Word) (s : State) : (writeFs v s).lMem = s.lMem := rfl
@[simp] theorem writeFs_rMem (v : Word) (s : State) : (writeFs v s).rMem = s.rMem := rfl
@[simp] theorem writeFs_outMem (v : Word) (s : State) : (writeFs v s).outMem = s.outMem := rfl
@[simp] theorem writeFs_bbMem (v : Word) (s : State) : (writeFs v s).bbMem = s.bbMem := rfl
@[simp] theorem writeFs_subMem (v : Word) (s : State) : (writeFs v s).subMem = s.subMem := rfl
@[simp] theorem writeFs_tapMem (v : Word) (s : State) : (writeFs v s).tapMem = s.tapMem := rfl
@[simp] theorem writeFs_bitMem (v : Word) (s : State) : (writeFs v s).bitMem = s.bitMem := rfl
@[simp] theorem writeFs_symMem (v : Word) (s : State) : (writeFs v s).symMem = s.symMem := rfl
@[simp] theorem writeFs_logoMem (v : Word) (s : State) : (writeFs v s).logoMem = s.logoMem := rfl
@[simp] theorem writeFs_eng (v : Word) (s : State) : (writeFs v s).eng = s.eng := rfl
@[simp] theorem writeFs_turns (v : Word) (s : State) : (writeFs v s).turns = s.turns := rfl
@[simp] theorem writeFs_replies (v : Word) (s : State) : (writeFs v s).replies = s.replies := rfl
@[simp] theorem writeFs_draws (v : Word) (s : State) : (writeFs v s).draws = s.draws := rfl

/-! ### `writeLogoLen` -/

@[simp] theorem writeLogoLen_params (v : Word) (s : State) : (writeLogoLen v s).params = s.params := rfl
@[simp] theorem writeLogoLen_ctrl (v : Word) (s : State) : (writeLogoLen v s).ctrl = s.ctrl := rfl
@[simp] theorem writeLogoLen_done (v : Word) (s : State) : (writeLogoLen v s).done = s.done := rfl
@[simp] theorem writeLogoLen_tapsValid (v : Word) (s : State) : (writeLogoLen v s).tapsValid = s.tapsValid := rfl
@[simp] theorem writeLogoLen_err (v : Word) (s : State) : (writeLogoLen v s).err = s.err := rfl
@[simp] theorem writeLogoLen_accErr (v : Word) (s : State) : (writeLogoLen v s).accErr = s.accErr := rfl
@[simp] theorem writeLogoLen_wBusy (v : Word) (s : State) : (writeLogoLen v s).wBusy = s.wBusy := rfl
@[simp] theorem writeLogoLen_lastCmd (v : Word) (s : State) : (writeLogoLen v s).lastCmd = s.lastCmd := rfl
@[simp] theorem writeLogoLen_result (v : Word) (s : State) : (writeLogoLen v s).result = s.result := rfl
@[simp] theorem writeLogoLen_pi (v : Word) (s : State) : (writeLogoLen v s).pi = s.pi := rfl
@[simp] theorem writeLogoLen_fs (v : Word) (s : State) : (writeLogoLen v s).fs = s.fs := rfl
@[simp] theorem writeLogoLen_pilotLevel (v : Word) (s : State) : (writeLogoLen v s).pilotLevel = s.pilotLevel := rfl
@[simp] theorem writeLogoLen_rdsLevel (v : Word) (s : State) : (writeLogoLen v s).rdsLevel = s.rdsLevel := rfl
@[simp] theorem writeLogoLen_rds2Level (v : Word) (s : State) : (writeLogoLen v s).rds2Level = s.rds2Level := rfl
@[simp] theorem writeLogoLen_nsamp (v : Word) (s : State) : (writeLogoLen v s).nsamp = s.nsamp := rfl
@[simp] theorem writeLogoLen_bitLen (v : Word) (s : State) : (writeLogoLen v s).bitLen = s.bitLen := rfl
@[simp] theorem writeLogoLen_logoLen (v : Word) (s : State) : (writeLogoLen v s).logoLen = min v.toNat s.params.logoCap := rfl
@[simp] theorem writeLogoLen_sps (v : Word) (s : State) : (writeLogoLen v s).sps = s.sps := rfl
@[simp] theorem writeLogoLen_ntaps (v : Word) (s : State) : (writeLogoLen v s).ntaps = s.ntaps := rfl
@[simp] theorem writeLogoLen_cyc (v : Word) (s : State) : (writeLogoLen v s).cyc = s.cyc := rfl
@[simp] theorem writeLogoLen_rtIdx (v : Word) (s : State) : (writeLogoLen v s).rtIdx = s.rtIdx := rfl
@[simp] theorem writeLogoLen_logoCur (v : Word) (s : State) : (writeLogoLen v s).logoCur = 0 := rfl
@[simp] theorem writeLogoLen_glen (v : Word) (s : State) : (writeLogoLen v s).glen = s.glen := rfl
@[simp] theorem writeLogoLen_gtype (v : Word) (s : State) : (writeLogoLen v s).gtype = s.gtype := rfl
@[simp] theorem writeLogoLen_gbuf (v : Word) (s : State) : (writeLogoLen v s).gbuf = s.gbuf := rfl
@[simp] theorem writeLogoLen_symLen (v : Word) (s : State) : (writeLogoLen v s).symLen = s.symLen := rfl
@[simp] theorem writeLogoLen_bbLen (v : Word) (s : State) : (writeLogoLen v s).bbLen = s.bbLen := rfl
@[simp] theorem writeLogoLen_subLen (v : Word) (s : State) : (writeLogoLen v s).subLen = s.subLen := rfl
@[simp] theorem writeLogoLen_ps (v : Word) (s : State) : (writeLogoLen v s).ps = s.ps := rfl
@[simp] theorem writeLogoLen_rt (v : Word) (s : State) : (writeLogoLen v s).rt = s.rt := rfl
@[simp] theorem writeLogoLen_txt (v : Word) (s : State) : (writeLogoLen v s).txt = s.txt := rfl
@[simp] theorem writeLogoLen_lMem (v : Word) (s : State) : (writeLogoLen v s).lMem = s.lMem := rfl
@[simp] theorem writeLogoLen_rMem (v : Word) (s : State) : (writeLogoLen v s).rMem = s.rMem := rfl
@[simp] theorem writeLogoLen_outMem (v : Word) (s : State) : (writeLogoLen v s).outMem = s.outMem := rfl
@[simp] theorem writeLogoLen_bbMem (v : Word) (s : State) : (writeLogoLen v s).bbMem = s.bbMem := rfl
@[simp] theorem writeLogoLen_subMem (v : Word) (s : State) : (writeLogoLen v s).subMem = s.subMem := rfl
@[simp] theorem writeLogoLen_tapMem (v : Word) (s : State) : (writeLogoLen v s).tapMem = s.tapMem := rfl
@[simp] theorem writeLogoLen_bitMem (v : Word) (s : State) : (writeLogoLen v s).bitMem = s.bitMem := rfl
@[simp] theorem writeLogoLen_symMem (v : Word) (s : State) : (writeLogoLen v s).symMem = s.symMem := rfl
@[simp] theorem writeLogoLen_logoMem (v : Word) (s : State) : (writeLogoLen v s).logoMem = s.logoMem := rfl
@[simp] theorem writeLogoLen_eng (v : Word) (s : State) : (writeLogoLen v s).eng = s.eng := rfl
@[simp] theorem writeLogoLen_turns (v : Word) (s : State) : (writeLogoLen v s).turns = s.turns := rfl
@[simp] theorem writeLogoLen_replies (v : Word) (s : State) : (writeLogoLen v s).replies = s.replies := rfl
@[simp] theorem writeLogoLen_draws (v : Word) (s : State) : (writeLogoLen v s).draws = s.draws := rfl

/-! ### `softReset` -/

@[simp] theorem softReset_params (s : State) : (softReset s).params = s.params := rfl
@[simp] theorem softReset_ctrl (s : State) : (softReset s).ctrl = State.reset.ctrl := rfl
@[simp] theorem softReset_done (s : State) : (softReset s).done = s.done := rfl
@[simp] theorem softReset_tapsValid (s : State) : (softReset s).tapsValid = State.reset.tapsValid := rfl
@[simp] theorem softReset_err (s : State) : (softReset s).err = s.err := rfl
@[simp] theorem softReset_accErr (s : State) : (softReset s).accErr = State.reset.accErr := rfl
@[simp] theorem softReset_wBusy (s : State) : (softReset s).wBusy = State.reset.wBusy := rfl
@[simp] theorem softReset_lastCmd (s : State) : (softReset s).lastCmd = s.lastCmd := rfl
@[simp] theorem softReset_result (s : State) : (softReset s).result = State.reset.result := rfl
@[simp] theorem softReset_pi (s : State) : (softReset s).pi = State.reset.pi := rfl
@[simp] theorem softReset_fs (s : State) : (softReset s).fs = State.reset.fs := rfl
@[simp] theorem softReset_pilotLevel (s : State) : (softReset s).pilotLevel = State.reset.pilotLevel := rfl
@[simp] theorem softReset_rdsLevel (s : State) : (softReset s).rdsLevel = State.reset.rdsLevel := rfl
@[simp] theorem softReset_rds2Level (s : State) : (softReset s).rds2Level = State.reset.rds2Level := rfl
@[simp] theorem softReset_nsamp (s : State) : (softReset s).nsamp = State.reset.nsamp := rfl
@[simp] theorem softReset_bitLen (s : State) : (softReset s).bitLen = State.reset.bitLen := rfl
@[simp] theorem softReset_logoLen (s : State) : (softReset s).logoLen = State.reset.logoLen := rfl
@[simp] theorem softReset_sps (s : State) : (softReset s).sps = State.reset.sps := rfl
@[simp] theorem softReset_ntaps (s : State) : (softReset s).ntaps = State.reset.ntaps := rfl
@[simp] theorem softReset_cyc (s : State) : (softReset s).cyc = State.reset.cyc := rfl
@[simp] theorem softReset_rtIdx (s : State) : (softReset s).rtIdx = State.reset.rtIdx := rfl
@[simp] theorem softReset_logoCur (s : State) : (softReset s).logoCur = State.reset.logoCur := rfl
@[simp] theorem softReset_glen (s : State) : (softReset s).glen = State.reset.glen := rfl
@[simp] theorem softReset_gtype (s : State) : (softReset s).gtype = State.reset.gtype := rfl
@[simp] theorem softReset_gbuf (s : State) : (softReset s).gbuf = State.reset.gbuf := rfl
@[simp] theorem softReset_symLen (s : State) : (softReset s).symLen = State.reset.symLen := rfl
@[simp] theorem softReset_bbLen (s : State) : (softReset s).bbLen = State.reset.bbLen := rfl
@[simp] theorem softReset_subLen (s : State) : (softReset s).subLen = State.reset.subLen := rfl
@[simp] theorem softReset_ps (s : State) : (softReset s).ps = State.reset.ps := rfl
@[simp] theorem softReset_rt (s : State) : (softReset s).rt = State.reset.rt := rfl
@[simp] theorem softReset_txt (s : State) : (softReset s).txt = State.reset.txt := rfl
@[simp] theorem softReset_lMem (s : State) : (softReset s).lMem = s.lMem := rfl
@[simp] theorem softReset_rMem (s : State) : (softReset s).rMem = s.rMem := rfl
@[simp] theorem softReset_outMem (s : State) : (softReset s).outMem = s.outMem := rfl
@[simp] theorem softReset_bbMem (s : State) : (softReset s).bbMem = s.bbMem := rfl
@[simp] theorem softReset_subMem (s : State) : (softReset s).subMem = s.subMem := rfl
@[simp] theorem softReset_tapMem (s : State) : (softReset s).tapMem = s.tapMem := rfl
@[simp] theorem softReset_bitMem (s : State) : (softReset s).bitMem = s.bitMem := rfl
@[simp] theorem softReset_symMem (s : State) : (softReset s).symMem = s.symMem := rfl
@[simp] theorem softReset_logoMem (s : State) : (softReset s).logoMem = s.logoMem := rfl
@[simp] theorem softReset_eng (s : State) : (softReset s).eng = s.eng := rfl
@[simp] theorem softReset_turns (s : State) : (softReset s).turns = s.turns := rfl
@[simp] theorem softReset_replies (s : State) : (softReset s).replies = s.replies := rfl
@[simp] theorem softReset_draws (s : State) : (softReset s).draws = s.draws := rfl

/-! ### `powerOnReset` -/

@[simp] theorem powerOnReset_params (s : State) : (powerOnReset s).params = s.params := rfl
@[simp] theorem powerOnReset_ctrl (s : State) : (powerOnReset s).ctrl = State.reset.ctrl := rfl
@[simp] theorem powerOnReset_done (s : State) : (powerOnReset s).done = State.reset.done := rfl
@[simp] theorem powerOnReset_tapsValid (s : State) : (powerOnReset s).tapsValid = State.reset.tapsValid := rfl
@[simp] theorem powerOnReset_err (s : State) : (powerOnReset s).err = State.reset.err := rfl
@[simp] theorem powerOnReset_accErr (s : State) : (powerOnReset s).accErr = State.reset.accErr := rfl
@[simp] theorem powerOnReset_wBusy (s : State) : (powerOnReset s).wBusy = State.reset.wBusy := rfl
@[simp] theorem powerOnReset_lastCmd (s : State) : (powerOnReset s).lastCmd = State.reset.lastCmd := rfl
@[simp] theorem powerOnReset_result (s : State) : (powerOnReset s).result = State.reset.result := rfl
@[simp] theorem powerOnReset_pi (s : State) : (powerOnReset s).pi = State.reset.pi := rfl
@[simp] theorem powerOnReset_fs (s : State) : (powerOnReset s).fs = State.reset.fs := rfl
@[simp] theorem powerOnReset_pilotLevel (s : State) : (powerOnReset s).pilotLevel = State.reset.pilotLevel := rfl
@[simp] theorem powerOnReset_rdsLevel (s : State) : (powerOnReset s).rdsLevel = State.reset.rdsLevel := rfl
@[simp] theorem powerOnReset_rds2Level (s : State) : (powerOnReset s).rds2Level = State.reset.rds2Level := rfl
@[simp] theorem powerOnReset_nsamp (s : State) : (powerOnReset s).nsamp = State.reset.nsamp := rfl
@[simp] theorem powerOnReset_bitLen (s : State) : (powerOnReset s).bitLen = State.reset.bitLen := rfl
@[simp] theorem powerOnReset_logoLen (s : State) : (powerOnReset s).logoLen = State.reset.logoLen := rfl
@[simp] theorem powerOnReset_sps (s : State) : (powerOnReset s).sps = State.reset.sps := rfl
@[simp] theorem powerOnReset_ntaps (s : State) : (powerOnReset s).ntaps = State.reset.ntaps := rfl
@[simp] theorem powerOnReset_cyc (s : State) : (powerOnReset s).cyc = State.reset.cyc := rfl
@[simp] theorem powerOnReset_rtIdx (s : State) : (powerOnReset s).rtIdx = State.reset.rtIdx := rfl
@[simp] theorem powerOnReset_logoCur (s : State) : (powerOnReset s).logoCur = State.reset.logoCur := rfl
@[simp] theorem powerOnReset_glen (s : State) : (powerOnReset s).glen = State.reset.glen := rfl
@[simp] theorem powerOnReset_gtype (s : State) : (powerOnReset s).gtype = State.reset.gtype := rfl
@[simp] theorem powerOnReset_gbuf (s : State) : (powerOnReset s).gbuf = State.reset.gbuf := rfl
@[simp] theorem powerOnReset_symLen (s : State) : (powerOnReset s).symLen = State.reset.symLen := rfl
@[simp] theorem powerOnReset_bbLen (s : State) : (powerOnReset s).bbLen = State.reset.bbLen := rfl
@[simp] theorem powerOnReset_subLen (s : State) : (powerOnReset s).subLen = State.reset.subLen := rfl
@[simp] theorem powerOnReset_ps (s : State) : (powerOnReset s).ps = State.reset.ps := rfl
@[simp] theorem powerOnReset_rt (s : State) : (powerOnReset s).rt = State.reset.rt := rfl
@[simp] theorem powerOnReset_txt (s : State) : (powerOnReset s).txt = State.reset.txt := rfl
@[simp] theorem powerOnReset_lMem (s : State) : (powerOnReset s).lMem = State.reset.lMem := rfl
@[simp] theorem powerOnReset_rMem (s : State) : (powerOnReset s).rMem = State.reset.rMem := rfl
@[simp] theorem powerOnReset_outMem (s : State) : (powerOnReset s).outMem = State.reset.outMem := rfl
@[simp] theorem powerOnReset_bbMem (s : State) : (powerOnReset s).bbMem = State.reset.bbMem := rfl
@[simp] theorem powerOnReset_subMem (s : State) : (powerOnReset s).subMem = State.reset.subMem := rfl
@[simp] theorem powerOnReset_tapMem (s : State) : (powerOnReset s).tapMem = State.reset.tapMem := rfl
@[simp] theorem powerOnReset_bitMem (s : State) : (powerOnReset s).bitMem = State.reset.bitMem := rfl
@[simp] theorem powerOnReset_symMem (s : State) : (powerOnReset s).symMem = State.reset.symMem := rfl
@[simp] theorem powerOnReset_logoMem (s : State) : (powerOnReset s).logoMem = State.reset.logoMem := rfl
@[simp] theorem powerOnReset_eng (s : State) : (powerOnReset s).eng = State.reset.eng := rfl
@[simp] theorem powerOnReset_turns (s : State) : (powerOnReset s).turns = s.turns := rfl
@[simp] theorem powerOnReset_replies (s : State) : (powerOnReset s).replies = s.replies := rfl
@[simp] theorem powerOnReset_draws (s : State) : (powerOnReset s).draws = s.draws := rfl

end Sys2Proof.Machine
end

