-- ==== Sys2Proof/Laws/Sequencer.lean ====
section
/-! SUPPORT. What one emission of the sequencer can do, said once, and what `generate` returns. -/

namespace Sys2Proof.Machine

@[simp] theorem groupBits_length (a b c d : BitVec 16) : (groupBits a b c d).length = 104 := by
  simp [groupBits]

@[simp] theorem group0A_length (s : State) (seg : Fin 4) : (group0A s seg).length = 104 := by simp [group0A]

@[simp] theorem group2A_length (s : State) (seg : Fin 16) : (group2A s seg).length = 104 := by simp [group2A]

/-- LOGO_CUR after a chunk (R163). -/
def nextLogoCur (s : State) : Nat :=
  if s.logoCur + logoChunkLen s = s.logoLen then 0 else s.logoCur + logoChunkLen s

/-- A logo chunk that can be read: its bits, and the cursor after it. -/
theorem logoChunk_ok {cmd : Mnemonic} {s : State} {g : List Bool} {t : State} (h : logoChunk cmd s = .ok (g, t)) :
    g.length = logoChunkLen s ∧ (∀ i, i < logoChunkLen s → memGet s.logoMem (s.logoCur + i) = g[i]?) ∧
      t = { s with logoCur := nextLogoCur s } := by
  rw [logoChunk] at h
  split at h
  · cases h
  · rename_i g' hg
    cases h
    obtain ⟨h1, h2⟩ := readOperand_ok hg
    exact ⟨h1, h2, rfl⟩

/-- One emission (R161): a logo chunk, a 0A group or a 2A group, and what each does to the sequencer state. -/
theorem nextGroup_ok {cmd : Mnemonic} {s : State} {g : List Bool} {ty : GType} {t : State}
    (h : nextGroup cmd s = .ok ((g, ty), t)) :
    (logoPresent s = true ∧ s.cyc.val % 5 = 0 ∧ ty = .logo ∧ g.length = logoChunkLen s ∧
      (∀ i, i < logoChunkLen s → memGet s.logoMem (s.logoCur + i) = g[i]?) ∧
      t = advanceCyc { s with logoCur := nextLogoCur s }) ∨
    (¬(logoPresent s = true ∧ s.cyc.val % 5 = 0) ∧ s.cyc.val % 3 ≠ 2 ∧ ty = .group0A ∧
      g = group0A s (psSegment s) ∧ t = advanceCyc s) ∨
    (¬(logoPresent s = true ∧ s.cyc.val % 5 = 0) ∧ s.cyc.val % 3 = 2 ∧ ty = .group2A ∧
      g = group2A s s.rtIdx ∧ t = advanceCyc (advanceRt s)) := by
  rw [nextGroup] at h
  split at h
  · rename_i hl
    split at h
    · cases h
    · rename_i g' s' hc
      cases h
      obtain ⟨h1, h2, h3⟩ := logoChunk_ok hc
      exact .inl ⟨hl.1, hl.2, rfl, h1, h2, by rw [h3]⟩
  · rename_i hl
    split at h
    · rename_i h3
      cases h
      exact .inr (.inl ⟨hl, h3, rfl, rfl, rfl⟩)
    · rename_i h3
      cases h
      exact .inr (.inr ⟨hl, Decidable.not_not.1 h3, rfl, rfl, rfl⟩)

/-- An emission ends in a fault only at a ⊥ bit of a logo chunk (R168). -/
theorem nextGroup_error {cmd : Mnemonic} {s : State} {f : Fault} (h : nextGroup cmd s = .error f) :
    logoPresent s = true ∧ s.cyc.val % 5 = 0 ∧ ∃ k, f = .undefRead cmd .logo k ∧ s.logoCur ≤ k ∧
      k < s.logoCur + logoChunkLen s ∧ memGet s.logoMem k = none := by
  rw [nextGroup] at h
  split at h
  · rename_i hl
    split at h
    · rename_i f' hc
      cases h
      rw [logoChunk] at hc
      split at hc
      · rename_i f'' hr
        cases hc
        exact ⟨hl.1, hl.2, readOperand_error hr⟩
      · cases hc
    · cases h
  · split at h <;> cases h

/-- An emission changes CYC, RT_IDX and LOGO_CUR only. -/
theorem nextGroup_frame {cmd : Mnemonic} {s : State} {r : (List Bool × GType) × State} (h : nextGroup cmd s = .ok r) :
    r.2 = { s with cyc := r.2.cyc, rtIdx := r.2.rtIdx, logoCur := r.2.logoCur } := by
  obtain ⟨⟨g, ty⟩, t⟩ := r
  rcases nextGroup_ok h with ⟨_, _, _, _, _, rfl⟩ | ⟨_, _, _, _, rfl⟩ | ⟨_, _, _, _, rfl⟩ <;> rfl

/-- CYC advances by one on every emission (R162). -/
theorem nextGroup_cyc {cmd : Mnemonic} {s : State} {r : (List Bool × GType) × State} (h : nextGroup cmd s = .ok r) :
    r.2.cyc.val = (s.cyc.val + 1) % 60 := by
  obtain ⟨⟨g, ty⟩, t⟩ := r
  rcases nextGroup_ok h with ⟨_, _, _, _, _, rfl⟩ | ⟨_, _, _, _, rfl⟩ | ⟨_, _, _, _, rfl⟩ <;> rfl

/-- An emission that is no logo chunk has 104 bits, and any emission at most 104. -/
theorem nextGroup_length {cmd : Mnemonic} {s : State} {g : List Bool} {ty : GType} {t : State}
    (h : nextGroup cmd s = .ok ((g, ty), t)) : g.length ≤ 104 ∧ (s.cyc.val % 5 ≠ 0 → g.length = 104) := by
  rcases nextGroup_ok h with ⟨_, h5, _, hl, _, _⟩ | ⟨_, _, _, rfl, _⟩ | ⟨_, _, _, rfl, _⟩
  · refine ⟨?_, fun h' => absurd h5 h'⟩
    rw [hl, logoChunkLen]
    exact Nat.min_le_left _ _
  · simp
  · simp

/-- The loop's result reaches the requested length wherever its bound on emissions is at least twice what is missing, less one
where the next emission is a whole group. -/
theorem generateLoop_length (cmd : Mnemonic) (n fuel : Nat) (out : List Bool) (s : State) (r : List Bool × State)
    (h : generateLoop cmd n fuel out s = .ok r)
    (hf : 2 * (n - out.length) ≤ fuel ∨ s.cyc.val % 5 ≠ 0 ∧ 2 * (n - out.length) ≤ fuel + 1) : n ≤ r.1.length := by
  induction fuel generalizing out s with
  | zero =>
    cases h
    show n ≤ out.length
    omega
  | succ fuel ih =>
    rw [generateLoop] at h
    split at h
    · rename_i hlt
      split at h
      · cases h
      · rename_i g ty s' hg
        have hlen := nextGroup_length hg
        have hcyc := nextGroup_cyc hg
        refine ih _ _ h ?_
        rw [List.length_append]
        simp only at hcyc
        have := s.cyc.isLt
        by_cases h5 : s.cyc.val % 5 = 0
        · right
          omega
        · left
          have := hlen.2 h5
          omega
    · rename_i hge
      cases h
      show n ≤ out.length
      omega

/-- `generate(n)` returns n bits (R167). -/
theorem generate_length {cmd : Mnemonic} {n : Nat} {s : State} {r : List Bool × State}
    (h : generate cmd n s = .ok r) : r.1.length = n := by
  rw [generate] at h
  split at h
  · cases h
  · rename_i out s' hl
    cases h
    have := generateLoop_length cmd n (2 * n) [] s _ hl (.inl (by simp))
    simp only at this
    simp [this]

theorem generateLoop_frame (cmd : Mnemonic) (n fuel : Nat) (out : List Bool) (s : State) (r : List Bool × State)
    (h : generateLoop cmd n fuel out s = .ok r) :
    r.2 = { s with cyc := r.2.cyc, rtIdx := r.2.rtIdx, logoCur := r.2.logoCur } := by
  induction fuel generalizing out s with
  | zero => cases h; rfl
  | succ fuel ih =>
    rw [generateLoop] at h
    split at h
    · split at h
      · cases h
      · rename_i g ty s' hg
        have h1 := nextGroup_frame hg
        have h2 := ih _ _ h
        rw [h2]
        simp only at h1
        rw [h1]
    · cases h; rfl

/-- `generate` changes CYC, RT_IDX and LOGO_CUR only. -/
theorem generate_frame {cmd : Mnemonic} {n : Nat} {s : State} {r : List Bool × State}
    (h : generate cmd n s = .ok r) : r.2 = { s with cyc := r.2.cyc, rtIdx := r.2.rtIdx, logoCur := r.2.logoCur } := by
  rw [generate] at h
  split at h
  · cases h
  · rename_i out s' hl
    cases h
    have := generateLoop_frame cmd n (2 * n) [] s (out, s') hl
    exact this

end Sys2Proof.Machine
end

