-- ==== Sys2Proof/Laws/Commands.lean ====
section
/-! SUPPORT. The lengths of the signal sequences, and for each command that can fail the list of all it can do. A proof cites these
instead of unfolding a meaning. -/

namespace Sys2Proof.Machine

/-! ### Sequences -/

@[simp] theorem diffencFrom_length (p : SymVal) (bs : List Bool) : (diffencFrom p bs).length = bs.length := by
  induction bs generalizing p with
  | nil => rfl
  | cons b bs ih => simp [diffencFrom, ih]

@[simp] theorem diffenc_length (bs : List Bool) : (diffenc bs).length = bs.length := by simp [diffenc]

@[simp] theorem designTaps_length (N : NumType) (fs : Nat) : (designTaps N fs).length = ntapsOf (spsOf fs) := by
  simp [designTaps, rawTaps]

@[simp] theorem baseband_length (N : NumType) (syms : List SymVal) (sps : Nat) (h : List NumVal) :
    (baseband N syms sps h).length = syms.length * sps := by simp [baseband]

theorem baseband_getElem? (N : NumType) (syms : List SymVal) (sps : Nat) (h : List NumVal) (p : Nat)
    (hp : p < syms.length * sps) : (baseband N syms sps h)[p]? = some (basebandAt N syms sps h p) := by simp [baseband, hp]

@[simp] theorem mixAll_length (N : NumType) (fs f : Nat) (bb : List NumVal) :
    (mixAll N fs f bb).length = bb.length := by simp [mixAll]

theorem mixAll_getElem? (N : NumType) (fs f : Nat) (bb : List NumVal) (p : Nat) :
    (mixAll N fs f bb)[p]? = (bb[p]?).map (mixSample N fs f p) := by
  simp only [mixAll, List.getElem?_map, List.getElem?_zipIdx, Option.map_map, Nat.zero_add]
  rfl

@[simp] theorem composeSums_length (N : NumType) (fs sps : Nat) (lv : Levels) (syms : List SymVal)
    (taps : List NumVal) (lr : List (NumVal × NumVal)) : (composeSums N fs sps lv syms taps lr).length = lr.length := by simp [composeSums]

theorem composeSums_getElem? (N : NumType) (fs sps : Nat) (lv : Levels) (syms : List SymVal) (taps : List NumVal)
    (lr : List (NumVal × NumVal)) (i : Nat) :
    (composeSums N fs sps lv syms taps lr)[i]? =
      (lr[i]?).map fun e => composeSum N fs lv (composeBaseband N syms sps taps i) i e.1 e.2 := by
  simp only [composeSums, List.getElem?_map, List.getElem?_zipIdx, Option.map_map, Nat.zero_add]
  rfl

/-- No sum is flagged exactly where every sum is finite. -/
theorem firstNonFinite_none (N : NumType) (sums : List NumVal) :
    firstNonFinite N sums = none ↔ ∀ v ∈ sums, N.isFinite v = true := by
  rw [firstNonFinite, List.findIdx?_eq_none_iff]
  simp

/-! ### Commands -/

/-- NEXTGRP: one emission, written to the group buffer. -/
theorem execNextgrp_next {s t : State} (h : execNextgrp s = .next t) :
    ∃ g ty s', nextGroup .nextgrp s = .ok ((g, ty), s') ∧ t = complete .ok (writeG g ty s') := by
  obtain ⟨⟨⟨g, ty⟩, s'⟩, h1, h2⟩ := withValue_next h
  exact ⟨g, ty, s', h1, succeed_next h2⟩

/-- GENBITS: E_CAP, or the generated bits in BIT_MEM. -/
theorem execGenbits_next {imm : BitVec 16} {s t : State} (h : execGenbits imm s = .next t) :
    (s.params.bitCap < immNat imm ∧ t = complete .cap s) ∨
    (immNat imm ≤ s.params.bitCap ∧ ∃ bs s', generate .genbits (immNat imm) s = .ok (bs, s') ∧
      t = complete .ok { s' with bitMem := memFill s'.bitMem bs, bitLen := immNat imm }) := by
  rw [execGenbits] at h
  split at h
  · rename_i hc
    exact .inl ⟨hc, raiseError_next h⟩
  · rename_i hc
    obtain ⟨⟨bs, s'⟩, h1, h2⟩ := withValue_next h
    exact .inr ⟨Nat.le_of_not_lt hc, bs, s', h1, succeed_next h2⟩

/-- DESIGN: E_RATE, E_CAP, or the designed filter. -/
theorem execDesign_next {s t : State} (h : execDesign s = .next t) :
    (rateOk s.fs.toNat = false ∧ t = complete .rate s) ∨
    (rateOk s.fs.toNat = true ∧ s.params.tapCap < ntapsOf (spsOf s.fs.toNat) ∧ t = complete .cap s) ∨
    (rateOk s.fs.toNat = true ∧ ntapsOf (spsOf s.fs.toNat) ≤ s.params.tapCap ∧
      t = complete .ok
        { s with
          tapMem := memFill s.tapMem (designTaps (numType s.params) s.fs.toNat)
          sps := spsOf s.fs.toNat
          ntaps := ntapsOf (spsOf s.fs.toNat)
          tapsValid := true }) := by
  rw [execDesign] at h
  split at h
  · rename_i hr
    exact .inl ⟨hr, raiseError_next h⟩
  · rename_i hr
    have hr' : rateOk s.fs.toNat = true := by simpa using hr
    simp only at h
    split at h
    · rename_i hc
      exact .inr (.inl ⟨hr', hc, raiseError_next h⟩)
    · rename_i hc
      exact .inr (.inr ⟨hr', Nat.le_of_not_lt hc, succeed_next h⟩)

/-- DIFFENC: the symbols of the bit source. -/
theorem execDiffenc_next {s t : State} (h : execDiffenc s = .next t) :
    ∃ bits, readOperand .diffenc .bit s.bitMem 0 s.bitLen = .ok bits ∧
      t = complete .ok { s with symMem := memFill s.symMem (diffenc bits), symLen := s.bitLen } := by
  obtain ⟨bits, h1, h2⟩ := withValue_next h
  exact ⟨bits, h1, succeed_next h2⟩

/-- SHAPE: E_NOTAPS, E_CAP, or the baseband. -/
theorem execShape_next {s t : State} (h : execShape s = .next t) :
    (s.tapsValid = false ∧ t = complete .noTaps s) ∨
    (s.tapsValid = true ∧ s.params.sampleCap < s.symLen * s.sps ∧ t = complete .cap s) ∨
    (s.tapsValid = true ∧ s.symLen * s.sps ≤ s.params.sampleCap ∧ ∃ syms taps,
      readOperand .shape .sym s.symMem 0 s.symLen = .ok syms ∧
      readOperand .shape .tap s.tapMem 0 s.ntaps = .ok taps ∧
      t = complete .ok
        { s with bbMem := memFill s.bbMem (baseband (numType s.params) syms s.sps taps), bbLen := s.symLen * s.sps }) := by
  rw [execShape] at h
  split at h
  · rename_i ht
    exact .inl ⟨ht, raiseError_next h⟩
  · rename_i ht
    have ht' : s.tapsValid = true := by simpa using ht
    split at h
    · rename_i hc
      exact .inr (.inl ⟨ht', hc, raiseError_next h⟩)
    · rename_i hc
      obtain ⟨syms, h1, h2⟩ := withValue_next h
      obtain ⟨taps, h3, h4⟩ := withValue_next h2
      exact .inr (.inr ⟨ht', Nat.le_of_not_lt hc, syms, taps, h1, h3, succeed_next h4⟩)

/-- MIX: E_NOTAPS, or the mixed baseband. -/
theorem execMix_next {car : Carrier} {s t : State} (h : execMix car s = .next t) :
    (s.tapsValid = false ∧ t = complete .noTaps s) ∨
    (s.tapsValid = true ∧ ∃ bb, readOperand .mix .bb s.bbMem 0 s.bbLen = .ok bb ∧
      t = complete .ok
        { s with
          subMem := memFill s.subMem (mixAll (numType s.params) s.fs.toNat (carrierHz car) bb)
          subLen := s.bbLen }) := by
  rw [execMix] at h
  split at h
  · rename_i ht
    exact .inl ⟨ht, raiseError_next h⟩
  · rename_i ht
    obtain ⟨bb, h1, h2⟩ := withValue_next h
    exact .inr ⟨by simpa using ht, bb, h1, succeed_next h2⟩

/-- MODULATE: E_NOTAPS, E_CAP, or symbols, baseband and subcarrier together. -/
theorem execModulate_next {car : Carrier} {s t : State} (h : execModulate car s = .next t) :
    (s.tapsValid = false ∧ t = complete .noTaps s) ∨
    (s.tapsValid = true ∧ s.params.sampleCap < s.bitLen * s.sps ∧ t = complete .cap s) ∨
    (s.tapsValid = true ∧ s.bitLen * s.sps ≤ s.params.sampleCap ∧ ∃ bits taps,
      readOperand .modulate .bit s.bitMem 0 s.bitLen = .ok bits ∧
      readOperand .modulate .tap s.tapMem 0 s.ntaps = .ok taps ∧
      t = complete .ok
        { s with
          symMem := memFill s.symMem (diffenc bits)
          symLen := s.bitLen
          bbMem := memFill s.bbMem (baseband (numType s.params) (diffenc bits) s.sps taps)
          bbLen := s.bitLen * s.sps
          subMem := memFill s.subMem (mixAll (numType s.params) s.fs.toNat (carrierHz car)
            (baseband (numType s.params) (diffenc bits) s.sps taps))
          subLen := s.bitLen * s.sps }) := by
  rw [execModulate] at h
  split at h
  · rename_i ht
    exact .inl ⟨ht, raiseError_next h⟩
  · rename_i ht
    have ht' : s.tapsValid = true := by simpa using ht
    split at h
    · rename_i hc
      exact .inr (.inl ⟨ht', hc, raiseError_next h⟩)
    · rename_i hc
      obtain ⟨bits, h1, h2⟩ := withValue_next h
      obtain ⟨taps, h3, h4⟩ := withValue_next h2
      exact .inr (.inr ⟨ht', Nat.le_of_not_lt hc, bits, taps, h1, h3, succeed_next h4⟩)

/-- COMPOSE: E_NOTAPS, E_NONFINITE, or the composed samples, every sum finite. -/
theorem execCompose_next {s t : State} (h : execCompose s = .next t) :
    (s.tapsValid = false ∧ t = complete .noTaps s) ∨
    (s.tapsValid = true ∧ ∃ ls rs,
      readOperand .compose .l s.lMem 0 s.nsamp = .ok ls ∧ readOperand .compose .r s.rMem 0 s.nsamp = .ok rs ∧
      (allSome (ls.map (dec32 s.params)) = none ∨ allSome (rs.map (dec32 s.params)) = none ∨ levelsOf s = none) ∧
      t = complete .nonFinite s) ∨
    (s.tapsValid = true ∧ ∃ ls rs l r lv bits taps,
      readOperand .compose .l s.lMem 0 s.nsamp = .ok ls ∧ readOperand .compose .r s.rMem 0 s.nsamp = .ok rs ∧
      allSome (ls.map (dec32 s.params)) = some l ∧ allSome (rs.map (dec32 s.params)) = some r ∧ levelsOf s = some lv ∧
      readOperand .compose .bit s.bitMem 0 s.bitLen = .ok bits ∧
      readOperand .compose .tap s.tapMem 0 s.ntaps = .ok taps ∧
      (∀ v ∈ composeSums (numType s.params) s.fs.toNat s.sps lv (diffenc bits) taps (l.zip r),
        (numType s.params).isFinite v = true) ∧
      t = complete .ok
        { s with
          outMem := memFill s.outMem
            ((composeSums (numType s.params) s.fs.toNat s.sps lv (diffenc bits) taps (l.zip r)).map
              (clampOut (numType s.params))) }) := by
  rw [execCompose] at h
  split at h
  · rename_i ht
    exact .inl ⟨ht, raiseError_next h⟩
  · rename_i ht
    have ht' : s.tapsValid = true := by simpa using ht
    obtain ⟨ls, h1, h2⟩ := withValue_next h
    obtain ⟨rs, h3, h4⟩ := withValue_next h2
    split at h4
    · rename_i l r lv hl hr hlv
      obtain ⟨bits, h5, h6⟩ := withValue_next h4
      obtain ⟨taps, h7, h8⟩ := withValue_next h6
      simp only at h8
      split at h8
      · cases h8
      · rename_i hn
        exact .inr (.inr ⟨ht', ls, rs, l, r, lv, bits, taps, h1, h3, hl, hr, hlv, h5, h7,
          (firstNonFinite_none _ _).1 hn, succeed_next h8⟩)
    · rename_i hno
      refine .inr (.inl ⟨ht', ls, rs, h1, h3, ?_, raiseError_next h4⟩)
      cases hl : allSome (ls.map (dec32 s.params)) with
      | none => exact .inl rfl
      | some l =>
        cases hr : allSome (rs.map (dec32 s.params)) with
        | none => exact .inr (.inl rfl)
        | some r =>
          cases hlv : levelsOf s with
          | none => exact .inr (.inr rfl)
          | some lv => exact absurd hlv (hno l r lv hl hr)

end Sys2Proof.Machine
end

