-- ==== Sys2Proof/Laws/Engine.lean ====
section
/-! SUPPORT. What a bus access, an engine step and a step of the machine can do, said once. -/

namespace Sys2Proof.Machine

/-- A read: rejected, unspecified, or a word of the state; only ACCERR, the replies and the draw counter change. -/
theorem busRead_cases (addr : BitVec 24) (size : Nat) (s : State) :
    (busTarget s addr size = none ∧ busRead addr size s = reply 0 (reject s)) ∨
    (∃ loc, busTarget s addr size = some loc ∧ (inWriteSet s loc = true ∨ readLoc s loc = none) ∧
      busRead addr size s = replyFree s) ∨
    (∃ loc w, busTarget s addr size = some loc ∧ inWriteSet s loc = false ∧ readLoc s loc = some w ∧
      busRead addr size s = reply w s) := by
  rw [busRead]
  cases ht : busTarget s addr size with
  | none => exact .inl ⟨rfl, rfl⟩
  | some loc =>
    refine .inr ?_
    cases hw : inWriteSet s loc with
    | true => exact .inl ⟨loc, rfl, .inl hw, by simp [hw]⟩
    | false =>
      cases hr : readLoc s loc with
      | none => exact .inl ⟨loc, rfl, .inr hr, by simp [hw, hr]⟩
      | some w => exact .inr ⟨loc, w, rfl, hw, hr, by simp [hw, hr]⟩

/-- A write: rejected, dropped, or taken. -/
theorem busWrite_cases (addr : BitVec 24) (size : Nat) (v : Word) (s : State) :
    ((busTarget s addr size = none ∨ ∃ loc, busTarget s addr size = some loc ∧ locWritable loc = false) ∧
      busWrite addr size v s = reject s) ∨
    (∃ loc, busTarget s addr size = some loc ∧ locWritable loc = true ∧ isBusy s = true ∧ loc ≠ .reg .status ∧
      busWrite addr size v s = { s with wBusy := true }) ∨
    (∃ loc, busTarget s addr size = some loc ∧ locWritable loc = true ∧ (isBusy s = false ∨ loc = .reg .status) ∧
      busWrite addr size v s = writeLoc loc v s) := by
  rw [busWrite]
  cases ht : busTarget s addr size with
  | none => exact .inl ⟨.inl rfl, rfl⟩
  | some loc =>
    cases hw : locWritable loc with
    | false => exact .inl ⟨.inr ⟨loc, rfl, hw⟩, by simp [hw]⟩
    | true =>
      by_cases hb : isBusy s = true ∧ loc ≠ .reg .status
      · exact .inr (.inl ⟨loc, rfl, hw, hb.1, hb.2, by simp [hw, hb]⟩)
      · refine .inr (.inr ⟨loc, rfl, hw, ?_, by simp [hw, hb]⟩)
        by_cases hl : loc = .reg .status
        · exact .inr hl
        · refine .inl ?_
          cases hbb : isBusy s with
          | false => rfl
          | true => exact absurd ⟨hbb, hl⟩ hb

/-- A located window word is below the window's reach. -/
theorem locate_mem {p : Params} {addr : Nat} {m : MemName} {k : Nat} (h : locate p addr = some (.mem m k)) :
    k < windowWords p m := by
  rw [locate] at h
  split at h
  · split at h <;> cases h
  · split at h
    · split at h
      · rename_i hk
        cases h
        exact hk
      · cases h
    · cases h

theorem busTarget_mem {s : State} {addr : BitVec 24} {size : Nat} {m : MemName} {k : Nat}
    (h : busTarget s addr size = some (.mem m k)) : k < windowWords s.params m := by
  rw [busTarget] at h
  split at h
  · exact locate_mem h
  · cases h

/-- The last engine step: a decoding error, or the decoded command. -/
theorem execute_next {w : Word} {s t : State} (h : execute w s = .next t) :
    (∃ code, decode w = .error code ∧ t = complete code s) ∨ (∃ i, decode w = .ok i ∧ exec i s = .next t) := by
  rw [execute] at h
  split at h
  · rename_i code hd
    exact .inl ⟨code, hd, raiseError_next h⟩
  · rename_i i hd
    exact .inr ⟨i, hd, h⟩

/-- An engine step: nothing, one step nearer to the end, or the last one. -/
theorem engineStep_next {s t : State} (h : engineStep s = .next t) :
    (s.eng = .idle ∧ t = s) ∨ (∃ w left, s.eng = .busy w (left + 1) ∧ t = { s with eng := .busy w left }) ∨
    (∃ w, s.eng = .busy w 0 ∧ execute w s = .next t) := by
  rw [engineStep] at h
  split at h
  · rename_i he
    cases h
    exact .inl ⟨he, rfl⟩
  · rename_i w he
    exact .inr (.inr ⟨w, he, h⟩)
  · rename_i w left he
    cases h
    exact .inr (.inl ⟨w, left, he, rfl⟩)

/-- A step: the engine's, a read, a write, a poll, or power-on reset. -/
theorem step_next {s t : State} (h : step s = .next t) :
    (∃ rest, engineStep { s with turns := rest } = .next t) ∨
    (∃ addr size rest, s.turns = .read addr size :: rest ∧ t = busRead addr size { s with turns := rest }) ∨
    (∃ addr size v rest, s.turns = .write addr size v :: rest ∧ t = busWrite addr size v { s with turns := rest }) ∨
    (∃ rest, s.turns = .wait :: rest ∧ t = pollStatus rest s) ∨
    (∃ rest, s.turns = .powerOn :: rest ∧ t = powerOnReset { s with turns := rest }) := by
  rw [step, nextMove] at h
  split at h
  · rename_i ht
    exact .inl ⟨[], by rw [← h, ← ht]⟩
  · rename_i rest ht
    exact .inl ⟨rest, h⟩
  · rename_i addr size rest ht
    cases h
    exact .inr (.inl ⟨addr, size, rest, ht, rfl⟩)
  · rename_i addr size v rest ht
    cases h
    exact .inr (.inr (.inl ⟨addr, size, v, rest, ht, rfl⟩))
  · rename_i rest ht
    cases h
    exact .inr (.inr (.inr (.inl ⟨rest, ht, rfl⟩)))
  · rename_i rest ht
    cases h
    exact .inr (.inr (.inr (.inr ⟨rest, ht, rfl⟩)))

/-- A poll reads STATUS and changes nothing else but the moves to come. -/
theorem pollStatus_eq (rest : List Turn) (s : State) :
    pollStatus rest s =
      { reply (statusWord s) s with turns := if isBusy s then .engine :: .wait :: rest else rest } := by
  have ht : busTarget s (locAddr (.reg .status)) 4 = some (.reg .status) := rfl
  have hw : inWriteSet s (.reg .status) = false := by
    rw [inWriteSet]
    split
    · rfl
    · rename_i c _
      cases c <;> rfl
  have hr : busRead (locAddr (.reg .status)) 4 s = reply (statusWord s) s := by
    rw [busRead, ht]
    simp [hw, readLoc, readReg]
  rw [pollStatus, hr]
  cases isBusy s <;> rfl

end Sys2Proof.Machine
end

