-- ==== Sys2Proof/Laws/PerInstr.lean ====
section
/-! SUPPORT. What is said of every instruction, one lemma per constructor. `TableRow` says that an instruction's word has its table
row's opcode, a zero RSV, and its operands in the fields SEL and IMM16, which are 0 where the row uses none (spec/30_encoding.md
R100 to R106). -/

namespace Sys2Proof

/-- The fields of a word made as R111 makes it. -/
theorem fields_of_word (imm : BitVec 16) (sel : BitVec 2) (opc : BitVec 8) :
    let w : Word := (imm.setWidth 32 <<< 16) ||| (sel.setWidth 32 <<< 8) ||| opc.setWidth 32
    opcField w = opc ∧ selField w = sel ∧ rsvField w = 0 ∧ immField w = imm := by
  refine ⟨?_, ?_, ?_, ?_⟩ <;> refine BitVec.eq_of_getLsbD_eq fun i hi => ?_
  · simp only [opcField, BitVec.getLsbD_extractLsb', BitVec.getLsbD_or, BitVec.getLsbD_shiftLeft,
      BitVec.getLsbD_setWidth]
    simp [hi, show i < 16 by omega, show i < 32 by omega]
  · simp only [selField, BitVec.getLsbD_extractLsb', BitVec.getLsbD_or, BitVec.getLsbD_shiftLeft,
      BitVec.getLsbD_setWidth]
    simp [hi, show 8 + i < 16 by omega, show 8 + i < 32 by omega, show i < 32 by omega]
  · simp only [rsvField, BitVec.getLsbD_extractLsb', BitVec.getLsbD_or, BitVec.getLsbD_shiftLeft,
      BitVec.getLsbD_setWidth]
    simp [show 10 + i < 16 by omega, BitVec.getLsbD_of_ge opc (10 + i) (by omega),
      BitVec.getLsbD_of_ge sel (10 + i - 8) (by omega)]
  · simp only [immField, BitVec.getLsbD_extractLsb', BitVec.getLsbD_or, BitVec.getLsbD_shiftLeft,
      BitVec.getLsbD_setWidth]
    simp [hi, show 16 + i < 32 by omega, show i < 32 by omega, BitVec.getLsbD_of_ge opc (16 + i) (by omega),
      BitVec.getLsbD_of_ge sel (16 + i - 8) (by omega)]

namespace Laws.TableRow

/-- The word of an instruction, field by field. -/
def Statement (i : Instr) : Prop :=
  opcField (encode i) = i.mnemonic.opcode ∧ selField (encode i) = i.sel ∧ rsvField (encode i) = 0 ∧
    immField (encode i) = i.imm ∧ (i.mnemonic.usesSel = false → i.sel = 0) ∧ (i.mnemonic.usesImm = false → i.imm = 0)

/-- The four fields of any instruction's word. -/
theorem fields (i : Instr) :
    opcField (encode i) = i.mnemonic.opcode ∧ selField (encode i) = i.sel ∧ rsvField (encode i) = 0 ∧
      immField (encode i) = i.imm :=
  fields_of_word i.imm i.sel i.mnemonic.opcode

/-- The row from its fields and from the fields it does not use. -/
theorem of_fields (i : Instr) (hs : i.mnemonic.usesSel = false → i.sel = 0)
    (hm : i.mnemonic.usesImm = false → i.imm = 0) : Statement i := by
  obtain ⟨h1, h2, h3, h4⟩ := fields i
  exact ⟨h1, h2, h3, h4, hs, hm⟩

theorem nop : Statement .nop := of_fields _ (fun _ => rfl) fun _ => rfl
theorem srst : Statement .srst := of_fields _ (fun _ => rfl) fun _ => rfl
theorem crc10 (imm : BitVec 16) : Statement (.crc10 imm) := of_fields _ (fun _ => rfl) nofun
theorem pack (blk : Block) (imm : BitVec 16) : Statement (.pack blk imm) := of_fields _ nofun nofun
theorem grp0a (imm : BitVec 16) : Statement (.grp0a imm) := of_fields _ (fun _ => rfl) nofun
theorem grp2a (imm : BitVec 16) : Statement (.grp2a imm) := of_fields _ (fun _ => rfl) nofun
theorem psload (imm : BitVec 16) : Statement (.psload imm) := of_fields _ (fun _ => rfl) nofun
theorem rtload (imm : BitVec 16) : Statement (.rtload imm) := of_fields _ (fun _ => rfl) nofun
theorem nextgrp : Statement .nextgrp := of_fields _ (fun _ => rfl) fun _ => rfl
theorem genbits (imm : BitVec 16) : Statement (.genbits imm) := of_fields _ (fun _ => rfl) nofun
theorem seqrst : Statement .seqrst := of_fields _ (fun _ => rfl) fun _ => rfl
theorem design : Statement .design := of_fields _ (fun _ => rfl) fun _ => rfl
theorem diffenc : Statement .diffenc := of_fields _ (fun _ => rfl) fun _ => rfl
theorem shape : Statement .shape := of_fields _ (fun _ => rfl) fun _ => rfl
theorem mix (car : Carrier) : Statement (.mix car) := of_fields _ nofun fun _ => rfl
theorem modulate (car : Carrier) : Statement (.modulate car) := of_fields _ nofun fun _ => rfl
theorem compose : Statement .compose := of_fields _ (fun _ => rfl) fun _ => rfl

end Laws.TableRow

end Sys2Proof
end

