-- ==== Sys2Proof/Tests/Slice0.lean ====
section
/-! SUPPORT. Tests: decoding of words written out from the encoding tables, the ill-formed term that each check refuses, one step per
instruction with a result taken from the spec, and for each statement with hypotheses a state and operands that meet them. A `T<n>` is a
vector of spec/95_test_vectors.md, an `R<n>` the worked example of that rule. -/

namespace Sys2Proof.Tests

set_option Elab.async false

open Sys2Proof.Machine Sys2Proof.Statements

/-! ### Helpers -/

/-- The next state of an outcome. -/
def after : Result → Option State
  | .next t => some t
  | .fault _ => none
  | .refused _ => none

/-- The fault of an outcome. -/
def stopped : Result → Option Fault
  | .next _ => none
  | .fault f => some f
  | .refused _ => none

/-- What the host would read of a register after an outcome. -/
def regAfter (r : Reg) (o : Result) : Option Word := (after o).map fun t => readReg t r

/-- What the host would read of a window word after an outcome. -/
def memAfter (m : MemName) (k : Nat) (o : Result) : Option Word := (after o).bind fun t => readMem t m k

/-- The reset state with a command in its last engine step. -/
def inFlightState (w : Word) (s : State) : State := placeCommand w s

/-- A state with the moves `ts` to come. -/
def withTurns (ts : List Turn) (s : State) : State := { s with turns := ts }

/-- A text as 64 bytes, 0x00 beyond it. -/
def textBytes (bs : List Byte) : Vector Byte 64 := Vector.ofFn fun j => bs.getD j.val 0

/-- "RADIO" padded to eight bytes, and "Welcome to RADIO". -/
def radioPs : Vector Byte 8 := #v[0x52, 0x41, 0x44, 0x49, 0x4F, 0x20, 0x20, 0x20]
def welcome : List Byte :=
  [0x57, 0x65, 0x6C, 0x63, 0x6F, 0x6D, 0x65, 0x20, 0x74, 0x6F, 0x20, 0x52, 0x41, 0x44, 0x49, 0x4F]

/-- PI = 0x1234, PS = "RADIO", RT = "Welcome to RADIO" (T14, T15). -/
def stationState : State :=
  { State.reset with
    pi := 0x1234
    ps := radioPs
    rt := Vector.ofFn fun j => welcome.getD j.val 0x20 }

/-- A logo of 210 bits of which bits 208 and 209, the last chunk, are 1 and 0 (T18, call 11). -/
def lastChunkState : State :=
  { State.reset with
    ctrl := 2
    logoLen := 210
    logoCur := 208
    cyc := 10
    logoMem := [(208, true), (209, false)] }

/-- A logo of three bits, all defined, at a call that emits a chunk. -/
def smallLogoState : State :=
  { State.reset with ctrl := 2, logoLen := 3, logoMem := [(0, true), (1, false), (2, true)] }

/-- The value `k` of the default Num. -/
def val (k : Int) : NumVal := ofNum64 (num k)

/-- A one-tap filter of value 1 at two samples per symbol, and the bits 1, 1. It belongs to no rate, so it meets the hypotheses of the
statements about one command, not the invariant. -/
def filterState : State :=
  { State.reset with
    tapsValid := true
    fs := 4750
    sps := 2
    ntaps := 1
    tapMem := [(0, val 1)]
    bitLen := 2
    bitMem := [(0, true), (1, true)]
    symLen := 2
    symMem := [(0, .minus), (1, .plus)]
    bbLen := 1
    bbMem := [(0, val 1)] }

/-! ### Decoding (R106, R107; T9, T10) -/

theorem test_decode_nop : decode 0x00000000 = .ok .nop := by decide
theorem test_decode_srst : decode 0x00000001 = .ok .srst := by decide
theorem test_decode_crc10 : decode 0x12340010 = .ok (.crc10 0x1234) := by decide
theorem test_decode_pack : decode 0x12340111 = .ok (.pack .b 0x1234) ∧ decode 0xFFFF0311 = .ok (.pack .d 0xFFFF) := by
  decide
theorem test_decode_grp0a : decode 0x00070012 = .ok (.grp0a 7) := by decide
theorem test_decode_grp2a : decode 0x000F0013 = .ok (.grp2a 15) := by decide
theorem test_decode_psload : decode 0x00050014 = .ok (.psload 5) := by decide
theorem test_decode_rtload : decode 0x00100015 = .ok (.rtload 16) := by decide
theorem test_decode_nextgrp : decode 0x00000018 = .ok .nextgrp := by decide
theorem test_decode_genbits : decode 0x04A20019 = .ok (.genbits 1186) := by decide
theorem test_decode_seqrst : decode 0x0000001A = .ok .seqrst := by decide
theorem test_decode_design : decode 0x00000020 = .ok .design := by decide
theorem test_decode_diffenc : decode 0x00000021 = .ok .diffenc := by decide
theorem test_decode_shape : decode 0x00000022 = .ok .shape := by decide
theorem test_decode_mix : decode 0x00000023 = .ok (.mix .c57) ∧ decode 0x00000323 = .ok (.mix .c85) := by decide
theorem test_decode_modulate : decode 0x00000224 = .ok (.modulate .c76) := by decide
theorem test_decode_compose : decode 0x00000030 = .ok .compose := by decide

/-- T10: E_OPC before E_FIELD. -/
theorem test_decode_unassigned :
    decode 0x00000002 = .error .opc ∧ decode 0x000000FF = .error .opc ∧ decode 0x0001FC16 = .error .opc := by decide

/-- T10: every unused field refused. -/
theorem test_decode_malformed :
    decode 0x00000400 = .error .field ∧ decode 0x00010000 = .error .field ∧ decode 0x00000110 = .error .field ∧
      decode 0x00010020 = .error .field ∧ decode 0x00010023 = .error .field ∧ decode 0x00000130 = .error .field ∧
      decode 0x00008011 = .error .field := by decide

/-- T9: the encoder makes the tabulated words. -/
theorem test_encode_words :
    encode (.crc10 0x1234) = 0x12340010 ∧ encode (.pack .d 0xFFFF) = 0xFFFF0311 ∧ encode (.genbits 1186) = 0x04A20019 ∧
      encode (.mix .c85) = 0x00000323 ∧ encode (.modulate .c76) = 0x00000224 := by decide

/-- T9: a table row's bits through the host's two definitions; a word placed so is run by the next step. -/
theorem test_fetch_word :
    decodeTableWord 32 0x12340010 = some (.crc10 0x1234) ∧ decodeTableWord 32 2 = none ∧
      regAfter .result (step (State.reset.withFetchWord 32 0x12340010)) = some 0x96 := by decide +kernel

/-! ### Well-formedness -/

/-- R8: each bound of each capacity refuses the value beyond it. -/
theorem test_params_refused :
    Params.default.wellFormed = true ∧
      ({ Params.default with sampleCap := 0 } : Params).wellFormed = false ∧
      ({ Params.default with sampleCap := 262145 } : Params).wellFormed = false ∧
      ({ Params.default with bitCap := 0 } : Params).wellFormed = false ∧
      ({ Params.default with bitCap := 65537 } : Params).wellFormed = false ∧
      ({ Params.default with logoCap := 0 } : Params).wellFormed = false ∧
      ({ Params.default with logoCap := 4194305 } : Params).wellFormed = false ∧
      ({ Params.default with tapCap := 40 } : Params).wellFormed = false ∧
      ({ Params.default with tapCap := 262145 } : Params).wellFormed = false := by decide

/-- R73, R74: another size and a misaligned address are refused. -/
theorem test_access_refused :
    accessWellFormed 0x000010 4 = true ∧ accessWellFormed 0x000010 2 = false ∧ accessWellFormed 0x000012 4 = false ∧
      (Turn.read 0x000001 4).wellFormed = false ∧ (Turn.write 0x000000 8 0).wellFormed = false := by decide

/-- R111: an immediate beyond 65535 is refused, alone and in a line. -/
theorem test_operand_refused :
    (AsmOperand.imm 65535).wellFormed = true ∧ (AsmOperand.imm 65536).wellFormed = false ∧
      ({ mnemonic := "GENBITS", operands := [.imm 65536] } : AsmLine).wellFormed = false := by decide

/-- R8, R13: a Num without a finite value and a Num whose `=` is false of equal values are no models of R13. -/
theorem test_num_refused :
    ¬({ oneValueNum with isFinite := fun _ => false } : NumType).Legal ∧
      ¬({ oneValueNum with eq := fun _ _ => false } : NumType).Legal :=
  ⟨fun ⟨_, _, m⟩ => by
      obtain ⟨a, ha, _⟩ := m.half
      have := m.isFinite oneValueNum.half
      rw [show oneValueNum.half = _ from rfl, ha] at this
      exact Bool.false_ne_true this,
    fun ⟨_, _, m⟩ => by
      obtain ⟨a, ha, _⟩ := m.half
      exact Bool.false_ne_true ((m.eq _ _ a a ha ha).2 rfl)⟩

/-! ### Numbers (R13, R14, R238) -/

/-- 0.5 and 0.0625 as binary32 words, and back; NaN and infinity have no value. -/
theorem test_words :
    decBinary32 0x3F000000 = some numHalf ∧ encBinary32 numHalf = 0x3F000000 ∧ decBinary32 0x7FC00000 = none ∧
      decBinary32 0x7F800000 = none ∧ (decBinary32 0x3D800000).map encBinary32 = some 0x3D800000 := by decide +kernel

/-- R8, R14: the same through the block's conversions, at the defaults. -/
theorem test_block_words :
    dec32 Params.default 0x3F000000 = some (ofNum64 numHalf) ∧ dec32 Params.default 0xFF800000 = none ∧
      (dec32 Params.default 0x80000000).map (enc32 Params.default) = some 0x80000000 := by decide +kernel

/-- R8: another Num and other conversions are the arguments', and no value that such a dec32 gives is non-finite. -/
theorem test_other_parameters :
    let p := { Params.default with num := .other 3, format := .other 2 }
    numType p = (Config.otherNum 3).num ∧ (∀ v, enc32 p v = (Config.otherFormat 2).encode v) ∧
      ∀ w v, dec32 p w = some v → (Config.otherNum 3).num.isFinite v = true :=
  ⟨rfl, fun _ => rfl, fun _ _ h => dec32_finite h⟩

/-- R238: the host reads 0.999 as 0x3F7FBE77, and −0.999 with the sign bit. -/
theorem test_clamp_words :
    encBinary32 numClamp = 0x3F7FBE77 ∧ enc32 Params.default (clampOut binary64Num (val 2)) = 0x3F7FBE77 ∧
      enc32 Params.default (clampOut binary64Num (val (-2))) = 0xBF7FBE77 := by
  decide +kernel

/-- Binary64 by hand: 1/3 rounds to 0x3FD5555555555555, and 3 · (1/3) rounds to 1. -/
theorem test_binary64_rounding :
    numDiv (num 1) (num 3) = ⟨0x3FD5555555555555⟩ ∧ numMul (num 3) (numDiv (num 1) (num 3)) = num 1 ∧
      num 1 = ⟨0x3FF0000000000000⟩ ∧ numSub (num 1) (num 3) = num (-2) := by decide +kernel

/-! ### Instructions -/

/-- R250: NOP gives DONE = 1 and ERR = 0. -/
theorem test_nop : regAfter .status (exec .nop (inFlightState 0 State.reset)) = some 0x2 := by decide +kernel

/-- R250, R266: a NOP word with IMM16 = 1 completes with E_FIELD. -/
theorem test_nop_malformed : regAfter .status (step (inFlightState 0x00010000 State.reset)) = some 0x22 := by
  decide +kernel

/-- R251: CTRL, FS, the filter, CYC and PS as after reset, STATUS = 2, the SRST word in CMD. -/
theorem test_srst :
    let o := step (inFlightState 1 { filterState with ctrl := 5, cyc := 7, ps := radioPs })
    regAfter .ctrl o = some 0 ∧ regAfter .fs o = some 0 ∧ regAfter .sps o = some 0 ∧ regAfter .ntaps o = some 0 ∧
      regAfter .seqCyc o = some 0 ∧ regAfter (.ps 1) o = some 0x20202020 ∧ regAfter .status o = some 2 ∧
      regAfter .cmd o = some 1 := by decide +kernel

/-- SRST keeps the memories (R251). -/
theorem test_srst_memories : (after (exec .srst filterState)).map (fun t => t.bitMem) = some filterState.bitMem := by
  decide +kernel

/-- R140; T11. -/
theorem test_crc10 : regAfter .result (exec (.crc10 0x1234) State.reset) = some 0x96 := by decide +kernel
theorem test_crc10_table : [crc10 0x0001, crc10 0x8000, crc10 0xABCD, crc10 0xFFFF] = [0x1B9, 0x077, 0x05B, 0x0CD] := by
  decide +kernel

/-- R141; T11: a word whose checkword the offset word cancels. -/
theorem test_pack : regAfter .result (exec (.pack .b 0x1234) State.reset) = some 0x0048D10E := by decide +kernel
theorem test_pack_zero_checkword : regAfter .result (exec (.pack .c 0x2020) State.reset) = some 0x0808000 := by
  decide +kernel

/-- R142; T14 segment 0. -/
theorem test_grp0a :
    (after (exec (.grp0a 0) stationState)).map (fun t => (t.gbuf.toList, ginfoWord t)) =
      some ([0x12341A80, 0x00198000, 0x05A14904, 0x6E000000], 0x168) := by decide +kernel

/-- T14: segments above 3 give segment 3. -/
theorem test_grp0a_clamped :
    (after (exec (.grp0a 65535) stationState)).map (fun t => t.gbuf.toList) =
      some [0x12341A80, 0x00F53000, 0x05A08080, 0xDC000000] := by decide +kernel

/-- R143; T15 segments 1 and 15. -/
theorem test_grp2a :
    (after (exec (.grp2a 1) stationState)).map (fun t => (t.gbuf.toList, ginfoWord t)) =
      some ([0x12341A88, 0x0078E6F6, 0xD9E99481, 0x97000000], 0x268) := by decide +kernel
theorem test_grp2a_clamped :
    (after (exec (.grp2a 16) stationState)).map (fun t => t.gbuf.toList) =
      some [0x12341A88, 0x03CA2202, 0x00008080, 0xDC000000] := by decide +kernel

/-- R144; T13: the text is padded after 5 bytes, and taken as it is up to 8. -/
theorem test_psload :
    let s := { State.reset with txt := textBytes [0x52, 0x41, 0x44, 0x49, 0x4F] }
    regAfter (.ps 0) (exec (.psload 5) s) = some 0x52414449 ∧ regAfter (.ps 1) (exec (.psload 5) s) = some 0x4F202020 ∧
      regAfter (.ps 1) (exec (.psload 65535) s) = some 0x4F000000 := by decide +kernel

/-- R145; T13. -/
theorem test_rtload :
    let o := exec (.rtload 16) { State.reset with txt := textBytes welcome }
    regAfter (.rt 0) o = some 0x57656C63 ∧ regAfter (.rt 3) o = some 0x4144494F ∧ regAfter (.rt 4) o = some 0x20202020 ∧
      regAfter (.rt 15) o = some 0x20202020 := by decide +kernel

/-- T17 calls 3 and 4: at CYC 2 a 2A group that advances RT_IDX, at CYC 3 the 0A group of segment 3. -/
theorem test_nextgrp :
    let o := exec .nextgrp { stationState with cyc := 2 }
    let p := exec .nextgrp { stationState with cyc := 3 }
    regAfter .ginfo o = some 0x268 ∧ regAfter .seqCyc o = some 3 ∧ regAfter .seqRt o = some 1 ∧
      regAfter .ginfo p = some 0x168 ∧ regAfter (.gbuf 1) p = some 0x00F53000 ∧ regAfter .seqRt p = some 0 := by
  decide +kernel

/-- T18 call 11: the two last logo bits, raw, and the cursor wraps. -/
theorem test_nextgrp_logo :
    let o := exec .nextgrp lastChunkState
    regAfter .ginfo o = some 0x302 ∧ regAfter .logoCur o = some 0 ∧ regAfter .seqCyc o = some 11 ∧
      regAfter (.gbuf 0) o = some 0x80000000 := by decide +kernel

/-- R169; T19: 200 bits of the first two groups. -/
theorem test_genbits :
    let o := exec (.genbits 200) stationState
    regAfter .bitLen o = some 200 ∧ regAfter .seqCyc o = some 2 ∧ regAfter .seqRt o = some 0 ∧
      memAfter .bit 0 o = some 0x12341A80 ∧ memAfter .bit 6 o = none := by decide +kernel

/-- R169: beyond BIT_CAP, E_CAP and the sequencer unchanged. -/
theorem test_genbits_capacity :
    let o := exec (.genbits 33) { State.reset with params := { Params.default with bitCap := 32 } }
    regAfter .status o = some 0x52 ∧ regAfter .seqCyc o = some 0 := by decide +kernel

/-- R170. -/
theorem test_seqrst :
    let o := exec .seqrst { lastChunkState with cyc := 17, rtIdx := 3 }
    regAfter .seqCyc o = some 0 ∧ regAfter .seqRt o = some 0 ∧ regAfter .logoCur o = some 0 := by decide +kernel

/-- R203; T20: FS = 4749 is refused, 4750 gives SPS 4 and 41 taps. -/
theorem test_design :
    regAfter .status (exec .design { State.reset with fs := 4749 }) = some 0x32 ∧
      regAfter .sps (exec .design { State.reset with fs := 4750 }) = some 4 ∧
      regAfter .ntaps (exec .design { State.reset with fs := 4750 }) = some 41 ∧
      regAfter .status (exec .design { State.reset with fs := 4750 }) = some 0x6 := by decide +kernel

/-- T20: the default capacity ends at FS = 810469. -/
theorem test_design_capacity :
    regAfter .status (exec .design { State.reset with fs := 810469 }) = some 0x52 ∧ ntapsOf (spsOf 810468) = 4093 ∧
      ntapsOf (spsOf 8000) = 43 ∧ ntapsOf (spsOf 192000) = 973 := by decide +kernel

/-- R204: the bits 0, 0, 1, 0, 1, 1. -/
theorem test_diffenc :
    (after (exec .diffenc { State.reset with
        bitLen := 6
        bitMem := [(0, false), (1, false), (2, true), (3, false), (4, true), (5, true)] })).map (fun t =>
      (t.symMem, t.symLen)) =
      some ([(0, .plus), (1, .plus), (2, .minus), (3, .minus), (4, .plus), (5, .minus)], 6) := by decide +kernel

/-- R204: an undefined bit is UNDEF_READ at it. -/
theorem test_diffenc_undefined :
    stopped (exec .diffenc { State.reset with bitLen := 2, bitMem := [(0, true)] }) = some (.undefRead .diffenc .bit 1) := by
  decide +kernel

/-- R205 by hand: one tap of value 1 leaves the impulse train −1, 0, +1, 0. -/
theorem test_shape :
    (after (exec .shape filterState)).map (fun t => (t.bbMem.map Prod.snd, t.bbLen)) =
      some ([val (-1), val 0, val 1, val 0], 4) := by decide +kernel

/-- R264: E_NOTAPS, and with a filter E_CAP. -/
theorem test_shape_errors :
    regAfter .status (exec .shape { filterState with tapsValid := false }) = some 0x42 ∧
      regAfter .status (exec .shape { filterState with params := { Params.default with sampleCap := 3 } }) = some 0x56 := by
  decide +kernel

/-- R206: BB_LEN = 0 gives SUB_LEN = 0; without a filter E_NOTAPS. -/
theorem test_mix :
    regAfter .subLen (exec (.mix .c66) { filterState with bbLen := 0, subLen := 9 }) = some 0 ∧
      regAfter .status (exec (.mix .c66) State.reset) = some 0x42 := by decide +kernel

/-- R207, by hand as `test_shape`: symbols −1, +1 from the bits 1, 1, and the three lengths. -/
theorem test_modulate :
    (after (exec (.modulate .c57) filterState)).map (fun t =>
      (t.symMem, t.bbMem.map Prod.snd, t.symLen, t.bbLen, t.subLen)) =
      some ([(0, .minus), (1, .plus)], [val (-1), val 0, val 1, val 0], 2, 4, 4) := by decide +kernel

/-- R207, R263: on E_CAP none of the three memories changes. -/
theorem test_modulate_error :
    let o := exec (.modulate .c57) { filterState with params := { Params.default with sampleCap := 3 } }
    regAfter .status o = some 0x56 ∧ (after o).map (fun t => t.symMem) = some filterState.symMem ∧
      (after o).map (fun t => t.bbMem) = some filterState.bbMem ∧ (after o).map (fun t => t.subMem) = some [] := by
  decide +kernel

/-- R241: a NaN sample is E_NONFINITE; RDS2_LEVEL counts only with RDS2_EN = 1. -/
theorem test_compose_nonfinite :
    regAfter .status (exec .compose
        { filterState with nsamp := 1, lMem := [(0, 0x7FC00000)], rMem := [(0, 0)] }) = some 0x66 ∧
      regAfter .status (exec .compose { filterState with rds2Level := 0x7F800000 }) = some 0x6 ∧
      regAfter .status (exec .compose { filterState with ctrl := 1, rds2Level := 0x7F800000 }) = some 0x66 := by
  decide +kernel

/-- R230: E_NOTAPS comes before any read; with a filter an undefined sample is UNDEF_READ. -/
theorem test_compose_order :
    regAfter .status (exec .compose { State.reset with nsamp := 1 }) = some 0x42 ∧
      stopped (exec .compose { filterState with nsamp := 1 }) = some (.undefRead .compose .l 0) := by decide +kernel

/-! ### Host accesses -/

/-- R74, R75: a misaligned read and an unmapped write are rejected. -/
theorem test_bus_rejected :
    (after (step (withTurns [.read 0x000002 4] State.reset))).map (fun t => (t.replies, t.accErr)) = some ([0], true) ∧
      (after (step (withTurns [.write 0x000140 4 1] State.reset))).map (fun t => t.accErr) = some true := by decide +kernel

/-- R76: PI is writable, ID is not. -/
theorem test_bus_access_types :
    regAfter .pi (step (withTurns [.write 0x000018 4 0xABCD1234] State.reset)) = some 0x1234 ∧
      regAfter .status (step (withTurns [.write 0x000000 4 1] State.reset)) = some 0x100 := by decide +kernel

/-- R78: "RADI" is the word 0x52414449. -/
theorem test_bus_text :
    (after (step (withTurns [.write 0x000100 4 0x52414449] State.reset))).map (fun t => t.txt.toList.take 5) =
      some [0x52, 0x41, 0x44, 0x49, 0] := by decide +kernel

/-- R83: a CMD write while busy is dropped and sets WBUSY; STATUS reads its current value. -/
theorem test_bus_busy :
    let s := { inFlightState 0 State.reset with turns := [.write 0x000010 4 1] }
    regAfter .status (step s) = some 0x201 ∧ regAfter .cmd (step s) = some 0 := by decide +kernel

/-- R30, R36: the side effects of FS and LOGO_LEN; the legal value of LOGO_LEN at LOGO_CAP = 2058. -/
theorem test_bus_side_effects :
    regAfter .ntaps (step (withTurns [.write 0x00001C 4 4750] filterState)) = some 0 ∧
      regAfter .logoLen (step (withTurns [.write 0x000034 4 5000] lastChunkState)) = some 2058 ∧
      regAfter .logoCur (step (withTurns [.write 0x000034 4 5000] lastChunkState)) = some 0 := by decide +kernel

/-- R79: bit 31 of word 1 of BIT_MEM is element 32. -/
theorem test_bus_packed :
    (after (step (withTurns [.write 0x700004 4 0x80000001] State.reset))).map (fun t =>
      (memGet t.bitMem 32, memGet t.bitMem 33, memGet t.bitMem 63, memGet t.bitMem 31)) =
      some (some true, some false, some true, none) := by decide +kernel

/-- R111, R113: lines of T9, and a line the assembler rejects. -/
theorem test_assembler :
    (assemble { mnemonic := "PACK", operands := [.name "B", .imm 0x1234] }).map encode = some 0x12340111 ∧
      (assemble { mnemonic := "MODULATE", operands := [.name "C76"] }).map encode = some 0x00000224 ∧
      assemble { mnemonic := "GENBITS", operands := [.imm 65536] } = none ∧
      assemble { mnemonic := "NOP", operands := [.imm 0] } = none ∧
      lineTurns (.issue { mnemonic := "CRC10", operands := [.imm 0x1234] }) =
        some [.write 0x000010 4 0x12340010] := by decide +kernel

/-- R114: `wrf PILOT_LEVEL, 0.0625` writes 0x3D800000, and `wait` polls until BUSY = 0. -/
theorem test_assembler_wrf :
    lineTurns (.wrf (.reg .pilotLevel) { neg := false, digits := 625, places := 4 }) =
        some [.write 0x000020 4 0x3D800000] ∧
      (after (step (withTurns [.wait] State.reset))).map (fun t => (t.turns, t.replies)) = some ([], [0]) := by
  decide +kernel

/-! ### Witnesses

For each statement with hypotheses, a state and operands that meet them all, clause by clause where it has clauses. -/

/-- The state in which the next move is a host write. -/
def writeState (s : State) (addr : BitVec 24) (v : Word) : State := withTurns [.write addr 4 v] s

/-- The code a command completes with. -/
def codeAfter (o : Result) : Option ErrCode := (after o).map fun t => t.err

theorem witness_EncodeOfDecodeIsTheWord : decode 0xFFFF0311 = .ok (.pack .d 0xFFFF) := by decide

/-- Both ends of each range of unassigned opcodes. -/
theorem witness_UnassignedOpcodesRaiseEOpc :
    (∀ w : Word, (inFlightState w State.reset).turns = [] ∧ (inFlightState w State.reset).eng = .busy w 0) ∧
    ∀ n ∈ ([0x02, 0x0F, 0x16, 0x17, 0x1B, 0x1F, 0x25, 0x2F, 0x31, 0xFF] : List Nat),
      ((BitVec.ofNat 32 n).extractLsb' 0 8).toNat = n ∧
        ((0x02 ≤ n ∧ n ≤ 0x0F) ∨ (0x16 ≤ n ∧ n ≤ 0x17) ∨ (0x1B ≤ n ∧ n ≤ 0x1F) ∨ (0x25 ≤ n ∧ n ≤ 0x2F) ∨
          (0x31 ≤ n ∧ n ≤ 0xFF)) :=
  ⟨fun _ => ⟨rfl, rfl⟩, by decide⟩

/-- A word for each malformed field: RSV at both its ends, SEL, IMM16. -/
theorem witness_MalformedFieldsRaiseEField :
    (∀ w : Word, (inFlightState w State.reset).turns = [] ∧ (inFlightState w State.reset).eng = .busy w 0) ∧
    ((0x00000400 : Word).extractLsb' 10 6 ≠ 0 ∧ ((0x00000400 : Word).extractLsb' 0 8).toNat = 0x00) ∧
    ((0x00008011 : Word).extractLsb' 10 6 ≠ 0 ∧ ((0x00008011 : Word).extractLsb' 0 8).toNat = 0x11) ∧
    ((0x00000110 : Word).extractLsb' 8 2 ≠ 0 ∧ ((0x00000110 : Word).extractLsb' 0 8).toNat = 0x10) ∧
    ((0x00010020 : Word).extractLsb' 16 16 ≠ 0 ∧ ((0x00010020 : Word).extractLsb' 0 8).toNat = 0x20) :=
  ⟨fun _ => ⟨rfl, rfl⟩, by decide⟩

theorem witness_StepRunsTheCommandInFlight :
    let s := inFlightState 0x12340010 State.reset
    s.eng = .busy 0x12340010 0 ∧ decode 0x12340010 = .ok (.crc10 0x1234) ∧ s.turns = [] ∧
      (withTurns [.engine, .wait] s).turns = .engine :: [.wait] ∧ decodeTableWord 32 0x12340010 = some (.crc10 0x1234) := by
  decide

theorem witness_AcceptedCommandEndsAfterItsLatency :
    (acceptWith 0 0 State.reset).turns = [] ∧ (acceptWith 0 0 State.reset).eng = .busy 0 0 ∧
      (acceptWith 0 3 State.reset).turns = [] ∧ (acceptWith 0 3 State.reset).eng = .busy 0 3 := by decide

theorem witness_CommandWriteIsAcceptedWhenIdle :
    (writeState State.reset 0x000010 5).turns = .write 0x000010 4 5 :: [] ∧
      (writeState State.reset 0x000010 5).eng = .idle ∧
      (writeState (acceptWith 1 2 State.reset) 0x000010 5).turns = .write 0x000010 4 5 :: [] ∧
      (writeState (acceptWith 1 2 State.reset) 0x000010 5).eng = .busy 1 2 := by decide

theorem witness_FailedCommandsChangeOnlyStatus :
    codeAfter (execute 0x00000002 State.reset) = some .opc ∧ codeAfter (execute 0x00000020 State.reset) = some .rate := by
  decide +kernel

theorem witness_EveryCompletionSetsDone :
    codeAfter (execute 0x12340010 State.reset) = some .ok ∧ codeAfter (execute 0x00000400 State.reset) = some .field := by
  decide +kernel

/-- E_RATE at the last rate below 4750, and OK at 4750. -/
theorem witness_RateErrorExactlyAtLowRates :
    codeAfter (exec .design { State.reset with fs := 4749 }) = some .rate ∧
      codeAfter (exec .design { State.reset with fs := 4750 }) = some .ok := by decide +kernel

theorem witness_NoTapsErrorExactlyWithoutFilter :
    codeAfter (exec .shape State.reset) = some .noTaps ∧ codeAfter (exec (.mix .c57) State.reset) = some .noTaps ∧
      codeAfter (exec (.modulate .c85) State.reset) = some .noTaps ∧ codeAfter (exec .compose State.reset) = some .noTaps ∧
      codeAfter (exec .shape filterState) = some .ok := by decide +kernel

/-- E_CAP one beyond each capacity, and OK at it. -/
theorem witness_CapacityErrorExactlyBeyondCapacity :
    codeAfter (exec .design { State.reset with fs := 810469 }) = some .cap ∧
      codeAfter (exec .design { State.reset with fs := 810468 }) = some .ok ∧
      codeAfter (exec (.genbits 33) { State.reset with params := { Params.default with bitCap := 32 } }) = some .cap ∧
      codeAfter (exec (.genbits 32) { State.reset with params := { Params.default with bitCap := 32 } }) = some .ok ∧
      codeAfter (exec .shape { filterState with params := { Params.default with sampleCap := 3 } }) = some .cap ∧
      codeAfter (exec .shape { filterState with params := { Params.default with sampleCap := 4 } }) = some .ok ∧
      codeAfter (exec (.modulate .c57) { filterState with params := { Params.default with sampleCap := 3 } }) = some .cap ∧
      codeAfter (exec (.modulate .c57) { filterState with params := { Params.default with sampleCap := 4 } }) = some .ok := by
  decide +kernel

theorem witness_NonFiniteErrorExactlyOnNonFiniteInput :
    codeAfter (exec .compose { filterState with nsamp := 1, lMem := [(0, 0x7F800000)], rMem := [(0, 0)] }) =
        some .nonFinite ∧
      codeAfter (exec .compose { filterState with nsamp := 1, lMem := [(0, 0)], rMem := [(0, 0xFF800000)] }) =
        some .nonFinite ∧
      codeAfter (exec .compose { filterState with pilotLevel := 0x7FC00000 }) = some .nonFinite ∧
      codeAfter (exec .compose { filterState with rdsLevel := 0x7FC00000 }) = some .nonFinite ∧
      codeAfter (exec .compose { filterState with ctrl := 1, rds2Level := 0x7FC00000 }) = some .nonFinite ∧
      codeAfter (exec .compose filterState) = some .ok := by decide +kernel

theorem witness_UndefReadNamesAnUndefinedElement :
    stopped (exec (.genbits 1) { smallLogoState with logoMem := [] }) = some (.undefRead .genbits .logo 0) := by
  decide +kernel

/-- The last element of each operand range undefined; for GENBITS a chunk at once, and a chunk after the five emissions that bring CYC
to the next multiple of 5. -/
theorem witness_UndefinedOperandStopsTheCommand :
    let s := { filterState with bitMem := [(0, true)], symMem := [(0, .minus)], bbMem := [], nsamp := 1 }
    let r := { s with lMem := [(0, 0)] }
    let b := { r with rMem := [(0, 0)] }
    let g := { smallLogoState with logoMem := [(0, true), (1, false)] }
    (1 < s.bitLen ∧ memGet s.bitMem 1 = none) ∧
      (s.tapsValid = true ∧ s.symLen * s.sps ≤ s.params.sampleCap ∧ 1 < s.symLen ∧ memGet s.symMem 1 = none) ∧
      (0 < s.bbLen ∧ memGet s.bbMem 0 = none) ∧ s.bitLen * s.sps ≤ s.params.sampleCap ∧
      (0 < s.nsamp ∧ memGet s.lMem 0 = none) ∧ (0 < r.nsamp ∧ memGet r.lMem 0 = some 0 ∧ memGet r.rMem 0 = none) ∧
      (b.nsamp = 1 ∧ memGet b.lMem 0 = some 0 ∧ memGet b.rMem 0 = some 0 ∧ dec32 b.params 0 = some (val 0) ∧
        levelsDecode b (val 0) (val 0) none ∧ 1 < b.bitLen ∧ memGet b.bitMem 1 = none) ∧
      (g.ctrl.getLsbD 1 = true ∧ 0 < g.logoLen ∧ g.cyc.val % 5 = 0 ∧ g.logoCur ≤ 2 ∧
        2 < g.logoCur + min 104 (g.logoLen - g.logoCur) ∧ memGet g.logoMem 2 = none) := by
  have hl : ∀ b : State, b.params = .default → b.pilotLevel = 0 → b.rdsLevel = 0 → b.ctrl = 0 →
      levelsDecode b (val 0) (val 0) none := by
    intro b hp h1 h2 hc
    have h0 : dec32 Params.default 0 = some (val 0) := by decide +kernel
    refine ⟨by rw [hp, h1, h0], by rw [hp, h2, h0], ?_⟩
    rw [hc, if_neg (by decide)]
  exact ⟨by decide +kernel, by decide +kernel, by decide +kernel, by decide +kernel, by decide +kernel, by decide +kernel,
    ⟨by decide +kernel, by decide +kernel, by decide +kernel, by decide +kernel, hl _ rfl rfl rfl rfl, by decide +kernel,
      by decide +kernel⟩, by decide +kernel⟩

/-- A logo of 210 bits of which only the first chunk is defined. -/
def halfLogoState : State :=
  { State.reset with ctrl := 2, logoLen := 210, logoMem := memIndexed 0 (List.replicate 104 true) }

theorem witness_UndefinedOperandStopsTheCommand_genbits :
    (∃ es u, emissions .genbits 5 halfLogoState = .ok (es, u) ∧ (emittedBits es).length < (521#16).toNat ∧
      u.ctrl.getLsbD 1 = true ∧ 0 < u.logoLen ∧ u.cyc.val % 5 = 0 ∧ u.logoCur ≤ 207 ∧
      207 < u.logoCur + min 104 (u.logoLen - u.logoCur) ∧ memGet u.logoMem 207 = none) ∧
    (521#16).toNat ≤ halfLogoState.params.bitCap := by
  refine ⟨?_, by decide⟩
  have h : (emissions .genbits 5 halfLogoState).toOption.map (fun r =>
      ((emittedBits r.1).length, r.2.ctrl, r.2.logoLen)) = some (520, 2, 210) := by decide +kernel
  have k : (emissions .genbits 5 halfLogoState).toOption.map (fun r =>
      (r.2.cyc, r.2.logoCur, memGet r.2.logoMem 207)) = some (5, 104, none) := by decide +kernel
  cases he : emissions .genbits 5 halfLogoState with
  | error f => rw [he] at h; cases h
  | ok r =>
    rw [he] at h k
    injection h with h
    injection k with k
    simp only [Prod.mk.injEq] at h k
    obtain ⟨h1, h2, h3⟩ := h
    obtain ⟨h4, h5, h6⟩ := k
    refine ⟨r.1, r.2, rfl, ?_, ?_, ?_, ?_, ?_, ?_, h6⟩
    · rw [h1]; decide
    · rw [h2]; decide
    · rw [h3]; decide
    · rw [h4]; decide
    · rw [h5]; decide
    · rw [h5, h3]; decide

/-- The largest type, version and segment. -/
theorem witness_BlockBFieldsAreRecoverable : 15 < 16 ∧ 1 < 2 ∧ blockB 15 1 15 = 0xF80F := by decide

theorem witness_EncoderDependsOnIdentityAndTextOnly :
    let s := { stationState with ctrl := 7, fs := 48000 }
    stationState.pi = s.pi ∧ stationState.ps = s.ps ∧ stationState.rt = s.rt := by decide +kernel

/-- Each reason for which no logo is due, and both cases of CYC mod 3. -/
theorem witness_NextgrpWithoutLogo :
    State.reset.ctrl.getLsbD 1 = false ∧ State.reset.cyc.val % 3 ≠ 2 ∧
      { State.reset with ctrl := 2 }.logoLen = 0 ∧ { smallLogoState with cyc := 59 }.cyc.val % 5 ≠ 0 ∧
      { smallLogoState with cyc := 59 }.cyc.val % 3 = 2 := by decide

/-- A chunk of the greatest length, 104, out of 105 bits. -/
def longLogoState : State :=
  { State.reset with ctrl := 2, logoLen := 105, logoMem := memIndexed 0 (List.replicate 105 true) }

theorem witness_NextgrpLogoChunk :
    (lastChunkState.ctrl.getLsbD 1 = true ∧ 0 < lastChunkState.logoLen ∧ lastChunkState.cyc.val % 5 = 0 ∧
      LogoCursorLegal lastChunkState ∧ 2 = min 104 (lastChunkState.logoLen - lastChunkState.logoCur) ∧
      ∀ j, j < 2 → (memGet lastChunkState.logoMem (lastChunkState.logoCur + j)).isSome = true) ∧
    (longLogoState.ctrl.getLsbD 1 = true ∧ 0 < longLogoState.logoLen ∧ longLogoState.cyc.val % 5 = 0 ∧
      LogoCursorLegal longLogoState ∧ 104 = min 104 (longLogoState.logoLen - longLogoState.logoCur) ∧
      ∀ j, j < 104 → (memGet longLogoState.logoMem (longLogoState.logoCur + j)).isSome = true) := by
  unfold LogoCursorLegal
  decide +kernel

theorem witness_CadenceWithoutLogo : logoPresent State.reset = false := by decide

theorem witness_LogoEveryFifthEmission :
    logoPresent smallLogoState = true ∧ LogoCursorLegal smallLogoState ∧
      ∀ k, k < smallLogoState.logoLen → (memGet smallLogoState.logoMem k).isSome = true := by
  unfold LogoCursorLegal
  decide

theorem witness_GenerateTakesTheFewestEmissions :
    ((generate .genbits 0 State.reset).toOption.map fun r => (r.1.length, r.2.cyc)) = some (0, 0) ∧
      ((generate .genbits 105 State.reset).toOption.map fun r => (r.1.length, r.2.cyc)) = some (105, 2) := by
  decide +kernel

/-- At the capacity without and with a logo, and one beyond it. -/
theorem witness_GenbitsFillsTheBitSource :
    let p := { Params.default with bitCap := 32 }
    (32#16).toNat ≤ { State.reset with params := p }.params.bitCap ∧ logoPresent { State.reset with params := p } = false ∧
      LogoCursorLegal smallLogoState ∧
      (∀ k, k < smallLogoState.logoLen → (memGet smallLogoState.logoMem k).isSome = true) ∧
      { State.reset with params := p }.params.bitCap < (33#16).toNat := by
  unfold LogoCursorLegal
  decide

/-- The first and the last rate DESIGN takes at the default capacity, and the rates beside them. -/
theorem witness_DesignInstallsTheFilter :
    let s := fun fs : Word => { State.reset with fs := fs }
    (4750 ≤ (s 4750).fs.toNat ∧ ntapsOf (spsOf (s 4750).fs.toNat) ≤ (s 4750).params.tapCap) ∧
      (4750 ≤ (s 810468).fs.toNat ∧ ntapsOf (spsOf (s 810468).fs.toNat) ≤ (s 810468).params.tapCap) ∧
      ((s 0).fs.toNat < 4750 ∧ (s 4749).fs.toNat < 4750) ∧
      (4750 ≤ (s 810469).fs.toNat ∧ (s 810469).params.tapCap < ntapsOf (spsOf (s 810469).fs.toNat)) ∧
      (s 0).params.tapCap = 4096 := by decide

theorem witness_LimitBranchAtOneSymbol :
    (0 < 1 ∧ 1 < 2 ^ 31 ∧ 21 = 20 + 1) ∧ (0 < 2 ^ 31 - 1 ∧ 2 ^ 31 - 1 < 2 ^ 31 ∧ 0 + (2 ^ 31 - 1) = 2 ^ 31 - 1) := by decide

/-- A memory listed from a sequence holds it. -/
theorem holds_memIndexed {α : Type} (vs : List α) : holds (memIndexed 0 vs) vs := by
  intro k hk
  rw [memGet_memIndexed]
  simp

theorem witness_DiffencEncodesParity :
    [true, true].length = filterState.bitLen ∧ holds filterState.bitMem [true, true] :=
  ⟨rfl, holds_memIndexed [true, true]⟩

theorem witness_ShapeConvolvesTheImpulseTrain :
    filterState.tapsValid = true ∧ filterState.symLen * filterState.sps ≤ filterState.params.sampleCap ∧
      [SymVal.minus, .plus].length = filterState.symLen ∧ holds filterState.symMem [.minus, .plus] ∧
      [val 1].length = filterState.ntaps ∧ holds filterState.tapMem [val 1] :=
  ⟨rfl, by decide, rfl, holds_memIndexed ([.minus, .plus] : List SymVal), rfl, holds_memIndexed [val 1]⟩

theorem witness_MixMultipliesByTheCarrier :
    filterState.tapsValid = true ∧ [val 1].length = filterState.bbLen ∧ holds filterState.bbMem [val 1] :=
  ⟨rfl, rfl, holds_memIndexed [val 1]⟩

theorem witness_ModulateIsDiffencShapeMix :
    filterState.tapsValid = true ∧ filterState.bitLen * filterState.sps ≤ filterState.params.sampleCap ∧
      [true, true].length = filterState.bitLen ∧ holds filterState.bitMem [true, true] ∧
      [val 1].length = filterState.ntaps ∧ holds filterState.tapMem [val 1] :=
  ⟨rfl, by decide, rfl, holds_memIndexed [true, true], rfl, holds_memIndexed [val 1]⟩

/-! #### COMPOSE: a sum whose carriers are free is finite by the range of sine and cosine -/

/-- A value of the default Num that is finite, with fewer than `2 ^ n` units. -/
def SmallVal (n : Nat) (x : NumVal) : Prop := numFinite (toNum64 x) = true ∧ numUnits (toNum64 x) < 2 ^ n

theorem SmallVal_add {n : Nat} {x y : NumVal} (hn : 52 ≤ n ∧ n ≤ 1900) (hx : SmallVal n x) (hy : SmallVal n y) :
    SmallVal (n + 2) (binary64Num.add x y) := by
  have h := numAdd_bound (toNum64 x) (toNum64 y) n hn.1 hn.2 hx.1 hy.1 hx.2 hy.2
  rw [SmallVal, binary64Num_add, toNum64_ofNum64]
  exact ⟨h.1, Nat.lt_of_le_of_lt h.2 (Nat.pow_lt_pow_right (by decide) (by omega))⟩

theorem SmallVal_mul {n : Nat} {x y : NumVal} (hn : 53 ≤ n ∧ n ≤ 2000) (hx : SmallVal n x)
    (hy : numFinite (toNum64 y) = true ∧ numUnits (toNum64 y) ≤ unitScale) : SmallVal (n + 1) (binary64Num.mul x y) := by
  have h := numMul_bound (toNum64 x) (toNum64 y) n hn.1 hn.2 hx.1 hy.1 hx.2 hy.2
  rw [SmallVal, binary64Num_mul, toNum64_ofNum64]
  exact ⟨h.1, Nat.lt_of_le_of_lt h.2 (Nat.pow_lt_pow_right (by decide) (by omega))⟩

theorem SmallVal_mono {n k : Nat} {x : NumVal} (h : n ≤ k) (hx : SmallVal n x) : SmallVal k x :=
  ⟨hx.1, Nat.lt_of_lt_of_le hx.2 (Nat.pow_le_pow_right (by decide) h)⟩

theorem sin_unit (x : NumVal) :
    numFinite (toNum64 (binary64Num.sin x)) = true ∧ numUnits (toNum64 (binary64Num.sin x)) ≤ unitScale := by
  rw [binary64Num_sin, toNum64_ofNum64]
  exact sinN_bound _

theorem cos_unit (x : NumVal) :
    numFinite (toNum64 (binary64Num.cos x)) = true ∧ numUnits (toNum64 (binary64Num.cos x)) ≤ unitScale := by
  rw [binary64Num_cos, toNum64_ofNum64]
  exact cosN_bound _

/-- The word of a quarter, its value, and the size of what COMPOSE makes of it, in units of 2^−1074. -/
def quarterWord : Word := 0x3E800000
def quarter : NumVal := ofNum64 ⟨0x3FD0000000000000⟩

theorem quarter_decodes : dec32 Params.default quarterWord = some quarter := by decide +kernel

theorem quarter_small : SmallVal 1075 quarter ∧
    SmallVal 1075 (binary64Num.mul binary64Num.half (binary64Num.add quarter quarter)) ∧
    SmallVal 1075 (binary64Num.sub quarter quarter) :=
  ⟨⟨by decide +kernel, by decide +kernel⟩, ⟨by decide +kernel, by decide +kernel⟩, ⟨by decide +kernel, by decide +kernel⟩⟩

/-- One sample of a quarter on both channels, a quarter as both levels, and no bit: the sum is `stereoSum`. -/
def stereoState : State :=
  { filterState with
    nsamp := 1
    bitLen := 0
    bitMem := []
    lMem := [(0, quarterWord)]
    rMem := [(0, quarterWord)]
    pilotLevel := quarterWord
    rdsLevel := quarterWord }

theorem mpxSum_quarter_small (rds : NumVal) (rds2 : Option NumVal) (i : Nat) :
    SmallVal 1080 (mpxSum stereoState quarter rds rds2 none i quarter quarter) := by
  obtain ⟨hv, hm, hs⟩ := quarter_small
  have h1 := SmallVal_mul (n := 1075) (by decide) hv (sin_unit (phase stereoState 19000 i))
  have h2 := SmallVal_add (n := 1076) (by decide) (SmallVal_mono (by decide) hm) h1
  have h3 := SmallVal_mul (n := 1075) (by decide) hs (cos_unit (phase stereoState 38000 i))
  exact SmallVal_add (n := 1078) (by decide) h2 (SmallVal_mono (by decide) h3)

theorem mpxSum_quarter_finite (rds : NumVal) (rds2 : Option NumVal) (i : Nat) :
    (numType stereoState.params).isFinite (mpxSum stereoState quarter rds rds2 none i quarter quarter) = true := by
  rw [numType_binary64 (p := stereoState.params) rfl, binary64Num_isFinite]
  exact (mpxSum_quarter_small rds rds2 i).1

theorem stereoState_levels : levelsDecode stereoState quarter quarter none :=
  ⟨quarter_decodes, quarter_decodes, by rw [if_neg (by decide)]⟩

theorem quarter_list_decodes : [quarterWord].map (dec32 stereoState.params) = [quarter].map some :=
  congrArg (· :: []) quarter_decodes

theorem witness_ComposeWritesTheClampedSum :
    ∃ sum : Nat → NumVal,
      stereoState.tapsValid = true ∧ [quarterWord].length = stereoState.nsamp ∧
      holds stereoState.lMem [quarterWord] ∧ holds stereoState.rMem [quarterWord] ∧
      [quarterWord].map (dec32 stereoState.params) = [quarter].map some ∧ levelsDecode stereoState quarter quarter none ∧
      ([] : List Bool).length = stereoState.bitLen ∧ holds stereoState.bitMem ([] : List Bool) ∧
      [val 1].length = stereoState.ntaps ∧ holds stereoState.tapMem [val 1] ∧
      (∀ i a b, [quarter][i]? = some a → [quarter][i]? = some b →
        sum i = mpxSum stereoState quarter quarter none
          (if i < stereoState.bitLen * stereoState.sps then
            some (convolutionSum (numType stereoState.params)
              (impulseSample (numType stereoState.params) (diffenc []) stereoState.sps)
              (stereoState.bitLen * stereoState.sps) [val 1] i)
          else none) i a b) ∧
      ∀ i, i < stereoState.nsamp → (numType stereoState.params).isFinite (sum i) = true := by
  refine ⟨fun i => mpxSum stereoState quarter quarter none none i quarter quarter, rfl, rfl, holds_memIndexed [quarterWord],
    holds_memIndexed [quarterWord], quarter_list_decodes, stereoState_levels, rfl, holds_memIndexed [], rfl,
    holds_memIndexed [val 1], fun i a b ha hb => ?_, fun i _ => mpxSum_quarter_finite quarter none i⟩
  rw [if_neg (by show ¬i < 0 * 2; omega)]
  have ha' : a = quarter := by simpa using (List.mem_of_getElem? ha)
  have hb' : b = quarter := by simpa using (List.mem_of_getElem? hb)
  rw [ha', hb']

/-- COMPOSE completes with OK on one sample. -/
theorem witness_ComposeOutputIsBounded :
    ∃ t, exec .compose stereoState = .next t ∧ t.err = .ok ∧ 0 < stereoState.nsamp ∧ stereoState.params.num = .binary64 := by
  let N := numType stereoState.params
  let lv : Levels := { pilot := quarter, rds := quarter, rds2 := none }
  let sums := composeSums N stereoState.fs.toNat stereoState.sps lv (diffenc []) [val 1] ([quarter].zip [quarter])
  have hl : levelsOf stereoState = some lv := by
    have h1 : rds2En stereoState = false := by decide
    have h2 : dec32 stereoState.params stereoState.pilotLevel = some quarter := quarter_decodes
    have h3 : dec32 stereoState.params stereoState.rdsLevel = some quarter := quarter_decodes
    rw [levelsOf, h2, h3]
    simp only [h1]
    rfl
  have hb : composeBaseband N (diffenc []) stereoState.sps [val 1] 0 = none := by
    simp [composeBaseband]
  have hf : firstNonFinite N sums = none := by
    rw [firstNonFinite_none]
    intro x hx
    have : x = stereoSum N stereoState.fs.toNat lv 0 quarter quarter := by
      simpa [sums, composeSums, composeSum, hb] using hx
    rw [this]
    exact mpxSum_quarter_finite quarter none 0
  refine ⟨complete .ok { stereoState with outMem := memFill stereoState.outMem (sums.map (clampOut N)) }, ?_, rfl, by decide,
    rfl⟩
  show execCompose stereoState = _
  have e1 : readOperand .compose .l stereoState.lMem 0 stereoState.nsamp = .ok [quarterWord] := rfl
  have e2 : readOperand .compose .r stereoState.rMem 0 stereoState.nsamp = .ok [quarterWord] := rfl
  have e3 : readOperand .compose .bit stereoState.bitMem 0 stereoState.bitLen = .ok [] := rfl
  have e4 : readOperand .compose .tap stereoState.tapMem 0 stereoState.ntaps = .ok [val 1] := rfl
  have e5 : allSome ([quarterWord].map (dec32 stereoState.params)) = some [quarter] := by rw [quarter_list_decodes]; rfl
  rw [execCompose, if_neg (by decide), e1, e2, withValue_ok, withValue_ok, e5, hl]
  simp only [e3, e4, withValue_ok]
  rw [hf]
  rfl

/-- Both ends of the clamp interval; the largest finite word and −0. -/
theorem witness_HostConversionsExactAndClamped :
    defaultDatapath Params.default ∧ withinClamp (toNum64 (ofNum64 numClamp)) = true ∧
      withinClamp (toNum64 (ofNum64 (numNegate numClamp))) = true ∧ (dec32 Params.default 0x7F7FFFFF).isSome = true ∧
      (dec32 Params.default 0x80000000).isSome = true :=
  ⟨⟨rfl, rfl⟩, by decide +kernel, by decide +kernel, by decide +kernel, by decide +kernel⟩

/-- The largest finite word, its opposite, and −0. -/
theorem witness_EqualSamplesGiveZeroDifference :
    Params.default.num = .binary64 ∧ (dec32 Params.default 0x7F7FFFFF).isSome = true ∧
      (dec32 Params.default 0xFF7FFFFF).isSome = true ∧ (dec32 Params.default 0x80000000).isSome = true := by
  decide +kernel

theorem witness_ComposeWithoutBitsCompletes :
    defaultDatapath stereoState.params ∧ stereoState.tapsValid = true ∧ stereoState.bitLen = 0 ∧
      [quarterWord].length = stereoState.nsamp ∧ holds stereoState.lMem [quarterWord] ∧
      holds stereoState.rMem [quarterWord] ∧ [quarterWord].map (dec32 stereoState.params) = [quarter].map some ∧
      levelsDecode stereoState quarter quarter none ∧ [val 1].length = stereoState.ntaps ∧
      holds stereoState.tapMem [val 1] ∧ [quarter][0]? = some quarter ∧ stereoState.nsamp ≤ 1 :=
  ⟨⟨rfl, rfl⟩, rfl, rfl, rfl, holds_memIndexed [quarterWord], holds_memIndexed [quarterWord], quarter_list_decodes,
    stereoState_levels, rfl, holds_memIndexed [val 1], rfl, by decide⟩

theorem witness_PowerOnResetAbandonsTheCommand :
    (withTurns [.powerOn, .engine] (acceptWith 1 2 State.reset)).turns = .powerOn :: [.engine] := by decide

theorem witness_IdleEngineDoesNothing :
    State.reset.eng = .idle ∧ State.reset.turns = [] ∧ (withTurns [.engine] State.reset).turns = .engine :: [] := by decide

/-- A wrong size, a misaligned address, and both ends of each unmapped range. -/
theorem witness_RejectedAccessesSetAccerr :
    (2 ≠ 4 ∧ (0x000012#24).toNat % 4 ≠ 0) ∧
      (∀ a ∈ ([0x00006C, 0x00007C, 0x000088, 0x0000BC, 0x000140, 0x0FFFFC, 0x800000, 0xFFFFFC, 0x604000, 0x6FFFFC,
          0x702000, 0x73FFFC, 0x742000, 0x77FFFC, 0x780104, 0x7FFFFC] : List Nat),
        unmappedAddress Params.default a) ∧
      unmappedAddress { Params.default with sampleCap := 16 } 0x100040 := by
  unfold unmappedAddress
  decide

/-- Both ends of each read-only range. -/
theorem witness_RejectedAccessesSetAccerr_readOnly :
    ∀ a ∈ ([0x000, 0x004, 0x014, 0x038, 0x068, 0x080, 0x084, 0x0C0, 0x0FC] : List Nat), readOnlyRegisterOffset a := by
  unfold readOnlyRegisterOffset
  decide

theorem witness_WritesWhileBusyAreDropped :
    let s := writeState (acceptWith 1 2 State.reset) 0x000018 7
    let r := writeState (acceptWith 1 2 State.reset) 0x00000C 2
    (s.eng = .busy 1 2 ∧ s.turns = .write 0x000018 4 7 :: [] ∧ busTarget s 0x000018 4 = some (.reg .pi) ∧
      locWritable (.reg .pi) = true) ∧
    r.turns = .write 0x00000C 4 2 :: [] ∧ busTarget r 0x00000C 4 = some (.reg .status) ∧
      locWritable (.reg .status) = true := by decide

/-- GINFO while GRP0A is in flight; an undefined sample; PI while GRP0A is in flight; PI beside a GRP0A that completes. -/
theorem witness_ReadsAreCurrentOrFree :
    let s := acceptWith 0x00000012 2 State.reset
    (busTarget s 0x00004C 4 = some (.reg .ginfo) ∧ s.eng = .busy 0x00000012 2 ∧
      mnemonicOf ((0x00000012 : Word).extractLsb' 0 8) = some .grp0a ∧ written .grp0a (.reg .ginfo) = true) ∧
    (busTarget s 0x1FFFFC 4 = some (.mem .l 262143) ∧ readLoc s (.mem .l 262143) = none) ∧
    (busTarget s 0x000018 4 = some (.reg .pi) ∧ written .grp0a (.reg .pi) = false ∧ readLoc s (.reg .pi) = some 0) ∧
    (after (exec (.grp0a 0) s)).isSome = true := by
  decide +kernel

/-- R140 to R251: the write sets as the model has them are those written out from the rules. -/
theorem test_write_sets :
    ∀ c ∈ ([.nop, .srst, .crc10, .pack, .grp0a, .grp2a, .psload, .rtload, .nextgrp, .genbits, .seqrst, .design, .diffenc,
        .shape, .mix, .modulate, .compose] : List Mnemonic),
      (∀ off ∈ List.range 0x50, ∀ r ∈ regAt (4 * off), writesReg c r = written c (.reg r)) ∧
      ∀ m ∈ ([.l, .r, .out, .bb, .sub, .tap, .bit, .sym, .logo] : List MemName),
        writesMem c m = written c (.mem m 0) := by decide +kernel

/-- Any address and value in an idle state; the first and the last TXT word. -/
theorem witness_RegisterWritesStoreTheLegalValue :
    (∀ (a : BitVec 24) (v : Word),
      (writeState State.reset a v).eng = .idle ∧ (writeState State.reset a v).turns = .write a 4 v :: []) ∧
      BitVec.ofNat 24 (0x100 + 4 * (0 : Fin 16).val) = 0x000100 ∧
      BitVec.ofNat 24 (0x100 + 4 * (15 : Fin 16).val) = 0x00013C :=
  ⟨fun _ _ => ⟨rfl, rfl⟩, rfl, rfl⟩

/-- A write of STATUS with DONE, of CTRL without IRQ_EN, and of CMD. -/
theorem witness_StatusFieldsClearingAndIrq :
    ((writeState State.reset 0x00000C 0x302).turns = .write 0x00000C 4 0x302 :: [] ∧ (0x302 : Word).getLsbD 1 = true) ∧
      ((writeState State.reset 0x000008 3).turns = .write 0x000008 4 3 :: [] ∧ (3 : Word).getLsbD 2 = false) ∧
      (writeState State.reset 0x000010 5).turns = .write 0x000010 4 5 :: [] ∧
      (writeState State.reset 0x000010 5).eng = .idle := by decide

/-- R64, R274: with IRQ_EN the line is high after a completion and low after DONE is cleared. -/
theorem test_irq :
    let s := { State.reset with ctrl := 4 }
    (after (exec .nop s)).map irq = some true ∧
      ((after (exec .nop s)).bind fun t => after (step (writeState t 0x00000C 2))).map irq = some false := by decide +kernel

/-- The first and the last register of the table with their values, and the first and the last word of windows: the offsets 0x000 and
0x13C, and the words 0 and 262143 of L_MEM, 2047 of BIT_MEM. -/
theorem witness_ReadsReturnTheStoredValues :
    let w := { State.reset with lMem := [(0, 7), (262143, 9)], bitMem := memIndexed 65504 (List.replicate 32 true) }
    (State.reset.eng = .idle ∧ (0x000, 0x4A4D5058) ∈ registerTable State.reset ∧ (0x13C, 0) ∈ registerTable State.reset ∧
      (0x0C0, 0x20202020) ∈ registerTable State.reset ∧
      (withTurns [.read (BitVec.ofNat 24 0x13C) 4] State.reset).turns = .read (BitVec.ofNat 24 0x13C) 4 :: []) ∧
    w.eng = .idle ∧ w.params.wellFormed = true ∧ (.l, 0x100000, 262144) ∈ windowTable w.params ∧
      (.bit, 0x700000, 2048) ∈ windowTable w.params ∧ 0 < 262144 ∧ 262143 < 262144 ∧ 2047 < 2048 ∧
      readMem w .l 0 = some 7 ∧ readMem w .l 262143 = some 9 ∧ readMem w .bit 2047 = some 0xFFFFFFFF ∧
      (withTurns [.read (BitVec.ofNat 24 (0x700000 + 4 * 2047)) 4] w).turns =
        .read (BitVec.ofNat 24 (0x700000 + 4 * 2047)) 4 :: [] := by decide +kernel

/-- R42, R47, R78: GINFO's fields and the bytes of PS in their words. -/
theorem test_register_table :
    (0x04C, 0x168) ∈ registerTable { stationState with glen := 104, gtype := .group0A } ∧
      (0x080, 0x52414449) ∈ registerTable stationState ∧ (0x0CC, 0x4144494F) ∈ registerTable stationState := by decide +kernel

/-- The first and the last word of each window at the default capacities. -/
theorem witness_WindowWritesChangeTheirWordOnly :
    let p := State.reset.params
    (∀ k ∈ ([0, 262143] : List Nat), k < p.sampleCap ∧ k < 2 ^ 18) ∧
      (∀ k ∈ ([0, 2047] : List Nat), 32 * k < p.bitCap ∧ k < 2 ^ 16) ∧
      (∀ k ∈ ([0, 64] : List Nat), 32 * k < p.logoCap ∧ k < 2 ^ 17) ∧
      (writeState State.reset 0x100000 9).eng = .idle ∧
      (writeState State.reset 0x100000 9).turns = .write (BitVec.ofNat 24 (0x100000 + 4 * 0)) 4 9 :: [] := by
  decide +kernel

/-- A NOP in its last engine step. -/
theorem witness_StepKeepsTheInvariant :
    Inv (inFlightState 0 State.reset) ∧ (after (step (inFlightState 0 State.reset))).isSome = true := by
  refine ⟨⟨by decide, ?_, ?_, ?_, .inl rfl, ?_, ?_, ?_, ?_, ?_⟩, by decide⟩
  · constructor <;> exact List.Pairwise.nil
  · constructor <;> exact fun e he => absurd he List.not_mem_nil
  · constructor <;> decide
  · exact ⟨fun h => absurd h (by decide), fun _ => ⟨rfl, rfl⟩⟩
  · intro w left h
    cases h
    exact ⟨rfl, rfl, rfl⟩
  · refine ⟨by decide, fun j _ hj => ?_⟩
    have hall : ∀ i : Fin 128, gbufBit (inFlightState 0 State.reset) i.val = false := by decide +kernel
    exact hall ⟨j, hj⟩
  · constructor <;> exact fun k hk => absurd hk (Nat.not_lt_zero k)
  · exact fun k v h => absurd h (by simp [inFlightState, placeCommand, acceptWith, State.reset])

theorem witness_StepKeepsTheParameters : (after (step State.reset)).isSome = true := by decide

end Sys2Proof.Tests
end

section
/-! PROOF. Rounding in any binary format: a magnitude pattern as a step count at a step size, that a representable number rounds
to its own pattern, and that rounding keeps the order. -/

namespace Sys2Proof.Machine

/-! ### Step counts -/

/-- `k` steps of `2 ^ q` units are the value of a pattern of the format: `k` fits the significand, and its leading bit is set
unless the step is the smallest there is. -/
def IsSignificand (f : FloatFmt) (q k : Nat) : Prop := k < 2 ^ (f.fracBits + 1) ∧ (q = 0 ∨ 2 ^ f.fracBits ≤ k)

/-- The pattern of `k` steps of `2 ^ q` units has that value. -/
theorem unitsOf_steps {f : FloatFmt} {q k : Nat} (h : IsSignificand f q k) :
    unitsOf f (q * 2 ^ f.fracBits + k) = k * 2 ^ q := by
  obtain ⟨hk, hq⟩ := h
  have hp : 0 < 2 ^ f.fracBits := Nat.two_pow_pos _
  rw [Nat.pow_succ] at hk
  simp only [unitsOf, Nat.mul_comm q, Nat.mul_add_div hp, Nat.mul_add_mod]
  by_cases hlow : k < 2 ^ f.fracBits
  · obtain rfl : q = 0 := hq.resolve_right (by omega)
    simp [Nat.div_eq_of_lt hlow, Nat.mod_eq_of_lt hlow]
  · obtain ⟨r, rfl⟩ := Nat.exists_eq_add_of_le (Nat.le_of_not_lt hlow)
    have hr : r < 2 ^ f.fracBits := by omega
    simp [Nat.add_div_left _ hp, Nat.div_eq_of_lt hr, Nat.mod_eq_of_lt hr]

/-- Every pattern counts steps. -/
theorem exists_steps (f : FloatFmt) (mag : Nat) : ∃ q k, IsSignificand f q k ∧ mag = q * 2 ^ f.fracBits + k := by
  have hp : 0 < 2 ^ f.fracBits := Nat.two_pow_pos _
  have hdm := Nat.div_add_mod' mag (2 ^ f.fracBits)
  have hm := Nat.mod_lt mag hp
  cases he : mag / 2 ^ f.fracBits with
  | zero =>
    rw [he] at hdm
    exact ⟨0, mag, ⟨by rw [Nat.pow_succ]; omega, .inl rfl⟩, by omega⟩
  | succ e =>
    rw [he, Nat.succ_mul] at hdm
    exact ⟨e, 2 ^ f.fracBits + mag % 2 ^ f.fracBits, ⟨by rw [Nat.pow_succ]; omega, .inr (by omega)⟩, by omega⟩

/-- The step size the rounding finds for `k` steps of `2 ^ q` units is `2 ^ q`. -/
theorem log2_steps {f : FloatFmt} {q k : Nat} (h : IsSignificand f q k) : Nat.log2 (k * 2 ^ q) - f.fracBits = q := by
  obtain ⟨hk, hq⟩ := h
  by_cases hk0 : k = 0
  · obtain rfl : q = 0 := hq.resolve_right (by have := Nat.two_pow_pos f.fracBits; omega)
    simp [hk0]
  · have hne : k * 2 ^ q ≠ 0 := Nat.mul_ne_zero hk0 (Nat.two_pow_pos q).ne'
    have hhigh : Nat.log2 (k * 2 ^ q) < f.fracBits + 1 + q :=
      (Nat.log2_lt hne).2 (by rw [Nat.pow_add]; exact Nat.mul_lt_mul_of_pos_right hk (Nat.two_pow_pos q))
    obtain rfl | hlow := hq
    · omega
    · have : f.fracBits + q ≤ Nat.log2 (k * 2 ^ q) :=
        (Nat.le_log2 hne).2 (by rw [Nat.pow_add]; exact Nat.mul_le_mul_right _ hlow)
      omega

/-- Fewer steps than a significand can hold make a value of the format, whatever the step size: the step is halved until the
leading bit is set or the step is the smallest. -/
theorem exists_unitsOf_eq (f : FloatFmt) (q k : Nat) (hk : k < 2 ^ (f.fracBits + 1)) :
    ∃ mag, unitsOf f mag = k * 2 ^ q ∧ mag < (q + 2) * 2 ^ f.fracBits := by
  have hsucc := Nat.pow_succ 2 f.fracBits
  induction q generalizing k with
  | zero => exact ⟨k, by simpa using unitsOf_steps (f := f) ⟨hk, .inl rfl⟩, by omega⟩
  | succ q ih =>
    by_cases hlow : 2 ^ f.fracBits ≤ k
    · refine ⟨(q + 1) * 2 ^ f.fracBits + k, unitsOf_steps ⟨hk, .inr hlow⟩, ?_⟩
      rw [Nat.add_mul (q + 1) 2]
      omega
    · obtain ⟨mag, hu, hm⟩ := ih (2 * k) (by omega)
      refine ⟨mag, by rw [hu, Nat.pow_succ, Nat.mul_comm 2 k, Nat.mul_assoc, Nat.mul_comm 2], hm.trans_le ?_⟩
      exact Nat.mul_le_mul_right _ (by omega)

/-! ### Rounding to steps -/

/-- `n / step` rounded to the nearest whole number, ties to the even one. -/
def nearestSteps (n step : Nat) : Nat :=
  if step < 2 * (n % step) || (2 * (n % step) == step && n / step % 2 == 1) then n / step + 1 else n / step

theorem roundUnits_eq (f : FloatFmt) (n d : Nat) :
    roundUnits f n d = min ((Nat.log2 (n / d) - f.fracBits) * 2 ^ f.fracBits +
      nearestSteps n (d * 2 ^ (Nat.log2 (n / d) - f.fracBits))) (infPattern f) := rfl

theorem div_le_nearestSteps (n step : Nat) : n / step ≤ nearestSteps n step := by
  rw [nearestSteps]; split <;> omega

theorem nearestSteps_le (n step : Nat) : nearestSteps n step ≤ n / step + 1 := by
  rw [nearestSteps]; split <;> omega

/-- A whole number of steps rounds to itself. -/
theorem nearestSteps_mul (k : Nat) {step : Nat} (h : 0 < step) : nearestSteps (step * k) step = k := by
  simp [nearestSteps, Nat.mul_div_cancel_left k h, h.ne]

/-- Rounding to steps keeps the order: a smaller number has a smaller quotient, or the same quotient and a smaller rest. -/
theorem nearestSteps_mono {n m : Nat} (step : Nat) (h : n ≤ m) : nearestSteps n step ≤ nearestSteps m step := by
  obtain hlt | heq := (Nat.div_le_div_right (c := step) h).lt_or_eq
  · calc nearestSteps n step ≤ n / step + 1 := nearestSteps_le n step
      _ ≤ m / step := hlt
      _ ≤ nearestSteps m step := div_le_nearestSteps m step
  · have hrest : n % step ≤ m % step := by
      have hn := Nat.div_add_mod n step
      have hm := Nat.div_add_mod m step
      rw [heq] at hn
      omega
    simp only [nearestSteps, heq, Bool.or_eq_true, Bool.and_eq_true, decide_eq_true_eq, beq_iff_eq]
    split_ifs <;> omega

/-! ### Rounding to a format -/

/-- A number of the format rounds to its own pattern, whatever the denominator it comes with. -/
theorem roundUnits_mul_unitsOf {f : FloatFmt} {mag c : Nat} (hc : 0 < c) (h : mag ≤ infPattern f) :
    roundUnits f (unitsOf f mag * c) c = mag := by
  obtain ⟨q, k, hs, rfl⟩ := exists_steps f mag
  have hsteps : k * 2 ^ q * c = c * 2 ^ q * k := by ring
  rw [unitsOf_steps hs, roundUnits_eq, Nat.mul_div_cancel _ hc, log2_steps hs, hsteps,
    nearestSteps_mul k (Nat.mul_pos hc (Nat.two_pow_pos q)), Nat.min_eq_left h]

/-- A larger number has at least the step size of a smaller one. -/
theorem log2_sub_mono {v w : Nat} (b : Nat) (h : v ≤ w) : Nat.log2 v - b ≤ Nat.log2 w - b := by
  rw [Nat.log2_eq_log_two, Nat.log2_eq_log_two]
  exact Nat.sub_le_sub_right (Nat.log_mono_right h) b

/-- A rounded step count fits the significand, its carry included. -/
theorem nearestSteps_le_significand (f : FloatFmt) (n d : Nat) :
    nearestSteps n (d * 2 ^ (Nat.log2 (n / d) - f.fracBits)) ≤ 2 ^ (f.fracBits + 1) := by
  refine (nearestSteps_le _ _).trans ?_
  rw [← Nat.div_div_eq_div_mul]
  refine Nat.div_lt_of_lt_mul ?_
  rw [← Nat.pow_add]
  exact Nat.lt_log2_self.trans_le (Nat.pow_le_pow_right (by decide) (by omega))

/-- Where the step is not the smallest, a rounded step count has the leading bit of the significand. -/
theorem significand_le_nearestSteps {f : FloatFmt} {n d : Nat} (h : 0 < Nat.log2 (n / d) - f.fracBits) :
    2 ^ f.fracBits ≤ nearestSteps n (d * 2 ^ (Nat.log2 (n / d) - f.fracBits)) := by
  have hne : n / d ≠ 0 := fun h0 => by simp [h0] at h
  refine le_trans ?_ (div_le_nearestSteps _ _)
  rw [← Nat.div_div_eq_div_mul, Nat.le_div_iff_mul_le (Nat.two_pow_pos _), ← Nat.pow_add]
  exact (Nat.pow_le_pow_right (by decide) (by omega)).trans (Nat.log2_self_le hne)

/-- Rounding to a format keeps the order: with one step size it is `nearestSteps_mono`, and with a smaller step the pattern ends
where the next step size begins. -/
theorem roundUnits_mono (f : FloatFmt) (d : Nat) {n m : Nat} (h : n ≤ m) : roundUnits f n d ≤ roundUnits f m d := by
  rw [roundUnits_eq, roundUnits_eq]
  refine min_le_min_right _ ?_
  obtain hlt | heq := (log2_sub_mono f.fracBits (Nat.div_le_div_right (c := d) h)).lt_or_eq
  · have hn := nearestSteps_le_significand f n d
    have hm := significand_le_nearestSteps (f := f) (Nat.zero_lt_of_lt hlt)
    have hq := Nat.mul_le_mul_right (2 ^ f.fracBits) hlt
    rw [Nat.succ_mul] at hq
    rw [Nat.pow_succ] at hn
    omega
  · rw [heq]
    exact Nat.add_le_add_left (nearestSteps_mono _ h) _

end Sys2Proof.Machine
end

section
/-! PROOF. The default conversions between host words and binary64 values (R14): dec32 is exact, enc32 undoes it, and a clamped
sample's word is at most the word of 0.999. -/

namespace Sys2Proof.Machine

open Sys2Proof.Statements

/-! ### Signs and magnitudes -/

theorem signed_mod {f : FloatFmt} (neg : Bool) {mag : Nat} (h : mag < signWeight f) :
    signed f neg mag % signWeight f = mag := by
  cases neg <;> simp [signed, Nat.mod_eq_of_lt h]

/-! ### The rational number of a pattern -/

/-- The number of a pattern built from a sign and a magnitude: its units, in the format's unit. -/
theorem ieeeValue_signed {f : FloatFmt} (hf : 2 ≤ f.expBits) (neg : Bool) {mag : Nat} (h : mag < signWeight f) :
    ieeeValue f.fracBits f.expBits (signed f neg mag) =
      (if neg then -1 else 1) * (unitsOf f mag / 2 ^ unitExp f : ℚ) := by
  have hsign : signed f neg mag / 2 ^ (f.fracBits + f.expBits) = if neg then 1 else 0 := by
    have hp : 0 < signWeight f := Nat.two_pow_pos _
    change signed f neg mag / signWeight f = _
    cases neg
    · exact Nat.div_eq_of_lt h
    · simp [signed, Nat.add_div_left mag hp, Nat.div_eq_of_lt h]
  have hmod : signed f neg mag % 2 ^ (f.fracBits + f.expBits) = mag := signed_mod neg h
  have hexp : signed f neg mag / 2 ^ f.fracBits % 2 ^ f.expBits = mag / 2 ^ f.fracBits := by
    rw [← Nat.mod_mul_right_div_self, ← Nat.pow_add, hmod]
  have hfrac : signed f neg mag % 2 ^ f.fracBits = mag % 2 ^ f.fracBits := by
    rw [← Nat.mod_mul_right_mod _ _ (2 ^ f.expBits), ← Nat.pow_add, hmod]
  have hunit : 2 ^ (f.expBits - 1) - 2 + f.fracBits = unitExp f := by
    have : 2 ^ 1 ≤ 2 ^ (f.expBits - 1) := Nat.pow_le_pow_right (by decide) (by omega)
    rw [unitExp]; omega
  simp only [ieeeValue, hsign, hexp, hfrac, hunit, unitsOf]
  cases neg <;> by_cases he : mag / 2 ^ f.fracBits = 0 <;> simp [he] <;> ring

/-- The sign of a host word, and its magnitude. -/
def wordNeg (w : Word) : Bool := decide (signWeight binary32 ≤ w.toNat)
def wordMag (w : Word) : Nat := w.toNat % signWeight binary32

theorem signWeight32_eq : signWeight binary32 = 2 ^ 31 := rfl

theorem infPattern32_eq : infPattern binary32 = 255 * 2 ^ 23 := rfl

theorem wordMag_lt (w : Word) : wordMag w < signWeight binary32 := Nat.mod_lt _ (Nat.two_pow_pos _)

/-- A word is its sign and its magnitude. -/
theorem signed_word (w : Word) : signed binary32 (wordNeg w) (wordMag w) = w.toNat := by
  have hw := w.isLt
  rw [signed, wordNeg, wordMag, signWeight32_eq]
  by_cases hs : 2 ^ 31 ≤ w.toNat
  · rw [decide_eq_true hs, if_pos rfl]; omega
  · rw [decide_eq_false hs, if_neg Bool.false_ne_true]; omega

theorem ofNat_signed_word (w : Word) : BitVec.ofNat 32 (signed binary32 (wordNeg w) (wordMag w)) = w := by
  rw [signed_word, BitVec.ofNat_toNat, BitVec.setWidth_eq]

/-- The exponent field of a word is all ones exactly where its magnitude is no finite one. -/
theorem exponent_all_ones_iff (w : Word) : w.extractLsb' 23 8 = 0xFF ↔ infPattern binary32 ≤ wordMag w := by
  have hw := w.isLt
  rw [← BitVec.toNat_inj, BitVec.extractLsb'_toNat, Nat.shiftRight_eq_div_pow, wordMag, signWeight32_eq, infPattern32_eq,
    show (0xFF : BitVec 8).toNat = 255 from rfl]
  omega

theorem numOf_bits (neg : Bool) {mag : Nat} (h : mag < 2 ^ 63) : (numOf neg mag).bits.toNat = signed binary64 neg mag := by
  rw [numOf_toNat neg mag h, signed, signWeight64_eq]
  cases neg <;> simp

/-! ### From binary32 to binary64 -/

/-- A binary32 unit is `2 ^ unitGap` binary64 units. Irreducible, so that no tactic computes the power. -/
@[irreducible] def unitGap : Nat := unitExp binary64 - unitExp binary32

theorem unitGap_eq : unitGap = 925 := by rw [unitGap]; rfl

theorem unitExp_add_unitGap : unitExp binary32 + unitGap = unitExp binary64 := by rw [unitGap_eq]; rfl

/-- Every finite binary32 magnitude is a binary64 one. -/
theorem exists_widened {mag : Nat} (h : mag < infPattern binary32) :
    ∃ wide, wide < infPattern binary64 ∧ unitsOf binary64 wide = unitsOf binary32 mag * 2 ^ unitGap := by
  obtain ⟨q, k, hs, rfl⟩ := exists_steps binary32 mag
  obtain ⟨wide, hu, hlt⟩ := exists_unitsOf_eq binary64 (q + unitGap) k (hs.1.trans_le (by decide))
  refine ⟨wide, ?_, by rw [hu, unitsOf_steps hs, Nat.pow_add, Nat.mul_assoc]⟩
  rw [infPattern32_eq, show binary32.fracBits = 23 from rfl] at h
  have hq : q + unitGap + 2 ≤ 2047 := by rw [unitGap_eq]; omega
  exact hlt.trans_le (Nat.mul_le_mul_right _ hq)

theorem decBinary32_eq (w : Word) : decBinary32 w = if wordMag w < infPattern binary32 then
    some (numOf (wordNeg w) (roundUnits binary64 (unitsOf binary32 (wordMag w) * 2 ^ unitGap) 1)) else none := by
  simp only [decBinary32, wordMag, wordNeg, unitGap]

/-- A word that encodes no finite value has none. -/
theorem decBinary32_none {w : Word} (h : infPattern binary32 ≤ wordMag w) : decBinary32 w = none := by
  rw [decBinary32_eq, if_neg (Nat.not_lt.2 h)]

/-- Any other word decodes to the value with its sign and as many binary64 units as its magnitude has. -/
theorem decBinary32_some {w : Word} (h : wordMag w < infPattern binary32) :
    ∃ wide, wide < infPattern binary64 ∧ unitsOf binary64 wide = unitsOf binary32 (wordMag w) * 2 ^ unitGap ∧
      decBinary32 w = some (numOf (wordNeg w) wide) := by
  obtain ⟨wide, hlt, hu⟩ := exists_widened h
  exact ⟨wide, hlt, hu, by rw [decBinary32_eq, if_pos h, ← hu, roundUnits_unitsOf wide hlt]⟩

theorem decBinary32_eq_none_iff (w : Word) : decBinary32 w = none ↔ w.extractLsb' 23 8 = 0xFF := by
  rw [exponent_all_ones_iff]
  refine ⟨fun h => Nat.le_of_not_lt fun hlt => ?_, decBinary32_none⟩
  obtain ⟨_, _, _, hs⟩ := decBinary32_some hlt
  rw [hs] at h
  cases h

/-- A word that decodes has a finite magnitude. -/
theorem wordMag_lt_of_decBinary32 {w : Word} {v : Num64} (h : decBinary32 w = some v) : wordMag w < infPattern binary32 :=
  Nat.lt_of_not_le fun hle => by rw [decBinary32_none hle] at h; cases h

/-- Decoding is exact: the value is the word's, as a rational number. -/
theorem ieeeValue_decBinary32 {w : Word} {v : Num64} (h : decBinary32 w = some v) :
    ieeeValue 52 11 v.bits.toNat = ieeeValue 23 8 w.toNat := by
  obtain ⟨wide, hlt, hu, hv⟩ := decBinary32_some (wordMag_lt_of_decBinary32 h)
  obtain rfl : v = numOf (wordNeg w) wide := Option.some.inj (h.symm.trans hv)
  have hwide : wide < signWeight binary64 := by
    rw [infPattern64_eq] at hlt; rw [signWeight64_eq]; omega
  have hunits : (unitsOf binary64 wide : ℚ) / 2 ^ unitExp binary64 =
      unitsOf binary32 (wordMag w) / 2 ^ unitExp binary32 := by
    rw [hu, ← unitExp_add_unitGap, pow_add, Nat.cast_mul, Nat.cast_pow, Nat.cast_ofNat]
    exact mul_div_mul_right _ _ (pow_ne_zero _ two_ne_zero)
  calc ieeeValue 52 11 (numOf (wordNeg w) wide).bits.toNat
      = ieeeValue 52 11 (signed binary64 (wordNeg w) wide) := by rw [numOf_bits _ (signWeight64_eq ▸ hwide)]
    _ = (if wordNeg w then -1 else 1) * (unitsOf binary64 wide / 2 ^ unitExp binary64 : ℚ) :=
        ieeeValue_signed (f := binary64) (by decide) _ hwide
    _ = (if wordNeg w then -1 else 1) * (unitsOf binary32 (wordMag w) / 2 ^ unitExp binary32 : ℚ) := by rw [hunits]
    _ = ieeeValue 23 8 (signed binary32 (wordNeg w) (wordMag w)) :=
        (ieeeValue_signed (f := binary32) (by decide) _ (wordMag_lt w)).symm
    _ = ieeeValue 23 8 w.toNat := by rw [signed_word]

/-! ### From binary64 to binary32 -/

theorem encBinary32_of_finite {v : Num64} (h : numFinite v = true) :
    encBinary32 v = BitVec.ofNat 32 (signed binary32 (numNeg v) (roundUnits binary32 (numUnits v) (2 ^ unitGap))) := by
  obtain ⟨hnan, hinf⟩ := (numFinite_iff v).1 h
  simp only [encBinary32, hnan, hinf, Bool.false_eq_true, if_false, unitGap]

/-- Encoding undoes decoding, sign of zero included. -/
theorem encBinary32_decBinary32 {w : Word} {v : Num64} (h : decBinary32 w = some v) : encBinary32 v = w := by
  have hmag := wordMag_lt_of_decBinary32 h
  obtain ⟨wide, hlt, hu, hv⟩ := decBinary32_some hmag
  obtain rfl : v = numOf (wordNeg w) wide := Option.some.inj (h.symm.trans hv)
  have hwide : wide < 2 ^ 63 := by rw [infPattern64_eq] at hlt; omega
  rw [encBinary32_of_finite (decBinary32_finite h), numNeg_numOf _ _ hwide, numUnits_numOf _ _ hwide, hu,
    roundUnits_mul_unitsOf (Nat.two_pow_pos _) hmag.le, ofNat_signed_word]

/-! ### Clamped samples -/

theorem numClamp_facts : numFinite numClamp = true ∧ numNeg numClamp = false := by decide +kernel

theorem numInt_numClamp : numInt numClamp = numUnits numClamp := by
  rw [numInt, numClamp_facts.2, if_neg Bool.false_ne_true]

theorem numInt_numNegate (x : Num64) : numInt (numNegate x) = -numInt x := by
  rw [numInt, numInt, numNegate_units, numNegate, numNeg_numOf _ _ (numMag_lt x)]
  cases numNeg x <;> simp

/-- +∞ counts as more units than 0.999 has. -/
theorem numClamp_lt_infinity : numUnits numClamp < unitsOf binary64 (infPattern binary64) := by decide +kernel

/-- A number within the clamp interval is finite, and has at most the units of 0.999. -/
theorem withinClamp_bound {v : Num64} (h : withinClamp v = true) :
    numFinite v = true ∧ numUnits v ≤ numUnits numClamp := by
  obtain ⟨hcn, -⟩ := (numFinite_iff numClamp).1 numClamp_facts.1
  obtain ⟨hnn, -⟩ := (numFinite_iff (numNegate numClamp)).1 ((numNegate_finite _).trans numClamp_facts.1)
  simp only [withinClamp, numLt, hcn, hnn, numInt_numNegate, numInt_numClamp, Bool.and_eq_true, Bool.not_eq_true',
    Bool.or_false, Bool.false_or] at h
  obtain ⟨⟨hnan, hlo⟩, hhi⟩ := h
  simp only [hnan, Bool.not_false, Bool.true_and, decide_eq_false_iff_not] at hlo hhi
  have hunits : numUnits v ≤ numUnits numClamp := by
    have := numInt_natAbs v
    omega
  refine ⟨(numFinite_iff v).2 ⟨hnan, ?_⟩, hunits⟩
  refine decide_eq_false fun hinf => ?_
  rw [numUnits, hinf] at hunits
  exact absurd hunits (Nat.not_le.2 numClamp_lt_infinity)

/-- The binary32 pattern of 0.999 (R240(b)). -/
theorem roundUnits_numClamp : roundUnits binary32 (numUnits numClamp) (2 ^ unitGap) = 0x3F7FBE77 := by decide +kernel

/-- The word of a number within the clamp interval has at most the magnitude of the word of 0.999. -/
theorem encBinary32_withinClamp {v : Num64} (h : withinClamp v = true) :
    (encBinary32 v).toNat % 2 ^ 31 ≤ 0x3F7FBE77 := by
  obtain ⟨hfin, hunits⟩ := withinClamp_bound h
  have hmag : roundUnits binary32 (numUnits v) (2 ^ unitGap) ≤ 0x3F7FBE77 :=
    (roundUnits_mono binary32 _ hunits).trans_eq roundUnits_numClamp
  rw [encBinary32_of_finite hfin, BitVec.toNat_ofNat, ← signWeight32_eq,
    Nat.mod_mod_of_dvd _ (by decide), signed_mod _ (hmag.trans_lt (by decide))]
  exact hmag

/-- Settles O44: its parts are exactness and the round trip at the defaults, finiteness under any parameters, and the bound on a
clamped sample's word. -/
theorem hostConversionsExactAndClamped : Obligations.HostConversionsExactAndClamped := by
  refine ⟨fun p w hp => ⟨?_, fun v hv => ?_⟩, fun p w v hv => dec32_finite hv, fun p v hp hv => ?_⟩
  · rw [dec32_default hp.1 hp.2, Option.map_eq_none_iff, decBinary32_eq_none_iff]
  · rw [dec32_default hp.1 hp.2] at hv
    obtain ⟨x, hx, rfl⟩ := Option.map_eq_some_iff.1 hv
    rw [enc32_default hp.2, toNum64_ofNum64]
    exact ⟨ieeeValue_decBinary32 hx, encBinary32_decBinary32 hx⟩
  · rw [enc32_default hp.2]
    exact encBinary32_withinClamp hv

end Sys2Proof.Machine
end

section
/-! PROOF. The implementation parameters of R8 are arguments of the model: no host write, no command and no move changes them. -/

namespace Sys2Proof.Machine

/-! ### The bus -/

theorem writeReg_params (r : Reg) (v : Word) (s : State) : (writeReg r v s).params = s.params := by
  cases r <;> simp only [writeReg, clearStatus_params, acceptCommand_params, writeFs_params, writeLogoLen_params]

theorem writeMem_params (m : MemName) (k : Nat) (v : Word) (s : State) : (writeMem m k v s).params = s.params := by
  cases m <;> simp only [writeMem]

theorem writeLoc_params (loc : Loc) (v : Word) (s : State) : (writeLoc loc v s).params = s.params := by
  cases loc with
  | reg r => exact writeReg_params r v s
  | mem m k => exact writeMem_params m k v s

theorem busRead_params (addr : BitVec 24) (size : Nat) (s : State) : (busRead addr size s).params = s.params := by
  obtain ⟨_, h⟩ | ⟨_, _, _, h⟩ | ⟨_, _, _, _, _, h⟩ := busRead_cases addr size s <;> simp [h]

theorem busWrite_params (addr : BitVec 24) (size : Nat) (v : Word) (s : State) :
    (busWrite addr size v s).params = s.params := by
  obtain ⟨_, h⟩ | ⟨_, _, _, _, _, h⟩ | ⟨loc, _, _, _, h⟩ := busWrite_cases addr size v s
  · simp [h]
  · rw [h]
  · rw [h, writeLoc_params]

theorem pollStatus_params (rest : List Turn) (s : State) : (pollStatus rest s).params = s.params := by
  rw [pollStatus_eq, reply_params]

/-! ### The commands -/

/-- A command that succeeds in a state `u` with the parameters of `s`. -/
theorem succeed_params {s u t : State} (hu : u.params = s.params) (h : succeed u = .next t) : t.params = s.params := by
  rw [succeed_next h, complete_params, hu]

theorem nextGroup_params {cmd : Mnemonic} {s : State} {r : (List Bool × GType) × State} (h : nextGroup cmd s = .ok r) :
    r.2.params = s.params := by
  rw [nextGroup_frame h]

theorem generate_params {cmd : Mnemonic} {n : Nat} {s : State} {r : List Bool × State} (h : generate cmd n s = .ok r) :
    r.2.params = s.params := by
  rw [generate_frame h]

theorem execNextgrp_params {s t : State} (h : execNextgrp s = .next t) : t.params = s.params := by
  obtain ⟨g, ty, s', hg, rfl⟩ := execNextgrp_next h
  rw [complete_params, writeG_params, nextGroup_params hg]

theorem execGenbits_params {imm : BitVec 16} {s t : State} (h : execGenbits imm s = .next t) : t.params = s.params := by
  obtain ⟨_, rfl⟩ | ⟨_, bs, s', hg, rfl⟩ := execGenbits_next h
  · rfl
  · exact generate_params hg

/-- A command's next state, on success or with an error code, has the parameters of the state it started from. -/
theorem exec_params {i : Instr} {s t : State} (h : exec i s = .next t) : t.params = s.params := by
  cases i with
  | nop => exact succeed_params (by rfl) h
  | srst => exact succeed_params (softReset_params s) h
  | crc10 imm => exact succeed_params (by rfl) h
  | pack blk imm => exact succeed_params (by rfl) h
  | grp0a imm => exact succeed_params (writeG_params _ _ s) h
  | grp2a imm => exact succeed_params (writeG_params _ _ s) h
  | psload imm => exact succeed_params (by rfl) h
  | rtload imm => exact succeed_params (by rfl) h
  | nextgrp => exact execNextgrp_params h
  | genbits imm => exact execGenbits_params h
  | seqrst => exact succeed_params (by rfl) h
  | design => obtain ⟨_, rfl⟩ | ⟨_, _, rfl⟩ | ⟨_, _, rfl⟩ := execDesign_next h <;> rfl
  | diffenc => obtain ⟨_, _, rfl⟩ := execDiffenc_next h; rfl
  | shape => obtain ⟨_, rfl⟩ | ⟨_, _, rfl⟩ | ⟨_, _, _, _, _, _, rfl⟩ := execShape_next h <;> rfl
  | mix car => obtain ⟨_, rfl⟩ | ⟨_, _, _, rfl⟩ := execMix_next h <;> rfl
  | modulate car => obtain ⟨_, rfl⟩ | ⟨_, _, rfl⟩ | ⟨_, _, _, _, _, _, rfl⟩ := execModulate_next h <;> rfl
  | compose =>
    obtain ⟨_, rfl⟩ | ⟨_, _, _, _, _, _, rfl⟩ | ⟨_, _, _, _, _, _, _, _, _, _, _, _, _, _, _, _, rfl⟩ :=
      execCompose_next h <;> rfl

/-! ### The moves -/

theorem execute_params {w : Word} {s t : State} (h : execute w s = .next t) : t.params = s.params := by
  obtain ⟨code, _, rfl⟩ | ⟨i, _, hi⟩ := execute_next h
  · exact complete_params code s
  · exact exec_params hi

theorem engineStep_params {s t : State} (h : engineStep s = .next t) : t.params = s.params := by
  obtain ⟨_, rfl⟩ | ⟨_, _, _, rfl⟩ | ⟨w, _, hw⟩ := engineStep_next h
  · rfl
  · rfl
  · exact execute_params hw

/-- Settles O60, by the kind of move the step makes. -/
theorem stepKeepsTheParameters : Obligations.StepKeepsTheParameters := by
  intro s t h
  obtain ⟨rest, he⟩ | ⟨addr, size, rest, _, rfl⟩ | ⟨addr, size, v, rest, _, rfl⟩ | ⟨rest, _, rfl⟩ | ⟨rest, _, rfl⟩ :=
    step_next h
  · exact (engineStep_params he).trans rfl
  · exact busRead_params addr size _
  · exact busWrite_params addr size v _
  · exact pollStatus_params rest s
  · exact powerOnReset_params _

end Sys2Proof.Machine
end

section
/-! PROOF. The invariant under host accesses and resets. Each update of the state has one lemma; an access is one of them. -/

namespace Sys2Proof.Machine

/-! ### Updates the invariant does not see -/

/-- `t` differs from `s` at most in the engine and its record of the command (LASTCMD, DONE, ERR), and in fields of which the
invariant says nothing. -/
def SameData (s t : State) : Prop :=
  t = { s with
    ctrl := t.ctrl, accErr := t.accErr, wBusy := t.wBusy, result := t.result, pi := t.pi, pilotLevel := t.pilotLevel,
    rdsLevel := t.rdsLevel, rds2Level := t.rds2Level, cyc := t.cyc, rtIdx := t.rtIdx, gtype := t.gtype, ps := t.ps,
    rt := t.rt, txt := t.txt, turns := t.turns, replies := t.replies, draws := t.draws,
    lastCmd := t.lastCmd, done := t.done, err := t.err, eng := t.eng }

/-- Such a state has the invariant as soon as its engine is consistent. -/
theorem inv_of_sameData {s t : State} (h : Inv s) (hd : SameData s t) (he : EngineConsistent t) : Inv t := by
  rw [hd] at he ⊢
  exact { h with
    canonical := { h.canonical with }
    capacity := { h.capacity with }
    lengths := { h.lengths with }
    buffers := { h.buffers with }
    engine := he }

theorem inv_setTexts {s : State} (ps : Vector Byte 8) (rt txt : Vector Byte 64) (h : Inv s) :
    Inv { s with ps := ps, rt := rt, txt := txt } :=
  inv_of_sameData h rfl h.engine

theorem inv_complete {s : State} (code : ErrCode) (h : Inv s) : Inv (complete code s) :=
  inv_of_sameData h rfl nofun

theorem inv_acceptCommand {s : State} (w : Word) (h : Inv s) : Inv (acceptCommand w s) := by
  refine inv_of_sameData h rfl fun v left hv => ?_
  rw [acceptCommand_eng] at hv
  cases hv
  exact ⟨rfl, rfl, rfl⟩

/-- Clearing bits of STATUS does not set DONE. -/
theorem inv_clearStatus {s : State} (v : Word) (h : Inv s) : Inv (clearStatus v s) := by
  refine inv_of_sameData h rfl fun w left hw => ?_
  obtain ⟨hcmd, hdone, herr⟩ := h.engine w left hw
  exact ⟨hcmd, by simp [hdone], herr⟩

/-- An engine step before the last one changes the count of steps to come only. -/
theorem inv_countdown {s : State} {w : Word} {n : Nat} (left : Nat) (h : Inv s) (hs : s.eng = .busy w n) :
    Inv { s with eng := .busy w left } := by
  refine inv_of_sameData h rfl fun v l hv => ?_
  cases hv
  exact h.engine w n hs

/-! ### Host writes -/

/-- A write of FS leaves no valid filter and no baseband or subcarrier (R30, R37, R38). -/
theorem inv_writeFs {s : State} (v : Word) (h : Inv s) : Inv (writeFs v s) :=
  { h with
    canonical := { h.canonical with }
    capacity := { h.capacity with }
    lengths := { h.lengths with bbLen := Nat.zero_le _, subLen := Nat.zero_le _, ntaps := Nat.zero_le _ }
    taps := ⟨nofun, fun _ => ⟨rfl, rfl⟩⟩
    buffers := { h.buffers with bb := nofun, sub := nofun } }

/-- A write of LOGO_LEN keeps it within the capacity and restarts the cursor (R36, R62). -/
theorem inv_writeLogoLen {s : State} (v : Word) (h : Inv s) : Inv (writeLogoLen v s) :=
  { h with
    canonical := { h.canonical with }
    capacity := { h.capacity with }
    lengths := { h.lengths with logoLen := Nat.min_le_right _ _ }
    cursor := .inl rfl
    buffers := { h.buffers with } }

theorem inv_setNsamp {s : State} {n : Nat} (h : Inv s) (hn : n ≤ s.params.sampleCap) : Inv { s with nsamp := n } :=
  { h with
    canonical := { h.canonical with }
    capacity := { h.capacity with }
    lengths := { h.lengths with nsamp := hn }
    buffers := { h.buffers with } }

theorem inv_setBitLen {s : State} {n : Nat} (h : Inv s) (hn : n ≤ s.params.bitCap) : Inv { s with bitLen := n } :=
  { h with
    canonical := { h.canonical with }
    capacity := { h.capacity with }
    lengths := { h.lengths with bitLen := hn }
    buffers := { h.buffers with } }

/-- An accepted write of a register; a write of CMD is the acceptance of its command. -/
theorem inv_writeReg {s : State} (r : Reg) (v : Word) (h : Inv s) : Inv (writeReg r v s) := by
  cases r with
  | cmd => exact inv_acceptCommand v h
  | status => exact inv_clearStatus v h
  | fs => exact inv_writeFs v h
  | logoLen => exact inv_writeLogoLen v h
  | nsamp => exact inv_setNsamp h (Nat.min_le_right _ _)
  | bitLen => exact inv_setBitLen h (Nat.min_le_right _ _)
  | txt k => exact inv_setTexts s.ps s.rt (setWordOfBytes s.txt k.val v) h
  | ctrl | pi | pilotLevel | rdsLevel | rds2Level => exact inv_of_sameData h rfl h.engine
  | _ => exact h

theorem inv_setBitMem {s : State} {m : Mem Bool} (h : Inv s) (hw : Memory.wf m) (hc : memBelow s.params.bitCap m) :
    Inv { s with bitMem := m } :=
  { h with
    canonical := { h.canonical with bit := hw }
    capacity := { h.capacity with bit := hc }
    lengths := { h.lengths with }
    buffers := { h.buffers with } }

/-- An accepted write of a reachable word of a window keeps the memory's form and its capacity. -/
theorem inv_writeMem {s : State} {m : MemName} {k : Nat} (v : Word) (h : Inv s) (hk : k < windowWords s.params m) :
    Inv (writeMem m k v s) := by
  cases m with
  | l => exact { h with
      canonical := { h.canonical with l := memWf_memSet _ _ _ h.canonical.l }
      capacity := { h.capacity with l := memBelow_memSet _ _ _ _ hk h.capacity.l }
      lengths := { h.lengths with }
      buffers := { h.buffers with } }
  | r => exact { h with
      canonical := { h.canonical with r := memWf_memSet _ _ _ h.canonical.r }
      capacity := { h.capacity with r := memBelow_memSet _ _ _ _ hk h.capacity.r }
      lengths := { h.lengths with }
      buffers := { h.buffers with } }
  | bit => exact inv_setBitMem h (memWf_packedWrite _ _ _ _ h.canonical.bit) (memBelow_packedWrite _ _ _ _ h.capacity.bit)
  | logo => exact { h with
      canonical := { h.canonical with logo := memWf_packedWrite _ _ _ _ h.canonical.logo }
      capacity := { h.capacity with logo := memBelow_packedWrite _ _ _ _ h.capacity.logo }
      lengths := { h.lengths with }
      buffers := { h.buffers with } }
  | out | bb | sub | tap | sym => exact h

/-- A host write: rejected, dropped, or taken. -/
theorem inv_busWrite {s : State} (addr : BitVec 24) (size : Nat) (v : Word) (h : Inv s) :
    Inv (busWrite addr size v s) := by
  obtain ⟨_, hb⟩ | ⟨_, _, _, _, _, hb⟩ | ⟨loc, htarget, _, _, hb⟩ := busWrite_cases addr size v s
  · exact hb ▸ inv_of_sameData h rfl h.engine
  · exact hb ▸ inv_of_sameData h rfl h.engine
  · rw [hb]
    cases loc with
    | reg r => exact inv_writeReg r v h
    | mem m k => exact inv_writeMem v h (busTarget_mem htarget)

/-- A host read, and a poll of STATUS, change ACCERR, the replies, the draw counter and the moves to come only. -/
theorem inv_busRead {s : State} (addr : BitVec 24) (size : Nat) (h : Inv s) : Inv (busRead addr size s) := by
  obtain ⟨_, hb⟩ | ⟨_, _, _, hb⟩ | ⟨_, _, _, _, _, hb⟩ := busRead_cases addr size s <;>
    exact hb ▸ inv_of_sameData h rfl h.engine

theorem inv_pollStatus {s : State} (rest : List Turn) (h : Inv s) : Inv (pollStatus rest s) :=
  pollStatus_eq rest s ▸ inv_of_sameData h rfl h.engine

/-! ### The group buffer -/

/-- A group buffer of zeros has no bit set. -/
theorem gbufBit_zero {s : State} (h : s.gbuf = .replicate 4 0) {j : Nat} (hj : j < 128) : gbufBit s j = false := by
  rw [gbufBit, h, Vector.toList_replicate, List.getD_replicate _ (by omega)]
  simp

/-- Bit `j` of a group buffer written by `writeG` is bit `j` of the sequence, and 0 beyond it (R146). -/
theorem gbufBit_writeG (g : List Bool) (ty : GType) (s : State) {j : Nat} (hj : j < 128) :
    gbufBit (writeG g ty s) j = (g[j]?).getD false := by
  have hk : j / 32 < 4 := by omega
  simp only [gbufBit, writeG_gbuf]
  rw [List.getD_eq_getElem _ _ (by simpa using hk), Vector.getElem_toList, Vector.getElem_ofFn,
    packWord_getMsbD _ _ (Nat.mod_lt _ (by decide)), Nat.div_add_mod]

/-! ### Resets -/

/-- With no memory element defined and every register at its reset value, the invariant asks for legal capacities only. -/
theorem inv_powerOnReset {s : State} (h : Inv s) : Inv (powerOnReset s) where
  params := h.params
  canonical := by constructor <;> exact memWf_nil
  capacity := by constructor <;> exact nofun
  lengths := by constructor <;> exact Nat.zero_le _
  cursor := .inl rfl
  taps := ⟨nofun, fun _ => ⟨rfl, rfl⟩⟩
  engine := nofun
  group := ⟨Nat.zero_le _, fun j _ hj => gbufBit_zero rfl hj⟩
  buffers := by constructor <;> exact nofun
  output := nofun

/-- SRST leaves the memories, and so what OUT_MEM holds. -/
theorem inv_softReset {s : State} (h : Inv s) : Inv (softReset s) :=
  { h with
    canonical := { h.canonical with }
    capacity := { h.capacity with }
    lengths := by constructor <;> exact Nat.zero_le _
    cursor := .inl rfl
    taps := ⟨nofun, fun _ => ⟨rfl, rfl⟩⟩
    group := ⟨Nat.zero_le _, fun j _ hj => gbufBit_zero rfl hj⟩
    buffers := by constructor <;> exact nofun }

end Sys2Proof.Machine
end

section
/-! PROOF. The invariant under the commands: what each stores, and how a command is made of such stores and a completion. With the host
accesses and the resets, this is every move of the machine. -/

namespace Sys2Proof.Machine

/-! ### The sequencer -/

theorem inv_writeG {s : State} {g : List Bool} (ty : GType) (h : Inv s) (hg : g.length ≤ 104) : Inv (writeG g ty s) :=
  { h with
    canonical := { h.canonical with }
    capacity := { h.capacity with }
    lengths := { h.lengths with }
    group := ⟨hg, fun j hlen hj => by rw [gbufBit_writeG g ty s hj, List.getElem?_eq_none hlen]; rfl⟩
    buffers := { h.buffers with } }

theorem inv_setLogoCur {s : State} {n : Nat} (h : Inv s) (hn : n = 0 ∨ n < s.logoLen) : Inv { s with logoCur := n } :=
  { h with
    canonical := { h.canonical with }
    capacity := { h.capacity with }
    lengths := { h.lengths with }
    cursor := hn
    buffers := { h.buffers with } }

theorem logoPresent_iff (s : State) : logoPresent s = true ↔ logoEn s = true ∧ 0 < s.logoLen := by
  simp [logoPresent]

/-- R62: the cursor after a chunk has wrapped or is still inside the logo stream. -/
theorem nextLogoCur_legal {s : State} (hp : logoPresent s = true) (hc : LogoCursorLegal s) :
    nextLogoCur s = 0 ∨ nextLogoCur s < s.logoLen := by
  have hlen : 0 < s.logoLen := (logoPresent_iff s).1 hp |>.2
  rw [nextLogoCur]
  split
  · exact .inl rfl
  · rename_i hne
    have hmin : logoChunkLen s ≤ s.logoLen - s.logoCur := Nat.min_le_right _ _
    rw [LogoCursorLegal] at hc
    exact .inr (by omega)

/-- One emission keeps the cursor legal (R62). -/
theorem inv_nextGroup {cmd : Mnemonic} {s t : State} {g : List Bool} {ty : GType} (h : Inv s)
    (hn : nextGroup cmd s = .ok ((g, ty), t)) : Inv t := by
  obtain ⟨hp, _, _, _, _, rfl⟩ | ⟨_, _, _, _, rfl⟩ | ⟨_, _, _, _, rfl⟩ := nextGroup_ok hn
  · have hcur := inv_setLogoCur h (nextLogoCur_legal hp h.cursor)
    exact inv_of_sameData hcur rfl hcur.engine
  · exact inv_of_sameData h rfl h.engine
  · exact inv_of_sameData h rfl h.engine

theorem inv_generateLoop {cmd : Mnemonic} {n fuel : Nat} {out : List Bool} {s : State} {r : List Bool × State}
    (h : Inv s) (hl : generateLoop cmd n fuel out s = .ok r) : Inv r.2 := by
  induction fuel generalizing out s with
  | zero => cases hl; exact h
  | succ fuel ih =>
    rw [generateLoop] at hl
    split at hl
    · split at hl
      · cases hl
      · rename_i g ty s' hg
        exact ih (inv_nextGroup h hg) hl
    · cases hl; exact h

theorem inv_generate {cmd : Mnemonic} {n : Nat} {s : State} {r : List Bool × State} (h : Inv s)
    (hg : generate cmd n s = .ok r) : Inv r.2 := by
  rw [generate] at hg
  split at hg
  · cases hg
  · rename_i out s' hl
    cases hg
    exact inv_generateLoop (r := (out, s')) h hl

/-! ### The signal commands -/

/-- The bits GENBITS stores. -/
theorem inv_storeBits {s : State} {bs : List Bool} {n : Nat} (h : Inv s) (hn : bs.length = n)
    (hlen : n ≤ s.params.bitCap) : Inv { s with bitMem := memFill s.bitMem bs, bitLen := n } :=
  have hmem := inv_setBitMem h (memWf_memFill _ _ h.canonical.bit)
    (memBelow_memFill _ _ _ (hn.le.trans hlen) h.capacity.bit)
  inv_setBitLen hmem hlen

/-- A block stored from index 0 is defined. -/
theorem memFill_isSome {α : Type} (m : Mem α) (vs : List α) {k : Nat} (hk : k < vs.length) :
    (memGet (memFill m vs) k).isSome = true := by
  simp [memGet_memFill, hk]

/-- The symbols DIFFENC and MODULATE store. -/
theorem inv_storeSymbols {s : State} {vs : List SymVal} {n : Nat} (h : Inv s) (hn : vs.length = n)
    (hlen : n ≤ s.params.bitCap) : Inv { s with symMem := memFill s.symMem vs, symLen := n } := by
  subst hn
  exact { h with
    canonical := { h.canonical with sym := memWf_memFill _ _ h.canonical.sym }
    capacity := { h.capacity with sym := memBelow_memFill _ _ _ hlen h.capacity.sym }
    lengths := { h.lengths with symLen := hlen }
    buffers := { h.buffers with sym := fun _ hk => memFill_isSome _ _ hk } }

/-- The baseband SHAPE and MODULATE store. -/
theorem inv_storeBaseband {s : State} {vs : List NumVal} {n : Nat} (h : Inv s) (hn : vs.length = n)
    (hlen : n ≤ s.params.sampleCap) : Inv { s with bbMem := memFill s.bbMem vs, bbLen := n } := by
  subst hn
  exact { h with
    canonical := { h.canonical with bb := memWf_memFill _ _ h.canonical.bb }
    capacity := { h.capacity with bb := memBelow_memFill _ _ _ hlen h.capacity.bb }
    lengths := { h.lengths with bbLen := hlen }
    buffers := { h.buffers with bb := fun _ hk => memFill_isSome _ _ hk } }

/-- The subcarrier MIX and MODULATE store. -/
theorem inv_storeSubcarrier {s : State} {vs : List NumVal} {n : Nat} (h : Inv s) (hn : vs.length = n)
    (hlen : n ≤ s.params.sampleCap) : Inv { s with subMem := memFill s.subMem vs, subLen := n } := by
  subst hn
  exact { h with
    canonical := { h.canonical with sub := memWf_memFill _ _ h.canonical.sub }
    capacity := { h.capacity with sub := memBelow_memFill _ _ _ hlen h.capacity.sub }
    lengths := { h.lengths with subLen := hlen }
    buffers := { h.buffers with sub := fun _ hk => memFill_isSome _ _ hk } }

/-- The filter DESIGN stores is the one of the current rate (R63). -/
theorem inv_storeTaps {s : State} (h : Inv s) (hr : rateOk s.fs.toNat = true)
    (hlen : ntapsOf (spsOf s.fs.toNat) ≤ s.params.tapCap) :
    Inv { s with
      tapMem := memFill s.tapMem (designTaps (numType s.params) s.fs.toNat)
      sps := spsOf s.fs.toNat
      ntaps := ntapsOf (spsOf s.fs.toNat)
      tapsValid := true } :=
  have hlen' : (designTaps (numType s.params) s.fs.toNat).length ≤ s.params.tapCap := by rwa [designTaps_length]
  { h with
    canonical := { h.canonical with tap := memWf_memFill _ _ h.canonical.tap }
    capacity := { h.capacity with tap := memBelow_memFill _ _ _ hlen' h.capacity.tap }
    lengths := { h.lengths with ntaps := hlen }
    taps := by
      refine ⟨fun _ => ⟨of_decide_eq_true hr, rfl, rfl, fun i hi => ?_⟩, nofun⟩
      rw [memGet_memFill, designTaps_length, if_pos hi]
    buffers := { h.buffers with } }

/-- The bounds of the clamp are within the clamp. -/
theorem withinClamp_bounds : withinClamp (numNegate numClamp) = true ∧ withinClamp numClamp = true := by decide +kernel

/-- R16, R240(b): what clampOut makes of a finite binary64 value lies within the clamp. -/
theorem withinClamp_clampOut {x : NumVal} (h : numFinite (toNum64 x) = true) :
    withinClamp (toNum64 (clampOut binary64Num x)) = true := by
  rw [clampOut]
  split
  · simpa using withinClamp_bounds.1
  · rename_i hlo
    split
    · simpa using withinClamp_bounds.2
    · rename_i hhi
      simp only [binary64Num_lt, binary64Num_gt, binary64Num_neg, binary64Num_clamp, toNum64_ofNum64] at hlo hhi
      simp [withinClamp, ((numFinite_iff _).1 h).1, hlo, hhi]

/-- The output COMPOSE stores is clamped from finite sums. -/
theorem inv_storeOutput {s : State} {sums : List NumVal} (h : Inv s) (hlen : sums.length ≤ s.params.sampleCap)
    (hfin : ∀ v ∈ sums, (numType s.params).isFinite v = true) :
    Inv { s with outMem := memFill s.outMem (sums.map (clampOut (numType s.params))) } :=
  { h with
    canonical := { h.canonical with out := memWf_memFill _ _ h.canonical.out }
    capacity := { h.capacity with out := memBelow_memFill _ _ _ (by rwa [List.length_map]) h.capacity.out }
    lengths := { h.lengths with }
    buffers := { h.buffers with }
    output := by
      intro k v hv
      rw [memGet_memFill] at hv
      split at hv
      · rw [List.getElem?_map, Option.map_eq_some_iff] at hv
        obtain ⟨x, hx, rfl⟩ := hv
        have hx' := hfin x (List.mem_of_getElem? hx)
        refine ⟨⟨x, hx', rfl⟩, fun hp => ?_⟩
        rw [numType_binary64 hp] at hx' ⊢
        exact withinClamp_clampOut hx'
      · exact h.output k v hv }

/-! ### The commands -/

theorem inv_succeed {s t : State} (h : succeed s = .next t) (hs : Inv s) : Inv t :=
  succeed_next h ▸ inv_complete .ok hs

theorem inv_execNextgrp {s t : State} (hs : Inv s) (h : execNextgrp s = .next t) : Inv t := by
  obtain ⟨g, ty, s', hg, rfl⟩ := execNextgrp_next h
  exact inv_complete .ok (inv_writeG ty (inv_nextGroup hs hg) (nextGroup_length hg).1)

theorem inv_execGenbits {imm : BitVec 16} {s t : State} (hs : Inv s) (h : execGenbits imm s = .next t) : Inv t := by
  obtain ⟨_, rfl⟩ | ⟨hcap, bs, s', hg, rfl⟩ := execGenbits_next h
  · exact inv_complete .cap hs
  · have hp : s'.params = s.params := generate_params hg
    exact inv_complete .ok (inv_storeBits (inv_generate hs hg) (generate_length hg) (hp ▸ hcap))

theorem inv_execDesign {s t : State} (hs : Inv s) (h : execDesign s = .next t) : Inv t := by
  obtain ⟨_, rfl⟩ | ⟨_, _, rfl⟩ | ⟨hr, hlen, rfl⟩ := execDesign_next h
  · exact inv_complete .rate hs
  · exact inv_complete .cap hs
  · exact inv_complete .ok (inv_storeTaps hs hr hlen)

/-- As many symbols as operand bits (R198). -/
theorem diffenc_operand_length {cmd : Mnemonic} {name : MemName} {m : Mem Bool} {a n : Nat} {bits : List Bool}
    (h : readOperand cmd name m a n = .ok bits) : (diffenc bits).length = n := by
  rw [diffenc_length, (readOperand_ok h).1]

theorem inv_execDiffenc {s t : State} (hs : Inv s) (h : execDiffenc s = .next t) : Inv t := by
  obtain ⟨bits, hbits, rfl⟩ := execDiffenc_next h
  exact inv_complete .ok (inv_storeSymbols hs (diffenc_operand_length hbits) hs.lengths.bitLen)

theorem inv_execShape {s t : State} (hs : Inv s) (h : execShape s = .next t) : Inv t := by
  obtain ⟨_, rfl⟩ | ⟨_, _, rfl⟩ | ⟨_, hcap, syms, taps, hsyms, _, rfl⟩ := execShape_next h
  · exact inv_complete .noTaps hs
  · exact inv_complete .cap hs
  · refine inv_complete .ok (inv_storeBaseband hs ?_ hcap)
    rw [baseband_length, (readOperand_ok hsyms).1]

theorem inv_execMix {car : Carrier} {s t : State} (hs : Inv s) (h : execMix car s = .next t) : Inv t := by
  obtain ⟨_, rfl⟩ | ⟨_, bb, hbb, rfl⟩ := execMix_next h
  · exact inv_complete .noTaps hs
  · refine inv_complete .ok (inv_storeSubcarrier hs ?_ hs.lengths.bbLen)
    rw [mixAll_length, (readOperand_ok hbb).1]

/-- MODULATE stores what DIFFENC, SHAPE and MIX store (R207). -/
theorem inv_execModulate {car : Carrier} {s t : State} (hs : Inv s) (h : execModulate car s = .next t) : Inv t := by
  obtain ⟨_, rfl⟩ | ⟨_, _, rfl⟩ | ⟨_, hcap, bits, taps, hbits, _, rfl⟩ := execModulate_next h
  · exact inv_complete .noTaps hs
  · exact inv_complete .cap hs
  · have hsyms := diffenc_operand_length hbits
    have hbb : (baseband (numType s.params) (diffenc bits) s.sps taps).length = s.bitLen * s.sps := by
      rw [baseband_length, hsyms]
    exact inv_complete .ok (inv_storeSubcarrier
      (inv_storeBaseband (inv_storeSymbols hs hsyms hs.lengths.bitLen) hbb hcap) ((mixAll_length ..).trans hbb) hcap)

theorem inv_execCompose {s t : State} (hs : Inv s) (h : execCompose s = .next t) : Inv t := by
  obtain ⟨_, rfl⟩ | ⟨_, _, _, _, _, _, rfl⟩ | ⟨_, ls, rs, l, r, lv, bits, taps, hl, _, hdec, _, _, _, _, hfin, rfl⟩ :=
    execCompose_next h
  · exact inv_complete .noTaps hs
  · exact inv_complete .nonFinite hs
  · refine inv_complete .ok (inv_storeOutput hs ?_ hfin)
    have hlen : l.length = s.nsamp := by
      rw [← (readOperand_ok hl).1]
      simpa using (congrArg List.length (allSome_some hdec)).symm
    rw [composeSums_length, List.length_zip, hlen]
    exact (Nat.min_le_left _ _).trans hs.lengths.nsamp

theorem inv_exec {i : Instr} {s t : State} (hs : Inv s) (h : exec i s = .next t) : Inv t := by
  cases i with
  | nop => exact inv_succeed h hs
  | srst => exact inv_succeed h (inv_softReset hs)
  | crc10 imm => exact inv_succeed h (inv_of_sameData hs rfl hs.engine)
  | pack blk imm => exact inv_succeed h (inv_of_sameData hs rfl hs.engine)
  | grp0a imm => exact inv_succeed h (inv_writeG _ hs (group0A_length _ _).le)
  | grp2a imm => exact inv_succeed h (inv_writeG _ hs (group2A_length _ _).le)
  | psload imm => exact inv_succeed h (inv_setTexts _ s.rt s.txt hs)
  | rtload imm => exact inv_succeed h (inv_setTexts s.ps _ s.txt hs)
  | nextgrp => exact inv_execNextgrp hs h
  | genbits imm => exact inv_execGenbits hs h
  | seqrst =>
    have hcur := inv_setLogoCur hs (.inl rfl)
    exact inv_succeed h (inv_of_sameData hcur rfl hcur.engine)
  | design => exact inv_execDesign hs h
  | diffenc => exact inv_execDiffenc hs h
  | shape => exact inv_execShape hs h
  | mix car => exact inv_execMix hs h
  | modulate car => exact inv_execModulate hs h
  | compose => exact inv_execCompose hs h

/-! ### The moves -/

theorem inv_execute {w : Word} {s t : State} (hs : Inv s) (h : execute w s = .next t) : Inv t := by
  obtain ⟨code, _, rfl⟩ | ⟨i, _, hi⟩ := execute_next h
  · exact inv_complete code hs
  · exact inv_exec hs hi

theorem inv_engineStep {s t : State} (hs : Inv s) (h : engineStep s = .next t) : Inv t := by
  obtain ⟨_, rfl⟩ | ⟨w, left, he, rfl⟩ | ⟨w, _, hw⟩ := engineStep_next h
  · exact hs
  · exact inv_countdown left hs he
  · exact inv_execute hs hw

/-- The moves to come are no part of the invariant. -/
theorem inv_setTurns {s : State} (turns : List Turn) (h : Inv s) : Inv { s with turns := turns } :=
  inv_of_sameData h rfl h.engine

/-- Settles O58, by the kind of move the step makes. -/
theorem stepKeepsTheInvariant : Obligations.StepKeepsTheInvariant := by
  intro s t hs h
  obtain ⟨rest, he⟩ | ⟨addr, size, rest, _, rfl⟩ | ⟨addr, size, v, rest, _, rfl⟩ | ⟨rest, _, rfl⟩ | ⟨rest, _, rfl⟩ :=
    step_next h
  · exact inv_engineStep (inv_setTurns rest hs) he
  · exact inv_busRead addr size (inv_setTurns rest hs)
  · exact inv_busWrite addr size v (inv_setTurns rest hs)
  · exact inv_pollStatus rest hs
  · exact inv_powerOnReset (inv_setTurns rest hs)

end Sys2Proof.Machine
end

section
/-! PROOF. Host accesses by location: the address of a register, or of a reachable window word, names it (R72), and what a step does that
accesses it while idle. -/

namespace Sys2Proof.Machine

/-! ### Addresses -/

/-- The two readings of the register table agree. -/
theorem regAt_regOffset (r : Reg) : regAt (regOffset r) = some r := by
  cases r with
  | gbuf k => revert k; decide
  | ps k => revert k; decide
  | rt k => revert k; decide
  | txt k => revert k; decide
  | _ => rfl

theorem regOffset_lt (r : Reg) : regOffset r < 0x140 := by
  cases r <;> simp only [regOffset] <;> omega

theorem regOffset_aligned (r : Reg) : regOffset r % 4 = 0 := by
  cases r <;> simp only [regOffset] <;> omega

/-- The access at the address of a register names that register. -/
theorem busTarget_reg (s : State) (r : Reg) : busTarget s (locAddr (.reg r)) 4 = some (.reg r) := by
  have hlt := regOffset_lt r
  have haddr : (locAddr (.reg r)).toNat = regOffset r := by
    rw [locAddr, BitVec.toNat_ofNat, Nat.mod_eq_of_lt (by omega)]
  have hwf : accessWellFormed (locAddr (.reg r)) 4 = true := by simp [accessWellFormed, haddr, regOffset_aligned]
  rw [busTarget, if_pos hwf, haddr, locate, if_pos (by omega), regAt_regOffset]

/-- The bytes of a window (R72). -/
def windowSize : MemName → Nat
  | .bit | .sym => 0x40000
  | .logo => 0x80000
  | _ => 0x100000

/-- The window of an address is found from the address. -/
theorem windowAt_base {m : MemName} {i : Nat} (hi : i < windowSize m) :
    windowAt (windowBase m + i) = some (m, windowBase m) := by
  cases m <;> simp only [windowSize, windowBase, windowAt] at hi ⊢ <;> grind

/-- Legal capacities fit their windows (R8, R72). -/
theorem windowWords_le {p : Params} (hp : p.wellFormed = true) (m : MemName) : 4 * windowWords p m ≤ windowSize m := by
  simp only [Params.wellFormed, Bool.and_eq_true, decide_eq_true_eq] at hp
  obtain ⟨⟨⟨⟨_, hsample⟩, _, hbit⟩, _, hlogo⟩, _, htap⟩ := hp
  cases m <;> simp only [windowWords, isPacked, memCap, windowSize, if_true, Bool.false_eq_true, if_false] <;> omega

theorem windowBase_bounds (m : MemName) :
    0x100000 ≤ windowBase m ∧ windowBase m + windowSize m ≤ 0x800000 ∧ windowBase m % 4 = 0 := by
  cases m <;> decide

/-- The access at the address of a reachable window word names that word. -/
theorem busTarget_window {s : State} {m : MemName} {k : Nat} (hp : s.params.wellFormed = true)
    (hk : k < windowWords s.params m) : busTarget s (locAddr (.mem m k)) 4 = some (.mem m k) := by
  obtain ⟨hlow, hhigh, halign⟩ := windowBase_bounds m
  have hoff : 4 * k < windowSize m := by have := windowWords_le hp m; omega
  have haddr : (locAddr (.mem m k)).toNat = windowBase m + 4 * k := by
    rw [locAddr, BitVec.toNat_ofNat, Nat.mod_eq_of_lt (by omega)]
  have hwf : accessWellFormed (locAddr (.mem m k)) 4 = true := by
    rw [accessWellFormed, haddr]
    simp; omega
  rw [busTarget, if_pos hwf, haddr, locate, if_neg (by omega), windowAt_base hoff]
  simp [hk]

/-! ### Steps -/

/-- A write that is taken: of any writable location while idle, of STATUS at any time. -/
theorem step_write {s : State} {addr : BitVec 24} {v : Word} {rest : List Turn} {loc : Loc}
    (ht : s.turns = .write addr 4 v :: rest) (htarget : busTarget s addr 4 = some loc) (hw : locWritable loc = true)
    (hidle : s.eng = .idle ∨ loc = .reg .status) : step s = .next (writeLoc loc v { s with turns := rest }) := by
  have htarget' : busTarget { s with turns := rest } addr 4 = some loc := htarget
  have hnodrop : ¬(isBusy { s with turns := rest } = true ∧ loc ≠ .reg .status) := by
    rintro ⟨hbusy, hloc⟩
    obtain hidle := hidle.resolve_right hloc
    rw [isBusy, hidle] at hbusy
    cases hbusy
  rw [step, nextMove, ht]
  simp only [busWrite, htarget', hw, hnodrop, Bool.true_eq_false, if_false]

theorem step_writeReg {s : State} {v : Word} {rest : List Turn} (r : Reg)
    (ht : s.turns = .write (locAddr (.reg r)) 4 v :: rest) (hw : regWritable r = true)
    (hidle : s.eng = .idle ∨ r = .status) : step s = .next (writeReg r v { s with turns := rest }) :=
  step_write ht (busTarget_reg s r) hw (hidle.imp_right (congrArg Loc.reg))

/-- A read of a location that has a value, while idle. -/
theorem step_read {s : State} {addr : BitVec 24} {v : Word} {rest : List Turn} {loc : Loc} (hidle : s.eng = .idle)
    (ht : s.turns = .read addr 4 :: rest) (htarget : busTarget s addr 4 = some loc) (hv : readLoc s loc = some v) :
    step s = .next { s with replies := v :: s.replies, turns := rest } := by
  have htarget' : busTarget { s with turns := rest } addr 4 = some loc := htarget
  have hset : inWriteSet { s with turns := rest } loc = false := by simp [inWriteSet, inFlight, hidle]
  have hv' : readLoc { s with turns := rest } loc = some v := by rw [← hv]; cases loc <;> rfl
  rw [step, nextMove, ht]
  simp [busRead, htarget', hset, hv', reply]

end Sys2Proof.Machine
end

section
/-! PROOF. What a host write of each writable register stores (R25, R29 to R36, R49, R78). -/

namespace Sys2Proof.Machine

/-- Byte `j` of a text after a host write of its word `k` (R78). -/
theorem setWordOfBytes_toList {n : Nat} (v : Vector Byte n) (k : Nat) (w : Word) {j : Nat} (hj : j < n) :
    (setWordOfBytes v k w).toList[j]? = if j / 4 = k then some (byteOfWord w (j % 4)) else v.toList[j]? := by
  rw [Vector.getElem?_toList, Vector.getElem?_toList, Vector.getElem?_eq_getElem hj, Vector.getElem?_eq_getElem hj,
    setWordOfBytes_getElem v k w j hj]
  split <;> rfl

/-- Settles O54, one register after the other. -/
theorem registerWritesStoreTheLegalValue : Obligations.RegisterWritesStoreTheLegalValue := by
  intro s v rest hidle
  refine ⟨fun ht => ?_, fun ht => ?_, fun ht => ?_, fun ht => ?_, fun ht => ?_, fun ht => ?_, fun ht => ?_,
    fun ht => ?_, fun ht => ?_, fun k ht => ?_⟩
  · rw [← BitVec.setWidth_eq_extractLsb' (by decide)]
    exact step_writeReg .ctrl ht rfl (.inl hidle)
  · rw [← BitVec.setWidth_eq_extractLsb' (by decide)]
    exact step_writeReg .pi ht rfl (.inl hidle)
  · exact step_writeReg .fs ht rfl (.inl hidle)
  · exact step_writeReg .pilotLevel ht rfl (.inl hidle)
  · exact step_writeReg .rdsLevel ht rfl (.inl hidle)
  · exact step_writeReg .rds2Level ht rfl (.inl hidle)
  · exact step_writeReg .nsamp ht rfl (.inl hidle)
  · exact step_writeReg .bitLen ht rfl (.inl hidle)
  · exact step_writeReg .logoLen ht rfl (.inl hidle)
  · exact ⟨_, step_writeReg (.txt k) ht rfl (.inl hidle), rfl, fun j hj => setWordOfBytes_toList s.txt k.val v hj⟩

end Sys2Proof.Machine
end

section
/-! PROOF. STATUS and the interrupt line (R26, R64, R262, R274, R275). -/

namespace Sys2Proof.Machine

theorem getLsbD_bitAt (b : Bool) (n : Nat) {i : Nat} (hi : i < 32) : (bitAt b n).getLsbD i = (decide (i = n) && b) := by
  rw [bitAt, BitVec.getLsbD_shiftLeft, BitVec.getLsbD_setWidth, BitVec.getLsbD_ofBool]
  by_cases h : i < n
  · simp [h, h.ne]
  · simp [h, hi, show i - n < 32 by omega, show i - n = 0 ↔ i = n by omega]

/-- Bit `i` of STATUS: the flags at their positions, and ERR from bit 4 on (R26). -/
theorem getLsbD_statusWord (s : State) {i : Nat} (hi : i < 32) : (statusWord s).getLsbD i =
    (decide (i = 0) && isBusy s || decide (i = 1) && s.done || decide (i = 2) && s.tapsValid ||
      !decide (i < 4) && (errBits s.err).getLsbD (i - 4) || decide (i = 8) && s.accErr || decide (i = 9) && s.wBusy) := by
  have herr : ((errBits s.err).setWidth 32 <<< 4).getLsbD i = (!decide (i < 4) && (errBits s.err).getLsbD (i - 4)) := by
    simp [hi]
  simp only [statusWord, BitVec.getLsbD_or, getLsbD_bitAt _ _ hi, herr]

/-- ERR stands at bits 7:4 of STATUS. -/
theorem statusWord_err (s : State) : (statusWord s).extractLsb' 4 4 = errBits s.err := by
  refine BitVec.eq_of_getLsbD_eq fun i hi => ?_
  rw [BitVec.getLsbD_extractLsb', getLsbD_statusWord s (by omega)]
  simp [hi, show 4 + i ≠ 1 by omega, show 4 + i ≠ 2 by omega, show 4 + i ≠ 8 by omega,
    show 4 + i ≠ 9 by omega]

/-- Bits 31:10 of STATUS are 0. -/
theorem statusWord_reserved (s : State) : (statusWord s).extractLsb' 10 22 = 0 := by
  refine BitVec.eq_of_getLsbD_eq fun i hi => ?_
  rw [BitVec.getLsbD_extractLsb', getLsbD_statusWord s (by omega),
    BitVec.getLsbD_of_ge (errBits s.err) (10 + i - 4) (by omega)]
  simp [show 10 + i ≠ 1 by omega, show 10 + i ≠ 2 by omega, show 10 + i ≠ 8 by omega,
    show 10 + i ≠ 9 by omega]

theorem step_writeStatus {s : State} {v : Word} {rest : List Turn} (ht : s.turns = .write 0x00000C 4 v :: rest) :
    step s = .next (clearStatus v { s with turns := rest }) :=
  step_writeReg .status ht rfl (.inr rfl)

/-- Settles O55: the fields, the write, and the three falls of the interrupt line. -/
theorem statusFieldsClearingAndIrq : Obligations.StatusFieldsClearingAndIrq := by
  refine ⟨fun s => ?_, fun s v rest ht => step_writeStatus ht, fun s => rfl, fun s v rest => ⟨?_, ?_, ?_⟩⟩
  · refine ⟨?_, ?_, ?_, ?_, ?_, ?_, ?_, statusWord_reserved s⟩
    · rw [getLsbD_statusWord s (by decide)]; simp
    · rw [getLsbD_statusWord s (by decide)]; simp
    · rw [getLsbD_statusWord s (by decide)]; simp
    · rw [getLsbD_statusWord s (by decide)]; simp
    · rw [statusWord_err]; cases s.err <;> rfl
    · rw [getLsbD_statusWord s (by decide)]; simp
    · rw [getLsbD_statusWord s (by decide)]; simp
  · intro ht hv
    exact ⟨_, step_writeStatus ht, by simp [irq, hv]⟩
  · intro hidle ht hv
    have hbit : v[2] = false := by simpa using hv
    exact ⟨_, step_writeReg .ctrl ht rfl (.inl hidle), by simp [irq, irqEn, writeReg, hbit]⟩
  · intro hidle ht
    exact ⟨_, step_writeReg .cmd ht rfl (.inl hidle), by simp [irq, writeReg]⟩

end Sys2Proof.Machine
end

section
/-! PROOF. What a host read of each register and of each window word returns (R23 to R58, R72, R78 to R80). -/

namespace Sys2Proof.Machine

open Sys2Proof.Statements

/-! ### The layout of the registers -/

/-- A count below `2 ^ n` fills `n` bits and has zeros above. -/
theorem ofNat_eq_zero_append {m n k : Nat} (h : k < 2 ^ n) : BitVec.ofNat (m + n) k = 0#m ++ BitVec.ofNat n k := by
  have h' : k < 2 ^ (m + n) := h.trans_le (Nat.pow_le_pow_right (by decide) (by omega))
  refine BitVec.eq_of_toNat_eq ?_
  rw [BitVec.toNat_append, BitVec.toNat_ofNat, BitVec.toNat_ofNat, BitVec.toNat_ofNat, Nat.mod_eq_of_lt h,
    Nat.mod_eq_of_lt h']
  simp

/-- A field at the bottom of a register has zeros above. -/
theorem setWidth_eq_zero_append {m n : Nat} (x : BitVec n) : x.setWidth (m + n) = 0#m ++ x := by
  refine BitVec.eq_of_toNat_eq ?_
  rw [BitVec.toNat_append, BitVec.toNat_setWidth_of_le (by omega)]
  simp

/-- GTYPE stands at bits 9:8 of GINFO, GLEN at bits 6:0, zeros elsewhere (R42). -/
theorem ginfoWord_eq (s : State) : ginfoWord s = 0#22 ++ gtypeBits s.gtype ++ 0#1 ++ BitVec.ofNat 7 s.glen := by
  rw [ginfoWord]
  generalize BitVec.ofNat 7 s.glen = len
  generalize gtypeBits s.gtype = ty
  refine BitVec.eq_of_getLsbD_eq fun i hi => ?_
  simp only [BitVec.getLsbD_or, BitVec.getLsbD_setWidth, BitVec.getLsbD_shiftLeft, BitVec.getLsbD_append,
    BitVec.getLsbD_zero, hi, decide_true, Bool.true_and]
  by_cases hlen : i < 7
  · simp [hlen, show i < 8 by omega]
  · obtain ⟨d, rfl⟩ := Nat.exists_eq_add_of_le (Nat.le_of_not_lt hlen)
    cases d with
    | zero => simp
    | succ d =>
      have hsub : 7 + (d + 1) - 8 = d := by omega
      by_cases hd : d < 2
      · simp [hsub, hd, show ¬7 + (d + 1) < 8 by omega, show d < 32 by omega]
      · simp [hsub, hd, BitVec.getLsbD_of_ge ty d (by omega)]

/-- The bytes of a text word, the first the most significant (R47, R78). -/
theorem wordOfBytes_eq {n : Nat} (v : Vector Byte n) (k : Nat) (h : 4 * k + 3 < n) :
    wordOfBytes v k h = packedBytes v k := by
  have hbyte : ∀ i, (hi : i < n) → v.toList.getD i 0 = v[i] := fun i hi => by
    rw [List.getD_eq_getElem _ _ (by simpa using hi), Vector.getElem_toList]
  rw [wordOfBytes, packedBytes, textPair, textPair, hbyte _ (by omega), hbyte _ (by omega), hbyte _ (by omega),
    hbyte _ (by omega)]
  exact BitVec.append_assoc

/-- The entries of a numbered group of registers. -/
theorem exists_reg_of_group {s : State} {n : Nat} {f : Nat → Nat × Word} (reg : Fin n → Reg)
    (hf : ∀ k : Fin n, f k = (regOffset (reg k), readReg s (reg k))) :
    ∀ e ∈ (List.range n).map f, ∃ r, e = (regOffset r, readReg s r) := by
  simp only [List.mem_map, List.mem_range]
  rintro e ⟨k, hk, rfl⟩
  exact ⟨reg ⟨k, hk⟩, hf ⟨k, hk⟩⟩

/-- Every entry of the register table is a register's offset and value. -/
theorem exists_reg_of_mem_registerTable (s : State) :
    ∀ e ∈ registerTable s, ∃ r, e = (regOffset r, readReg s r) := by
  have hginfo : readReg s .ginfo = 0#22 ++
      (match s.gtype with | .none => 0#2 | .group0A => 1#2 | .group2A => 2#2 | .logo => 3#2) ++ 0#1 ++
        BitVec.ofNat 7 s.glen := by
    rw [readReg, ginfoWord_eq]
    cases s.gtype <;> rfl
  simp only [registerTable, List.forall_mem_append, List.forall_mem_cons]
  refine ⟨⟨⟨⟨⟨⟨.id, rfl⟩, ⟨.version, rfl⟩, ⟨.ctrl, ?_⟩, ⟨.status, rfl⟩, ⟨.cmd, rfl⟩, ⟨.result, ?_⟩, ⟨.pi, ?_⟩, ⟨.fs, rfl⟩,
    ⟨.pilotLevel, rfl⟩, ⟨.rdsLevel, rfl⟩, ⟨.rds2Level, rfl⟩, ⟨.nsamp, rfl⟩, ⟨.bitLen, rfl⟩, ⟨.logoLen, rfl⟩, ⟨.sps, rfl⟩,
    ⟨.ntaps, rfl⟩, ⟨.seqCyc, ?_⟩, ⟨.seqRt, ?_⟩, ⟨.logoCur, rfl⟩, ⟨.ginfo, ?_⟩, ⟨.symLen, rfl⟩, ⟨.bbLen, rfl⟩,
    ⟨.subLen, rfl⟩, nofun⟩, ?_⟩, ?_⟩, ?_⟩, ?_⟩
  · exact Prod.ext rfl (setWidth_eq_zero_append s.ctrl).symm
  · exact Prod.ext rfl (setWidth_eq_zero_append s.result).symm
  · exact Prod.ext rfl (setWidth_eq_zero_append s.pi).symm
  · exact Prod.ext rfl (ofNat_eq_zero_append (s.cyc.isLt.trans (by decide))).symm
  · exact Prod.ext rfl (ofNat_eq_zero_append s.rtIdx.isLt).symm
  · exact Prod.ext rfl hginfo.symm
  · refine exists_reg_of_group .gbuf fun k => Prod.ext rfl ?_
    rw [List.getD_eq_getElem _ _ (by simp), Vector.getElem_toList]
    rfl
  · exact exists_reg_of_group .ps fun k => Prod.ext rfl (wordOfBytes_eq s.ps k _).symm
  · exact exists_reg_of_group .rt fun k => Prod.ext rfl (wordOfBytes_eq s.rt k _).symm
  · exact exists_reg_of_group .txt fun k => Prod.ext rfl (wordOfBytes_eq s.txt k _).symm

/-! ### Window words -/

/-- A packed word has the value `w` exactly where `w` has the bits of its elements, and 0 beyond the capacity (R79). -/
theorem packedRead_eq_some_iff {α : Type} (toBit : α → Bool) (m : Mem α) (cap k : Nat) (w : Word) :
    packedRead toBit m cap k = some w ↔ ∀ j, j < 32 →
      if 32 * k + j < cap then (memGet m (32 * k + j)).map toBit = some (w.getLsbD (31 - j))
      else w.getLsbD (31 - j) = false := by
  have hmsb : ∀ (u : Word) (j : Nat), j < 32 → u.getMsbD j = u.getLsbD (31 - j) := fun u j hj => by
    simp [BitVec.getMsbD_eq_getLsbD, hj]
  constructor
  · intro h j hj
    rw [← hmsb w j hj]
    exact packedRead_some h j hj
  · intro h
    cases hr : packedRead toBit m cap k with
    | none =>
      obtain ⟨j, hj, hcap, hundef⟩ := packedRead_none.1 hr
      have hbit := h j hj
      rw [if_pos hcap, hundef] at hbit
      cases hbit
    | some u =>
      refine congrArg some (BitVec.eq_of_getMsbD_eq fun j hj => ?_)
      have hu := packedRead_some hr j hj
      have hw := h j hj
      rw [← hmsb w j hj] at hw
      split at hu
      · rename_i hcap
        rw [if_pos hcap] at hw
        exact Option.some.inj (hu.symm.trans hw)
      · rename_i hcap
        rw [if_neg hcap] at hw
        rw [hu, hw]

/-- A symbol's bit determines it (R79). -/
theorem map_symBit_eq_some_iff (o : Option SymVal) (b : Bool) :
    o.map symBit = some b ↔ o = some (if b then .minus else .plus) := by
  cases o with
  | none => simp
  | some v => cases v <;> cases b <;> simp [symBit]

/-- The window table lists each memory's base and reachable words. -/
theorem exists_mem_of_mem_windowTable (p : Params) :
    ∀ e ∈ windowTable p, ∃ m, e = (m, windowBase m, windowWords p m) := by
  simp only [windowTable, List.forall_mem_cons]
  exact ⟨⟨.l, rfl⟩, ⟨.r, rfl⟩, ⟨.out, rfl⟩, ⟨.bb, rfl⟩, ⟨.sub, rfl⟩, ⟨.tap, rfl⟩, ⟨.bit, rfl⟩, ⟨.sym, rfl⟩, ⟨.logo, rfl⟩,
    nofun⟩

/-- Settles O57: a read of an address is a read of its location, whose value the tables lay out. -/
theorem readsReturnTheStoredValues : Obligations.ReadsReturnTheStoredValues := by
  refine ⟨fun s off v rest hidle ht hmem => ?_, fun s m base words k v rest hidle hp hmem hk ht hv => ?_,
    fun s k w => ⟨⟨rfl, rfl⟩, ⟨rfl, rfl, rfl, rfl⟩, ?_, ?_, ?_⟩⟩
  · obtain ⟨r, hr⟩ := exists_reg_of_mem_registerTable s _ hmem
    cases hr
    exact step_read hidle ht (busTarget_reg s r) rfl
  · obtain ⟨n, hn⟩ := exists_mem_of_mem_windowTable s.params _ hmem
    cases hn
    exact step_read hidle ht (busTarget_window hp hk) hv
  · simpa only [readMem, Option.map_id_fun, id_eq] using packedRead_eq_some_iff id s.bitMem s.params.bitCap k w
  · simpa only [readMem, Option.map_id_fun, id_eq] using packedRead_eq_some_iff id s.logoMem s.params.logoCap k w
  · simpa only [readMem, map_symBit_eq_some_iff] using packedRead_eq_some_iff symBit s.symMem s.params.bitCap k w

end Sys2Proof.Machine
end

section
/-! PROOF. Host accesses in every state, busy or not (R74 to R76, R83(a), R272, R273), and what a write of a window word changes (R72,
R79). -/

namespace Sys2Proof.Machine

open Sys2Proof.Statements

/-! ### The location of an address -/

/-- An address names a register only within the register's word. -/
theorem regAt_eq_some {a : Nat} {r : Reg} (h : regAt a = some r) : regOffset r ≤ a ∧ a < regOffset r + 4 := by
  unfold regAt at h
  split at h <;> grind [regOffset, Fin.ofNat]

/-- An address lies in the window it is found in. -/
theorem windowAt_eq_some {a base : Nat} {m : MemName} (h : windowAt a = some (m, base)) :
    base = windowBase m ∧ windowBase m ≤ a ∧ a < windowBase m + windowSize m := by
  obtain ⟨hlow, h⟩ := Option.ite_none_left_eq_some.1 h
  refine ⟨?_, ?_, ?_⟩ <;> grind [windowBase, windowSize]

/-- What an address names: a register, within its word, or a reachable word of the window around it (R72). -/
theorem locate_eq_some {p : Params} {a : Nat} {loc : Loc} (h : locate p a = some loc) :
    (∃ r, loc = .reg r ∧ regOffset r ≤ a ∧ a < regOffset r + 4) ∨
    (∃ m k, loc = .mem m k ∧ windowBase m ≤ a ∧ a < windowBase m + windowSize m ∧ a < windowBase m + 4 * windowWords p m) := by
  rw [locate] at h
  split at h
  · split at h
    · rename_i r hr
      cases h
      exact .inl ⟨r, rfl, regAt_eq_some hr⟩
    · cases h
  · split at h
    · rename_i m base hm
      obtain ⟨rfl, hlow, hhigh⟩ := windowAt_eq_some hm
      split at h
      · cases h
        exact .inr ⟨m, _, rfl, hlow, hhigh, by omega⟩
      · cases h
    · cases h

/-- No register word reaches into an unmapped part of the register region. -/
theorem not_unmappedAddress_of_reg {p : Params} {a : Nat} (r : Reg) (hlow : regOffset r ≤ a) (hhigh : a < regOffset r + 4) :
    ¬unmappedAddress p a := by
  simp only [unmappedAddress, List.mem_cons, List.not_mem_nil, or_false]
  cases r <;> simp only [regOffset] at hlow hhigh <;> omega

/-- No reachable window word reaches into an unmapped part of the map. -/
theorem not_unmappedAddress_of_mem {p : Params} {a : Nat} (m : MemName) (hlow : windowBase m ≤ a)
    (hsize : a < windowBase m + windowSize m) (hwords : a < windowBase m + 4 * windowWords p m) : ¬unmappedAddress p a := by
  simp only [unmappedAddress, List.mem_cons, List.not_mem_nil, or_false]
  cases m <;>
    simp only [windowBase, windowSize, windowWords, isPacked, memCap, if_true, Bool.false_eq_true, if_false]
      at hlow hsize hwords <;> omega

theorem locate_of_unmapped {p : Params} {a : Nat} (h : unmappedAddress p a) : locate p a = none := by
  cases hl : locate p a with
  | none => rfl
  | some loc =>
    obtain ⟨r, _, hlow, hhigh⟩ | ⟨m, k, _, hlow, hsize, hwords⟩ := locate_eq_some hl
    · exact absurd h (not_unmappedAddress_of_reg r hlow hhigh)
    · exact absurd h (not_unmappedAddress_of_mem m hlow hsize hwords)

/-- Addresses of the windows that R72 lists as read-only. -/
def readOnlyWindowAddress (a : Nat) : Prop := (0x300000 ≤ a ∧ a < 0x700000) ∨ (0x740000 ≤ a ∧ a < 0x780000)

/-- A read-only address, where it names a location at all, names one that no host write changes (R22, R72, R76). -/
theorem locate_readOnly {p : Params} {a : Nat} {loc : Loc} (ha : readOnlyRegisterOffset a ∨ readOnlyWindowAddress a)
    (h : locate p a = some loc) : locWritable loc = false := by
  simp only [readOnlyRegisterOffset, readOnlyWindowAddress] at ha
  refine Bool.eq_false_iff.2 fun hw => ?_
  obtain ⟨r, rfl, hlow, hhigh⟩ | ⟨m, k, rfl, hlow, hsize, _⟩ := locate_eq_some h
  · cases r <;> simp only [locWritable, regWritable, Bool.false_eq_true, regOffset] at hw hlow hhigh <;> omega
  · cases m <;> simp only [locWritable, memWritable, Bool.false_eq_true, windowBase, windowSize] at hw hlow hsize <;> omega

theorem busTarget_readOnly {s : State} {addr : BitVec 24} {size : Nat} {loc : Loc}
    (ha : readOnlyRegisterOffset addr.toNat ∨ readOnlyWindowAddress addr.toNat) (h : busTarget s addr size = some loc) :
    locWritable loc = false := by
  rw [busTarget] at h
  split at h
  · exact locate_readOnly ha h
  · cases h

/-- The bus takes no access of another size, misaligned or unmapped (R73 to R75). -/
theorem busTarget_eq_none {s : State} {addr : BitVec 24} {size : Nat}
    (h : size ≠ 4 ∨ addr.toNat % 4 ≠ 0 ∨ unmappedAddress s.params addr.toNat) : busTarget s addr size = none := by
  rw [busTarget]
  split
  · rename_i hwf
    obtain ⟨hsize, halign⟩ : size = 4 ∧ addr.toNat % 4 = 0 := by simpa [accessWellFormed] using hwf
    exact locate_of_unmapped ((h.resolve_left (not_not.2 hsize)).resolve_left (not_not.2 halign))
  · rfl

/-- A word inside the window and the capacity is reachable, whatever the other parameters of the block are. -/
theorem busTarget_windowWord {s : State} {m : MemName} {k : Nat} (hsize : 4 * k < windowSize m)
    (hwords : k < windowWords s.params m) : busTarget s (locAddr (.mem m k)) 4 = some (.mem m k) := by
  obtain ⟨hlow, hhigh, halign⟩ := windowBase_bounds m
  have haddr : (locAddr (.mem m k)).toNat = windowBase m + 4 * k := by
    rw [locAddr, BitVec.toNat_ofNat, Nat.mod_eq_of_lt (by omega)]
  have hwf : accessWellFormed (locAddr (.mem m k)) 4 = true := by
    rw [accessWellFormed, haddr]
    simp; omega
  rw [busTarget, if_pos hwf, haddr, locate, if_neg (by omega), windowAt_base hsize]
  simp [hwords]

/-! ### Rejected accesses -/

/-- A rejected read returns 0 and sets ACCERR. -/
theorem step_read_rejected {s : State} {addr : BitVec 24} {size : Nat} {rest : List Turn}
    (ht : s.turns = .read addr size :: rest) (htarget : busTarget s addr size = none) :
    step s = .next { s with accErr := true, replies := 0 :: s.replies, turns := rest } := by
  have htarget' : busTarget { s with turns := rest } addr size = none := htarget
  rw [step, nextMove, ht]
  simp only [busRead, htarget', reply, reject]

/-- A rejected write sets ACCERR: of no location, or of one that is read-only. -/
theorem step_write_rejected {s : State} {addr : BitVec 24} {size : Nat} {v : Word} {rest : List Turn}
    (ht : s.turns = .write addr size v :: rest) (hro : ∀ loc, busTarget s addr size = some loc → locWritable loc = false) :
    step s = .next { s with accErr := true, turns := rest } := by
  have hreject : busWrite addr size v { s with turns := rest } = reject { s with turns := rest } := by
    rw [busWrite]
    split
    · rfl
    · rename_i loc hloc
      rw [if_pos (hro loc hloc)]
  rw [step, nextMove, ht]
  exact congrArg _ hreject

/-- Settles O51: the bus finds no location for the access, or a read-only one. -/
theorem rejectedAccessesSetAccerr : Obligations.RejectedAccessesSetAccerr := by
  refine fun s addr size v rest => ⟨fun h => ?_, fun h ht => ?_⟩
  · have htarget : busTarget s addr size = none := busTarget_eq_none h
    exact ⟨fun ht => step_read_rejected ht htarget, fun ht => step_write_rejected ht (by simp [htarget])⟩
  · exact step_write_rejected ht fun loc hloc => busTarget_readOnly h hloc

/-! ### Writes while BUSY -/

/-- A write of a writable location other than STATUS is dropped while BUSY and sets WBUSY. -/
theorem step_write_busy {s : State} {addr : BitVec 24} {v : Word} {rest : List Turn} {loc : Loc}
    (ht : s.turns = .write addr 4 v :: rest) (htarget : busTarget s addr 4 = some loc) (hw : locWritable loc = true)
    (hbusy : isBusy s = true) (hloc : loc ≠ .reg .status) : step s = .next { s with wBusy := true, turns := rest } := by
  have htarget' : busTarget { s with turns := rest } addr 4 = some loc := htarget
  have hdrop : isBusy { s with turns := rest } = true ∧ loc ≠ .reg .status := ⟨hbusy, hloc⟩
  rw [step, nextMove, ht]
  simp only [busWrite, htarget', hw, hdrop, Bool.true_eq_false, if_false, ne_eq, not_false_eq_true, and_self, if_true]

/-- Settles O52, by whether the write is of STATUS. -/
theorem writesWhileBusyAreDropped : Obligations.WritesWhileBusyAreDropped := by
  intro s w v left loc addr rest hbusy ht htarget hw
  refine ⟨fun hloc => ?_, fun hloc => ?_⟩
  · exact step_write_busy ht htarget hw ((isBusy_iff s).2 ⟨w, left, hbusy⟩) hloc
  · subst hloc
    exact step_write ht htarget hw (.inr rfl)

/-! ### Window writes -/

/-- A write of a reachable word of a writable window, while idle. -/
theorem step_writeMem {s : State} {v : Word} {rest : List Turn} {m : MemName} {k : Nat} (hidle : s.eng = .idle)
    (ht : s.turns = .write (locAddr (.mem m k)) 4 v :: rest) (hsize : 4 * k < windowSize m)
    (hwords : k < windowWords s.params m) (hw : memWritable m = true) :
    step s = .next (writeMem m k v { s with turns := rest }) :=
  step_write ht (busTarget_windowWord hsize hwords) hw (.inl hidle)

/-- A packed word's elements after a host write, by their places in the word counted from bit 31 down (R79). -/
theorem memGet_packedWrite_lsb (m : Mem Bool) (cap k : Nat) (w : Word) (i : Nat) :
    memGet (packedWrite m cap k w) i =
      if i / 32 = k ∧ i < cap then some (w.getLsbD (31 - i % 32)) else memGet m i := by
  have hbit : w.getMsbD (i % 32) = w.getLsbD (31 - i % 32) := by
    simp [BitVec.getMsbD_eq_getLsbD, Nat.mod_lt]
  rw [memGet_packedWrite, hbit]

/-- Settles O56, one writable window after the other. -/
theorem windowWritesChangeTheirWordOnly : Obligations.WindowWritesChangeTheirWordOnly := by
  intro s v k addr rest hidle ht
  refine ⟨fun hcap hk haddr => ?_, fun hcap hk haddr => ?_, fun hcap hk haddr => ?_, fun hcap hk haddr => ?_⟩ <;>
    subst haddr
  · exact ⟨_, step_writeMem (m := .l) hidle ht (by simp only [windowSize]; omega) hcap rfl, rfl,
      memGet_memSet s.lMem k v⟩
  · exact ⟨_, step_writeMem (m := .r) hidle ht (by simp only [windowSize]; omega) hcap rfl, rfl,
      memGet_memSet s.rMem k v⟩
  · have hwords : k < (s.params.bitCap + 31) / 32 := by omega
    exact ⟨_, step_writeMem (m := .bit) hidle ht (by simp only [windowSize]; omega) hwords rfl, rfl,
      memGet_packedWrite_lsb s.bitMem s.params.bitCap k v⟩
  · have hwords : k < (s.params.logoCap + 31) / 32 := by omega
    exact ⟨_, step_writeMem (m := .logo) hidle ht (by simp only [windowSize]; omega) hwords rfl, rfl,
      memGet_packedWrite_lsb s.logoMem s.params.logoCap k v⟩

end Sys2Proof.Machine
end

section
/-! PROOF. UNDEF_READ (R70(b), R280): a command stops at an undefined operand, and only there. -/

namespace Sys2Proof.Machine

open Sys2Proof.Statements

/-! ### Operand ranges -/

/-- A range that holds a ⊥ element cannot be read. -/
theorem readOperand_of_undefined {α : Type} (cmd : Mnemonic) (name : MemName) {m : Mem α} {a n k : Nat} (hlow : a ≤ k)
    (hhigh : k < a + n) (hk : memGet m k = none) : ∃ j, readOperand cmd name m a n = .error (.undefRead cmd name j) := by
  cases h : readOperand cmd name m a n with
  | error f =>
    obtain ⟨j, rfl, _⟩ := readOperand_error h
    exact ⟨j, rfl⟩
  | ok vs =>
    obtain ⟨hlen, hget⟩ := readOperand_ok h
    have hnone : vs[k - a]? = none := by rw [← hget (k - a) (by omega), Nat.add_sub_cancel' hlow, hk]
    rw [List.getElem?_eq_none_iff] at hnone
    omega

/-- A command that reads an operand and goes on: its UNDEF_READ names the command and a ⊥ element wherever that of the rest does. -/
theorem withOperand_undefRead {α : Type} {cmd c : Mnemonic} {name m : MemName} {mem : Mem α} {a n k : Nat} {s : State}
    {rest : List α → Result} (h : withValue (readOperand cmd name mem a n) rest = .fault (.undefRead c m k))
    (hname : ∀ j, memGet mem j = none → isUndefined s name j)
    (hrest : ∀ vs, rest vs = .fault (.undefRead c m k) → c = cmd ∧ isUndefined s m k) : c = cmd ∧ isUndefined s m k := by
  obtain hread | ⟨vs, _, hvs⟩ := withValue_fault h
  · obtain ⟨j, hj, _, _, hnone⟩ := readOperand_error hread
    cases hj
    exact ⟨rfl, hname k hnone⟩
  · exact hrest vs hvs

/-! ### The sequencer -/

theorem nextGroup_undefRead {cmd c : Mnemonic} {m : MemName} {k : Nat} {s : State}
    (h : nextGroup cmd s = .error (.undefRead c m k)) : c = cmd ∧ isUndefined s m k := by
  obtain ⟨_, _, j, hj, _, _, hnone⟩ := nextGroup_error h
  cases hj
  exact ⟨rfl, hnone⟩

theorem nextGroup_logoMem {cmd : Mnemonic} {s : State} {r : (List Bool × GType) × State} (h : nextGroup cmd s = .ok r) :
    r.2.logoMem = s.logoMem := by
  rw [nextGroup_frame h]

/-- The chunk that stops the loop is of the same LOGO_MEM, whatever was emitted before it. -/
theorem generateLoop_undefRead {cmd c : Mnemonic} {m : MemName} {n fuel k : Nat} {out : List Bool} {s : State}
    (h : generateLoop cmd n fuel out s = .error (.undefRead c m k)) : c = cmd ∧ m = .logo ∧ memGet s.logoMem k = none := by
  induction fuel generalizing out s with
  | zero => cases h
  | succ fuel ih =>
    rw [generateLoop] at h
    split at h
    · split at h
      · rename_i f hg
        cases h
        obtain ⟨_, _, j, hj, _, _, hnone⟩ := nextGroup_error hg
        cases hj
        exact ⟨rfl, rfl, hnone⟩
      · rename_i g ty s' hg
        rw [← nextGroup_logoMem hg]
        exact ih h
    · cases h

theorem generate_undefRead {cmd c : Mnemonic} {m : MemName} {n k : Nat} {s : State}
    (h : generate cmd n s = .error (.undefRead c m k)) : c = cmd ∧ isUndefined s m k := by
  rw [generate] at h
  split at h
  · rename_i f hl
    cases h
    obtain ⟨hcmd, rfl, hnone⟩ := generateLoop_undefRead hl
    exact ⟨hcmd, hnone⟩
  · cases h

/-- A logo chunk that is due and holds a ⊥ bit stops the emission (R163, R168). -/
theorem nextGroup_of_undefined (cmd : Mnemonic) {s : State} {k : Nat} (hen : s.ctrl.getLsbD 1 = true) (hlen : 0 < s.logoLen)
    (hcyc : s.cyc.val % 5 = 0) (hlow : s.logoCur ≤ k) (hhigh : k < s.logoCur + min 104 (s.logoLen - s.logoCur))
    (hk : memGet s.logoMem k = none) : ∃ j, nextGroup cmd s = .error (.undefRead cmd .logo j) := by
  obtain ⟨j, hj⟩ := readOperand_of_undefined cmd .logo (n := logoChunkLen s) hlow hhigh hk
  have hdue : logoPresent s = true ∧ s.cyc.val % Config.logoPeriod = 0 := ⟨(logoPresent_iff s).2 ⟨hen, hlen⟩, hcyc⟩
  exact ⟨j, by rw [nextGroup, if_pos hdue, logoChunk, hj]⟩

/-- Of two emissions one at least has 104 bits, so `m` emissions have at least about `m / 2` bits. -/
theorem emissions_le_length {cmd : Mnemonic} {m : Nat} {s u : State} {es : List (List Bool × GType)}
    (h : emissions cmd m s = .ok (es, u)) :
    m ≤ 2 * (emittedBits es).length + 1 ∧ (s.cyc.val % 5 ≠ 0 → m ≤ 2 * (emittedBits es).length) := by
  induction m generalizing s es with
  | zero => exact ⟨Nat.zero_le _, fun _ => Nat.zero_le _⟩
  | succ m ih =>
    rw [emissions] at h
    split at h
    · cases h
    · rename_i e s' hg
      split at h
      · cases h
      · rename_i es' t hes
        cases h
        obtain ⟨hle, hle'⟩ := ih hes
        obtain ⟨g, ty⟩ := e
        have hlen := (nextGroup_length hg).2
        have hcyc : s'.cyc.val = (s.cyc.val + 1) % 60 := nextGroup_cyc hg
        have hbits : (emittedBits ((g, ty) :: es')).length = g.length + (emittedBits es').length := by simp [emittedBits]
        rw [hbits]
        by_cases h5 : s.cyc.val % 5 = 0
        · have := hle' (by omega)
          exact ⟨by omega, fun h => absurd h5 h⟩
        · have := hlen h5
          omega

/-- The loop of R167 makes the emissions that do not yet reach the requested length one after the other. -/
theorem generateLoop_emissions {cmd : Mnemonic} {m n : Nat} {s u : State} {es : List (List Bool × GType)}
    (h : emissions cmd m s = .ok (es, u)) (fuel : Nat) (out : List Bool)
    (hlen : out.length + (emittedBits es).length < n) :
    generateLoop cmd n (fuel + m) out s = generateLoop cmd n fuel (out ++ emittedBits es) u := by
  induction m generalizing s es out with
  | zero => cases h; simp [emittedBits]
  | succ m ih =>
    rw [emissions] at h
    split at h
    · cases h
    · rename_i e s' hg
      split at h
      · cases h
      · rename_i es' t hes
        cases h
        have hbits : emittedBits (e :: es') = e.1 ++ emittedBits es' := by simp [emittedBits]
        rw [hbits, List.length_append] at hlen
        rw [← Nat.add_assoc, generateLoop, if_pos (by omega), hg]
        rw [hbits, ← List.append_assoc]
        exact ih hes (out ++ e.1) (by rw [List.length_append]; omega)

/-- GENBITS reaches the emission after `m` that leave bits missing, so a fault there is its own (R169). -/
theorem generate_of_emissions_error {cmd : Mnemonic} {m n : Nat} {s u : State} {es : List (List Bool × GType)} {f : Fault}
    (h : emissions cmd m s = .ok (es, u)) (hlen : (emittedBits es).length < n) (hf : nextGroup cmd u = .error f) :
    generate cmd n s = .error f := by
  have hm := (emissions_le_length h).1
  obtain ⟨fuel, hfuel⟩ : ∃ fuel, 2 * n = fuel + 1 + m := ⟨2 * n - 1 - m, by omega⟩
  have hloop := generateLoop_emissions h (fuel + 1) [] (by simpa using hlen)
  rw [generate, hfuel, hloop, List.nil_append, generateLoop, if_pos hlen, hf]

/-! ### The faults of the commands -/

theorem execNextgrp_undefRead {s : State} {c : Mnemonic} {m : MemName} {k : Nat}
    (h : execNextgrp s = .fault (.undefRead c m k)) : c = .nextgrp ∧ isUndefined s m k := by
  obtain hg | ⟨r, _, hr⟩ := withValue_fault h
  · exact nextGroup_undefRead hg
  · cases hr

theorem execGenbits_undefRead {imm : BitVec 16} {s : State} {c : Mnemonic} {m : MemName} {k : Nat}
    (h : execGenbits imm s = .fault (.undefRead c m k)) : c = .genbits ∧ isUndefined s m k := by
  rw [execGenbits] at h
  split at h
  · cases h
  · obtain hg | ⟨r, _, hr⟩ := withValue_fault h
    · exact generate_undefRead hg
    · cases hr

theorem execDesign_ne_fault (s : State) (f : Fault) : execDesign s ≠ .fault f := by
  rw [execDesign]
  simp only
  split
  · exact nofun
  · split <;> exact nofun

theorem execDiffenc_undefRead {s : State} {c : Mnemonic} {m : MemName} {k : Nat}
    (h : execDiffenc s = .fault (.undefRead c m k)) : c = .diffenc ∧ isUndefined s m k :=
  withOperand_undefRead h (fun _ hj => hj) nofun

theorem execShape_undefRead {s : State} {c : Mnemonic} {m : MemName} {k : Nat}
    (h : execShape s = .fault (.undefRead c m k)) : c = .shape ∧ isUndefined s m k := by
  rw [execShape] at h
  split at h
  · cases h
  · split at h
    · cases h
    · refine withOperand_undefRead h (fun _ hj => hj) fun syms h => ?_
      exact withOperand_undefRead h (fun _ hj => hj) nofun

theorem execMix_undefRead {car : Carrier} {s : State} {c : Mnemonic} {m : MemName} {k : Nat}
    (h : execMix car s = .fault (.undefRead c m k)) : c = .mix ∧ isUndefined s m k := by
  rw [execMix] at h
  split at h
  · cases h
  · exact withOperand_undefRead h (fun _ hj => hj) nofun

theorem execModulate_undefRead {car : Carrier} {s : State} {c : Mnemonic} {m : MemName} {k : Nat}
    (h : execModulate car s = .fault (.undefRead c m k)) : c = .modulate ∧ isUndefined s m k := by
  rw [execModulate] at h
  split at h
  · cases h
  · split at h
    · cases h
    · refine withOperand_undefRead h (fun _ hj => hj) fun bits h => ?_
      exact withOperand_undefRead h (fun _ hj => hj) nofun

/-- COMPOSE can also end in a fault of its sums, which is no UNDEF_READ. -/
theorem execCompose_undefRead {s : State} {c : Mnemonic} {m : MemName} {k : Nat}
    (h : execCompose s = .fault (.undefRead c m k)) : c = .compose ∧ isUndefined s m k := by
  rw [execCompose] at h
  split at h
  · cases h
  · refine withOperand_undefRead h (fun _ hj => hj) fun ls h => ?_
    refine withOperand_undefRead h (fun _ hj => hj) fun rs h => ?_
    split at h
    · refine withOperand_undefRead h (fun _ hj => hj) fun bits h => ?_
      refine withOperand_undefRead h (fun _ hj => hj) fun taps h => ?_
      simp only at h
      split at h <;> cases h
    · cases h

/-- Settles O15, one command after the other: most of them cannot fault at all. -/
theorem undefReadNamesAnUndefinedElement : Obligations.UndefReadNamesAnUndefinedElement := by
  intro i s c m k h
  cases i with
  | nop | srst | crc10 | pack | grp0a | grp2a | psload | rtload | seqrst => cases h
  | nextgrp => exact execNextgrp_undefRead h
  | genbits imm => exact execGenbits_undefRead h
  | design => exact absurd h (execDesign_ne_fault s _)
  | diffenc => exact execDiffenc_undefRead h
  | shape => exact execShape_undefRead h
  | mix car => exact execMix_undefRead h
  | modulate car => exact execModulate_undefRead h
  | compose => exact execCompose_undefRead h

/-! ### Operands that stop a command -/

/-- A command that reads an operand range with a ⊥ element first stops there. -/
theorem withOperand_of_undefined {α : Type} (cmd : Mnemonic) (name : MemName) {m : Mem α} {n k : Nat} (rest : List α → Result)
    (hk : k < n) (hnone : memGet m k = none) :
    ∃ j, withValue (readOperand cmd name m 0 n) rest = .fault (.undefRead cmd name j) := by
  obtain ⟨j, hj⟩ := readOperand_of_undefined cmd name (Nat.zero_le k) (hk.trans_eq (Nat.zero_add n).symm) hnone
  exact ⟨j, by rw [hj, withValue_error]⟩

/-- Samples that are defined and finite are read and decode, all of them (R241). -/
theorem readOperand_decodes (cmd : Mnemonic) (name : MemName) (p : Params) {m : Mem Word} {n : Nat}
    (h : ∀ i, i < n → ∃ w v, memGet m i = some w ∧ dec32 p w = some v) :
    ∃ ws vs, readOperand cmd name m 0 n = .ok ws ∧ allSome (ws.map (dec32 p)) = some vs := by
  obtain ⟨ws, hws⟩ := readOperand_of_isSome cmd name m 0 n fun i hi => by
    obtain ⟨w, v, hw, _⟩ := h i hi
    rw [Nat.zero_add, hw]
    rfl
  obtain ⟨hlen, hget⟩ := readOperand_ok hws
  cases hall : allSome (ws.map (dec32 p)) with
  | some vs => exact ⟨ws, vs, hws, hall⟩
  | none =>
    obtain ⟨w, hmem, hw⟩ := List.mem_map.1 (allSome_none.1 hall)
    obtain ⟨i, hi, rfl⟩ := List.getElem_of_mem hmem
    obtain ⟨w', v, hw', hv⟩ := h i (by omega)
    have hsame : ws[i] = w' := by
      have := hget i (by omega)
      rw [Nat.zero_add, hw', List.getElem?_eq_getElem hi] at this
      exact (Option.some.inj this).symm
    rw [hsame, hv] at hw
    cases hw

/-- Levels that decode are the levels of the composition (R232, R235, R236, R241). -/
theorem levelsOf_of_levelsDecode {s : State} {pilot rds : NumVal} {rds2 : Option NumVal}
    (h : levelsDecode s pilot rds rds2) : levelsOf s = some { pilot := pilot, rds := rds, rds2 := rds2 } := by
  obtain ⟨hpilot, hrds, hrds2⟩ := h
  rw [levelsOf, hpilot, hrds, rds2En]
  split at hrds2
  · rename_i hen
    obtain ⟨g, rfl, hg⟩ := hrds2
    simp only [if_pos hen, hg]
  · rename_i hen
    simp only [if_neg hen, hrds2]

theorem execShape_of_undefined {s : State} {k : Nat} (hv : s.tapsValid = true)
    (hcap : s.symLen * s.sps ≤ s.params.sampleCap) (hk : k < s.symLen) (hnone : memGet s.symMem k = none) :
    ∃ j, execShape s = .fault (.undefRead .shape .sym j) := by
  rw [execShape, if_neg (by simp [hv]), if_neg (Nat.not_lt.2 hcap)]
  exact withOperand_of_undefined .shape .sym _ hk hnone

theorem execMix_of_undefined {s : State} {k : Nat} (car : Carrier) (hv : s.tapsValid = true) (hk : k < s.bbLen)
    (hnone : memGet s.bbMem k = none) : ∃ j, execMix car s = .fault (.undefRead .mix .bb j) := by
  rw [execMix, if_neg (by simp [hv])]
  exact withOperand_of_undefined .mix .bb _ hk hnone

theorem execModulate_of_undefined {s : State} {k : Nat} (car : Carrier) (hv : s.tapsValid = true)
    (hcap : s.bitLen * s.sps ≤ s.params.sampleCap) (hk : k < s.bitLen) (hnone : memGet s.bitMem k = none) :
    ∃ j, execModulate car s = .fault (.undefRead .modulate .bit j) := by
  rw [execModulate, if_neg (by simp [hv]), if_neg (Nat.not_lt.2 hcap)]
  exact withOperand_of_undefined .modulate .bit _ hk hnone

theorem execCompose_of_undefined_left {s : State} {k : Nat} (hv : s.tapsValid = true) (hk : k < s.nsamp)
    (hnone : memGet s.lMem k = none) : ∃ j, execCompose s = .fault (.undefRead .compose .l j) := by
  rw [execCompose, if_neg (by simp [hv])]
  exact withOperand_of_undefined .compose .l _ hk hnone

theorem execCompose_of_undefined_right {s : State} {k : Nat} (hv : s.tapsValid = true)
    (hl : ∀ i, i < s.nsamp → (memGet s.lMem i).isSome = true) (hk : k < s.nsamp) (hnone : memGet s.rMem k = none) :
    ∃ j, execCompose s = .fault (.undefRead .compose .r j) := by
  obtain ⟨ls, hls⟩ := readOperand_of_isSome .compose .l s.lMem 0 s.nsamp (by simpa using hl)
  rw [execCompose, if_neg (by simp [hv]), hls, withValue_ok]
  exact withOperand_of_undefined .compose .r _ hk hnone

/-- With all samples and levels finite, COMPOSE comes to its bits. -/
theorem execCompose_of_undefined_bit {s : State} {k : Nat} {pilot rds : NumVal} {rds2 : Option NumVal}
    (hv : s.tapsValid = true) (hlevels : levelsDecode s pilot rds rds2)
    (hl : ∀ i, i < s.nsamp → ∃ w v, memGet s.lMem i = some w ∧ dec32 s.params w = some v)
    (hr : ∀ i, i < s.nsamp → ∃ w v, memGet s.rMem i = some w ∧ dec32 s.params w = some v)
    (hk : k < s.bitLen) (hnone : memGet s.bitMem k = none) :
    ∃ j, execCompose s = .fault (.undefRead .compose .bit j) := by
  obtain ⟨ls, l, hls, hl⟩ := readOperand_decodes .compose .l s.params hl
  obtain ⟨rs, r, hrs, hr⟩ := readOperand_decodes .compose .r s.params hr
  rw [execCompose, if_neg (by simp [hv]), hls, withValue_ok, hrs, withValue_ok, hl, hr, levelsOf_of_levelsDecode hlevels]
  exact withOperand_of_undefined .compose .bit _ hk hnone

/-- GENBITS stops at the chunk that is due after the emissions it has made. -/
theorem execGenbits_of_undefined {imm : BitVec 16} {m j : Nat} {es : List (List Bool × GType)} {s u : State}
    (hcap : imm.toNat ≤ s.params.bitCap) (hes : emissions .genbits m s = .ok (es, u))
    (hlen : (emittedBits es).length < imm.toNat)
    (hj : nextGroup .genbits u = .error (.undefRead .genbits .logo j)) :
    execGenbits imm s = .fault (.undefRead .genbits .logo j) := by
  rw [execGenbits, immNat, if_neg (Nat.not_lt.2 hcap), generate_of_emissions_error hes hlen hj, withValue_error]

/-- Settles O16, one command and memory after the other. -/
theorem undefinedOperandStopsTheCommand : Obligations.UndefinedOperandStopsTheCommand := by
  intro s k
  refine ⟨fun hk hnone => ?_, execShape_of_undefined, execMix_of_undefined, execModulate_of_undefined,
    execCompose_of_undefined_left, execCompose_of_undefined_right, fun pilot rds rds2 hv hlevels hsamples => ?_,
    fun hen hlen hcyc hlow hhigh hk => ?_, fun imm m es u hcap hes hbits hen hlen hcyc hlow hhigh hk => ?_⟩
  · exact withOperand_of_undefined .diffenc .bit _ hk hnone
  · refine execCompose_of_undefined_bit hv hlevels (fun i hi => ?_) fun i hi => ?_
    · obtain ⟨a, _, u, _, ha, _, hu, _⟩ := hsamples i hi
      exact ⟨a, u, ha, hu⟩
    · obtain ⟨_, b, _, v, _, hb, _, hv⟩ := hsamples i hi
      exact ⟨b, v, hb, hv⟩
  · obtain ⟨j, hj⟩ := nextGroup_of_undefined .nextgrp hen hlen hcyc hlow hhigh hk
    exact ⟨j, by rw [exec, execNextgrp, hj, withValue_error]⟩
  · obtain ⟨j, hj⟩ := nextGroup_of_undefined .genbits hen hlen hcyc hlow hhigh hk
    exact ⟨j, execGenbits_of_undefined hcap hes hbits hj⟩

end Sys2Proof.Machine
end

section
/-! PROOF. Host reads in every state and the write sets of the commands (R70(a), R81, R83(b), R83(c)): which reads are unspecified while a
command is in flight, and that a command changes no location outside its write set but STATUS. -/

namespace Sys2Proof.Machine

open Sys2Proof.Statements

/-! ### The write sets -/

/-- GBUF0 to GBUF3, one by one. -/
theorem isGbuf_iff (r : Reg) : isGbuf r = true ↔ r = .gbuf 0 ∨ r = .gbuf 1 ∨ r = .gbuf 2 ∨ r = .gbuf 3 := by
  simp [isGbuf, Fin.exists_fin_succ]

theorem isPs_iff (r : Reg) : isPs r = true ↔ r = .ps 0 ∨ r = .ps 1 := by
  simp [isPs, Fin.exists_fin_succ]

/-- The write sets listed register by register and memory by memory are those the bus goes by. -/
theorem mem_writeSet_regs (c : Mnemonic) (r : Reg) : r ∈ (writeSet c).1 ↔ writesReg c r = true := by
  cases c with
  | srst => cases r <;> simp [writeSet, writesReg]
  | rtload => simp [writeSet, writesReg, isRt, eq_comm]
  | _ => simp [writeSet, writesReg, isGbuf_iff, isPs_iff, or_assoc]

theorem mem_writeSet_mems (c : Mnemonic) (m : MemName) : m ∈ (writeSet c).2 ↔ writesMem c m = true := by
  cases c <;> simp [writeSet, writesMem, or_assoc]

theorem written_eq_writesLoc (c : Mnemonic) (loc : Loc) : written c loc = writesLoc c loc := by
  rw [Bool.eq_iff_iff]
  cases loc with
  | reg r => exact List.contains_iff_mem.trans (mem_writeSet_regs c r)
  | mem m k => exact List.contains_iff_mem.trans (mem_writeSet_mems c m)

/-- A location is in the write set in flight exactly where the word in flight has the opcode of a command that writes it. -/
theorem inWriteSet_iff (s : State) (loc : Loc) : inWriteSet s loc = true ↔
    ∃ w left c, s.eng = .busy w left ∧ mnemonicOf (opcField w) = some c ∧ writesLoc c loc = true := by
  rw [inWriteSet, inFlight]
  cases s.eng with
  | idle => simp
  | busy w left => cases hc : mnemonicOf (opcField w) <;> simp [hc]

/-! ### Reads -/

/-- A read of a location in the write set in flight, or of a word with a ⊥ element. -/
theorem step_read_free {s : State} {addr : BitVec 24} {rest : List Turn} {loc : Loc} (ht : s.turns = .read addr 4 :: rest)
    (htarget : busTarget s addr 4 = some loc) (hfree : inWriteSet s loc = true ∨ readLoc s loc = none) :
    step s = .next { s with replies := Config.freeWord s.draws :: s.replies, draws := s.draws + 1, turns := rest } := by
  have htarget' : busTarget { s with turns := rest } addr 4 = some loc := htarget
  have hfree' : inWriteSet { s with turns := rest } loc = true ∨ readLoc { s with turns := rest } loc = none := by
    cases loc <;> exact hfree
  have hread : busRead addr 4 { s with turns := rest } = replyFree { s with turns := rest } := by
    rw [busRead, htarget']
    obtain hset | hundef := hfree'
    · simp [hset]
    · simp [hundef]
  rw [step, nextMove, ht]
  exact congrArg _ hread

/-- Any other read of a location, while idle or busy. -/
theorem step_read_current {s : State} {addr : BitVec 24} {v : Word} {rest : List Turn} {loc : Loc}
    (ht : s.turns = .read addr 4 :: rest) (htarget : busTarget s addr 4 = some loc) (hset : inWriteSet s loc = false)
    (hv : readLoc s loc = some v) : step s = .next { s with replies := v :: s.replies, turns := rest } := by
  have htarget' : busTarget { s with turns := rest } addr 4 = some loc := htarget
  have hset' : inWriteSet { s with turns := rest } loc = false := hset
  have hv' : readLoc { s with turns := rest } loc = some v := by cases loc <;> exact hv
  rw [step, nextMove, ht]
  simp [busRead, htarget', hset', hv', reply]

/-! ### What each store leaves unchanged -/

section

variable {s : State} {loc : Loc}

/-- The completion of a command changes STATUS alone among the locations (R261). -/
theorem readLoc_complete (code : ErrCode) (hst : loc ≠ .reg .status) : readLoc (complete code s) loc = readLoc s loc := by
  cases loc with
  | reg r =>
    cases r with
    | status => exact absurd rfl hst
    | _ => rfl
  | mem m k => rfl

theorem readLoc_softReset (hst : loc ≠ .reg .status) (hw : writesLoc .srst loc = false) :
    readLoc (softReset s) loc = readLoc s loc := by
  cases loc with
  | reg r =>
    cases r with
    | status => exact absurd rfl hst
    | id | version | cmd => rfl
    | _ => cases hw
  | mem m k => rfl

theorem readLoc_setResult (v : BitVec 26) (hw : writesLoc .crc10 loc = false) :
    readLoc { s with result := v } loc = readLoc s loc := by
  cases loc with
  | reg r =>
    cases r with
    | result => cases hw
    | _ => rfl
  | mem m k => rfl

theorem readLoc_writeG (g : List Bool) (ty : GType) (hw : writesLoc .grp0a loc = false) :
    readLoc (writeG g ty s) loc = readLoc s loc := by
  cases loc with
  | reg r =>
    cases r with
    | gbuf k => simp [writesLoc, writesReg, isGbuf] at hw
    | ginfo => cases hw
    | _ => rfl
  | mem m k => rfl

theorem readLoc_setPs (ps : Vector Byte 8) (hw : writesLoc .psload loc = false) :
    readLoc { s with ps := ps } loc = readLoc s loc := by
  cases loc with
  | reg r =>
    cases r with
    | ps k => simp [writesLoc, writesReg, isPs] at hw
    | _ => rfl
  | mem m k => rfl

theorem readLoc_setRt (rt : Vector Byte 64) (hw : writesLoc .rtload loc = false) :
    readLoc { s with rt := rt } loc = readLoc s loc := by
  cases loc with
  | reg r =>
    cases r with
    | rt k => simp [writesLoc, writesReg, isRt] at hw
    | _ => rfl
  | mem m k => rfl

theorem readLoc_setSequencer (cyc : Fin 60) (rtIdx : Fin 16) (cur : Nat) (hw : writesLoc .seqrst loc = false) :
    readLoc { s with cyc := cyc, rtIdx := rtIdx, logoCur := cur } loc = readLoc s loc := by
  cases loc with
  | reg r =>
    cases r with
    | seqCyc | seqRt | logoCur => cases hw
    | _ => rfl
  | mem m k => rfl

theorem readLoc_setBits (mem : Mem Bool) (n : Nat) (hreg : loc ≠ .reg .bitLen) (hmem : ∀ k, loc ≠ .mem .bit k) :
    readLoc { s with bitMem := mem, bitLen := n } loc = readLoc s loc := by
  cases loc with
  | reg r =>
    cases r with
    | bitLen => exact absurd rfl hreg
    | _ => rfl
  | mem m k =>
    cases m with
    | bit => exact absurd rfl (hmem k)
    | _ => rfl

/-- The filter DESIGN stores; TAPS_VALID is a field of STATUS. -/
theorem readLoc_setTaps (mem : Mem NumVal) (sps n : Nat) (valid : Bool) (hst : loc ≠ .reg .status)
    (hw : writesLoc .design loc = false) :
    readLoc { s with tapMem := mem, sps := sps, ntaps := n, tapsValid := valid } loc = readLoc s loc := by
  cases loc with
  | reg r =>
    cases r with
    | status => exact absurd rfl hst
    | sps | ntaps => cases hw
    | _ => rfl
  | mem m k =>
    cases m with
    | tap => cases hw
    | _ => rfl

theorem readLoc_setSymbols (mem : Mem SymVal) (n : Nat) (hw : writesLoc .diffenc loc = false) :
    readLoc { s with symMem := mem, symLen := n } loc = readLoc s loc := by
  cases loc with
  | reg r =>
    cases r with
    | symLen => cases hw
    | _ => rfl
  | mem m k =>
    cases m with
    | sym => cases hw
    | _ => rfl

theorem readLoc_setBaseband (mem : Mem NumVal) (n : Nat) (hw : writesLoc .shape loc = false) :
    readLoc { s with bbMem := mem, bbLen := n } loc = readLoc s loc := by
  cases loc with
  | reg r =>
    cases r with
    | bbLen => cases hw
    | _ => rfl
  | mem m k =>
    cases m with
    | bb => cases hw
    | _ => rfl

theorem readLoc_setSubcarrier (mem : Mem NumVal) (n : Nat) (hw : writesLoc .mix loc = false) :
    readLoc { s with subMem := mem, subLen := n } loc = readLoc s loc := by
  cases loc with
  | reg r =>
    cases r with
    | subLen => cases hw
    | _ => rfl
  | mem m k =>
    cases m with
    | sub => cases hw
    | _ => rfl

theorem readLoc_setOutput (mem : Mem NumVal) (hw : writesLoc .compose loc = false) :
    readLoc { s with outMem := mem } loc = readLoc s loc := by
  cases loc with
  | reg r => rfl
  | mem m k =>
    cases m with
    | out => cases hw
    | _ => rfl

/-! ### The commands -/

/-- A command that succeeds in a state `u` in which the location reads as in `s`. -/
theorem succeed_readLoc {u t : State} (h : succeed u = .next t) (hst : loc ≠ .reg .status)
    (hu : readLoc u loc = readLoc s loc) : readLoc t loc = readLoc s loc := by
  rw [succeed_next h, readLoc_complete .ok hst, hu]

/-- The write set of NEXTGRP is the group buffer's and the sequencer's. -/
theorem writesLoc_nextgrp (loc : Loc) : writesLoc .nextgrp loc = (writesLoc .grp0a loc || writesLoc .seqrst loc) := by
  cases loc with
  | reg r => simp only [writesLoc, writesReg, Bool.or_assoc]
  | mem m k => rfl

/-- The write set of MODULATE is that of DIFFENC, SHAPE and MIX together (R207). -/
theorem writesLoc_modulate (loc : Loc) :
    writesLoc .modulate loc = (writesLoc .diffenc loc || writesLoc .shape loc || writesLoc .mix loc) := by
  cases loc <;> rfl

theorem nextGroup_readLoc {cmd : Mnemonic} {r : (List Bool × GType) × State} (h : nextGroup cmd s = .ok r)
    (hw : writesLoc .seqrst loc = false) : readLoc r.2 loc = readLoc s loc := by
  rw [nextGroup_frame h]
  exact readLoc_setSequencer _ _ _ hw

theorem generate_readLoc {cmd : Mnemonic} {n : Nat} {r : List Bool × State} (h : generate cmd n s = .ok r)
    (hw : writesLoc .seqrst loc = false) : readLoc r.2 loc = readLoc s loc := by
  rw [generate_frame h]
  exact readLoc_setSequencer _ _ _ hw

theorem execNextgrp_readLoc {t : State} (h : execNextgrp s = .next t) (hst : loc ≠ .reg .status)
    (hw : writesLoc .nextgrp loc = false) : readLoc t loc = readLoc s loc := by
  rw [writesLoc_nextgrp, Bool.or_eq_false_iff] at hw
  obtain ⟨hgroup, hseq⟩ := hw
  obtain ⟨g, ty, s', hg, rfl⟩ := execNextgrp_next h
  calc readLoc (complete .ok (writeG g ty s')) loc
      = readLoc (writeG g ty s') loc := readLoc_complete .ok hst
    _ = readLoc s' loc := readLoc_writeG g ty hgroup
    _ = readLoc s loc := nextGroup_readLoc hg hseq

/-- The write set of GENBITS is the bit source and the sequencer's. -/
theorem writesLoc_genbits {loc : Loc} (h : writesLoc .genbits loc = false) :
    loc ≠ .reg .bitLen ∧ (∀ k, loc ≠ .mem .bit k) ∧ writesLoc .seqrst loc = false := by
  cases loc with
  | reg r => simpa [writesLoc, writesReg, and_assoc] using h
  | mem m k =>
    refine ⟨nofun, fun j hj => ?_, rfl⟩
    cases hj
    cases h

theorem execGenbits_readLoc {imm : BitVec 16} {t : State} (h : execGenbits imm s = .next t) (hst : loc ≠ .reg .status)
    (hw : writesLoc .genbits loc = false) : readLoc t loc = readLoc s loc := by
  obtain ⟨hlen, hmem, hseq⟩ := writesLoc_genbits hw
  obtain ⟨_, rfl⟩ | ⟨_, bs, s', hg, rfl⟩ := execGenbits_next h
  · exact readLoc_complete .cap hst
  · calc readLoc (complete .ok { s' with bitMem := memFill s'.bitMem bs, bitLen := immNat imm }) loc
        = readLoc { s' with bitMem := memFill s'.bitMem bs, bitLen := immNat imm } loc := readLoc_complete .ok hst
      _ = readLoc s' loc := readLoc_setBits _ _ hlen hmem
      _ = readLoc s loc := generate_readLoc hg hseq

theorem execDesign_readLoc {t : State} (h : execDesign s = .next t) (hst : loc ≠ .reg .status)
    (hw : writesLoc .design loc = false) : readLoc t loc = readLoc s loc := by
  obtain ⟨_, rfl⟩ | ⟨_, _, rfl⟩ | ⟨_, _, rfl⟩ := execDesign_next h
  · exact readLoc_complete .rate hst
  · exact readLoc_complete .cap hst
  · exact (readLoc_complete .ok hst).trans (readLoc_setTaps _ _ _ true hst hw)

theorem execDiffenc_readLoc {t : State} (h : execDiffenc s = .next t) (hst : loc ≠ .reg .status)
    (hw : writesLoc .diffenc loc = false) : readLoc t loc = readLoc s loc := by
  obtain ⟨bits, _, rfl⟩ := execDiffenc_next h
  exact (readLoc_complete .ok hst).trans (readLoc_setSymbols _ _ hw)

theorem execShape_readLoc {t : State} (h : execShape s = .next t) (hst : loc ≠ .reg .status)
    (hw : writesLoc .shape loc = false) : readLoc t loc = readLoc s loc := by
  obtain ⟨_, rfl⟩ | ⟨_, _, rfl⟩ | ⟨_, _, _, _, _, _, rfl⟩ := execShape_next h
  · exact readLoc_complete .noTaps hst
  · exact readLoc_complete .cap hst
  · exact (readLoc_complete .ok hst).trans (readLoc_setBaseband _ _ hw)

theorem execMix_readLoc {car : Carrier} {t : State} (h : execMix car s = .next t) (hst : loc ≠ .reg .status)
    (hw : writesLoc .mix loc = false) : readLoc t loc = readLoc s loc := by
  obtain ⟨_, rfl⟩ | ⟨_, _, _, rfl⟩ := execMix_next h
  · exact readLoc_complete .noTaps hst
  · exact (readLoc_complete .ok hst).trans (readLoc_setSubcarrier _ _ hw)

theorem readLoc_setModulated (sym : Mem SymVal) (bb sub : Mem NumVal) (k n : Nat) (hw : writesLoc .modulate loc = false) :
    readLoc { s with symMem := sym, symLen := k, bbMem := bb, bbLen := n, subMem := sub, subLen := n } loc =
      readLoc s loc := by
  rw [writesLoc_modulate, Bool.or_eq_false_iff, Bool.or_eq_false_iff] at hw
  obtain ⟨⟨hsym, hbb⟩, hsub⟩ := hw
  have hsym := readLoc_setSymbols (s := s) sym k hsym
  have hbb := readLoc_setBaseband (s := { s with symMem := sym, symLen := k }) bb n hbb
  have hsub := readLoc_setSubcarrier (s := { s with symMem := sym, symLen := k, bbMem := bb, bbLen := n }) sub n hsub
  exact hsub.trans (hbb.trans hsym)

theorem execModulate_readLoc {car : Carrier} {t : State} (h : execModulate car s = .next t) (hst : loc ≠ .reg .status)
    (hw : writesLoc .modulate loc = false) : readLoc t loc = readLoc s loc := by
  obtain ⟨_, rfl⟩ | ⟨_, _, rfl⟩ | ⟨_, _, _, _, _, _, rfl⟩ := execModulate_next h
  · exact readLoc_complete .noTaps hst
  · exact readLoc_complete .cap hst
  · exact (readLoc_complete .ok hst).trans (readLoc_setModulated _ _ _ _ _ hw)

theorem execCompose_readLoc {t : State} (h : execCompose s = .next t) (hst : loc ≠ .reg .status)
    (hw : writesLoc .compose loc = false) : readLoc t loc = readLoc s loc := by
  obtain ⟨_, rfl⟩ | ⟨_, _, _, _, _, _, rfl⟩ | ⟨_, _, _, _, _, _, _, _, _, _, _, _, _, _, _, _, rfl⟩ := execCompose_next h
  · exact readLoc_complete .noTaps hst
  · exact readLoc_complete .nonFinite hst
  · exact (readLoc_complete .ok hst).trans (readLoc_setOutput _ hw)

/-- A command that completes, with or without an error, changes no location outside its write set but STATUS (R83(c)). -/
theorem exec_readLoc {i : Instr} {t : State} (h : exec i s = .next t) (hst : loc ≠ .reg .status)
    (hw : writesLoc i.mnemonic loc = false) : readLoc t loc = readLoc s loc := by
  cases i with
  | nop => exact succeed_readLoc h hst rfl
  | srst => exact succeed_readLoc h hst (readLoc_softReset hst hw)
  | crc10 imm => exact succeed_readLoc h hst (readLoc_setResult _ hw)
  | pack blk imm => exact succeed_readLoc h hst (readLoc_setResult _ hw)
  | grp0a imm => exact succeed_readLoc h hst (readLoc_writeG _ _ hw)
  | grp2a imm => exact succeed_readLoc h hst (readLoc_writeG _ _ hw)
  | psload imm => exact succeed_readLoc h hst (readLoc_setPs _ hw)
  | rtload imm => exact succeed_readLoc h hst (readLoc_setRt _ hw)
  | nextgrp => exact execNextgrp_readLoc h hst hw
  | genbits imm => exact execGenbits_readLoc h hst hw
  | seqrst => exact succeed_readLoc h hst (readLoc_setSequencer 0 0 0 hw)
  | design => exact execDesign_readLoc h hst hw
  | diffenc => exact execDiffenc_readLoc h hst hw
  | shape => exact execShape_readLoc h hst hw
  | mix car => exact execMix_readLoc h hst hw
  | modulate car => exact execModulate_readLoc h hst hw
  | compose => exact execCompose_readLoc h hst hw

end

/-- Settles O53: the two kinds of read, and the frame of every command. -/
theorem readsAreCurrentOrFree : Obligations.ReadsAreCurrentOrFree := by
  refine ⟨fun s loc addr rest ht htarget => ⟨fun hfree => ?_, fun v hout hv => ?_⟩, fun i s t loc h hst hw => ?_⟩
  · refine step_read_free ht htarget (hfree.imp_left ?_)
    rintro ⟨w, left, c, he, hc, hw⟩
    exact (inWriteSet_iff s loc).2 ⟨w, left, c, he, hc, written_eq_writesLoc c loc ▸ hw⟩
  · refine step_read_current ht htarget (Bool.eq_false_iff.2 fun hin => ?_) hv
    obtain ⟨w, left, c, he, hc, hw⟩ := (inWriteSet_iff s loc).1 hin
    rw [← written_eq_writesLoc, hout w left c he hc] at hw
    cases hw
  · exact exec_readLoc h hst (written_eq_writesLoc _ loc ▸ hw)

end Sys2Proof.Machine
end

section
/-! PROOF. The encoding: what each outcome of the decoder says of a word's fields, that a word is its four fields, and the two round
trips between words and commands (spec/30_encoding.md R100 to R111). -/

namespace Sys2Proof

/-! ### The tables, read in both directions -/

theorem mnemonicOf_opcode (c : Mnemonic) : mnemonicOf c.opcode = some c := by cases c <;> rfl

/-- The two readings of the opcode column of R106 agree: no opcode is in two rows and no row has two opcodes. -/
theorem mnemonicOf_eq_some_iff (opc : BitVec 8) (c : Mnemonic) : mnemonicOf opc = some c ↔ c.opcode = opc := by
  constructor
  · intro h
    unfold mnemonicOf at h
    split at h
    case h_18 => cases h
    all_goals
      rename_i hopc
      obtain rfl := Option.some.inj h
      exact BitVec.eq_of_toNat_eq hopc.symm
  · rintro rfl
    exact mnemonicOf_opcode c

@[simp] theorem Block.ofSel_sel (blk : Block) : Block.ofSel blk.sel = blk := by cases blk <;> rfl
@[simp] theorem Block.sel_ofSel (sel : BitVec 2) : (Block.ofSel sel).sel = sel := by revert sel; decide
@[simp] theorem Carrier.ofSel_sel (car : Carrier) : Carrier.ofSel car.sel = car := by cases car <;> rfl
@[simp] theorem Carrier.sel_ofSel (sel : BitVec 2) : (Carrier.ofSel sel).sel = sel := by revert sel; decide

/-! ### A command and its operand fields -/

/-- A command is its operation and its two operand fields. -/
theorem Instr.build_fields (i : Instr) : i.mnemonic.build i.sel i.imm = i := by
  cases i with
  | pack blk imm => exact congrArg (Instr.pack · imm) blk.ofSel_sel
  | mix car => exact congrArg Instr.mix car.ofSel_sel
  | modulate car => exact congrArg Instr.modulate car.ofSel_sel
  | _ => rfl

section
variable (c : Mnemonic) (sel : BitVec 2) (imm : BitVec 16)

theorem Mnemonic.mnemonic_build : (c.build sel imm).mnemonic = c := by cases c <;> rfl

theorem Mnemonic.sel_build (h : c.usesSel = false → sel = 0) : (c.build sel imm).sel = sel := by
  cases c with
  | pack => exact Block.sel_ofSel sel
  | mix | modulate => exact Carrier.sel_ofSel sel
  | _ => exact (h rfl).symm

theorem Mnemonic.imm_build (h : c.usesImm = false → imm = 0) : (c.build sel imm).imm = imm := by
  cases c with
  | crc10 | pack | grp0a | grp2a | psload | rtload | genbits => rfl
  | _ => exact (h rfl).symm

end

/-- Every command's word is as its table row says. -/
theorem tableRow (i : Instr) : Laws.TableRow.Statement i := by
  cases i with
  | nop => exact Laws.TableRow.nop
  | srst => exact Laws.TableRow.srst
  | crc10 imm => exact Laws.TableRow.crc10 imm
  | pack blk imm => exact Laws.TableRow.pack blk imm
  | grp0a imm => exact Laws.TableRow.grp0a imm
  | grp2a imm => exact Laws.TableRow.grp2a imm
  | psload imm => exact Laws.TableRow.psload imm
  | rtload imm => exact Laws.TableRow.rtload imm
  | nextgrp => exact Laws.TableRow.nextgrp
  | genbits imm => exact Laws.TableRow.genbits imm
  | seqrst => exact Laws.TableRow.seqrst
  | design => exact Laws.TableRow.design
  | diffenc => exact Laws.TableRow.diffenc
  | shape => exact Laws.TableRow.shape
  | mix car => exact Laws.TableRow.mix car
  | modulate car => exact Laws.TableRow.modulate car
  | compose => exact Laws.TableRow.compose

/-! ### The decoder, outcome by outcome -/

/-- A word has no bit outside its four fields (R100). -/
theorem word_ext_fields {v w : Word} (hopc : opcField v = opcField w) (hsel : selField v = selField w)
    (hrsv : rsvField v = rsvField w) (himm : immField v = immField w) : v = w := by
  simp only [opcField, selField, rsvField, immField, ← BitVec.toNat_inj, BitVec.extractLsb'_toNat,
    Nat.shiftRight_eq_div_pow] at *
  omega

section
variable (w : Word)

/-- E_OPC is an opcode in no row of R106, whatever the other fields (R107). -/
theorem decode_eq_opc_iff : decode w = .error .opc ↔ mnemonicOf (opcField w) = none := by
  unfold decode
  cases mnemonicOf (opcField w) with
  | none => simp
  | some c => refine iff_of_false ?_ nofun; dsimp only; split_ifs <;> nofun

/-- E_FIELD is an assigned opcode with a bit set in RSV or in a field its command does not use (R107). -/
theorem decode_eq_field_iff :
    decode w = .error .field ↔ ∃ c, mnemonicOf (opcField w) = some c ∧
      (rsvField w ≠ 0 ∨ (c.usesSel = false ∧ selField w ≠ 0) ∨ (c.usesImm = false ∧ immField w ≠ 0)) := by
  unfold decode
  cases mnemonicOf (opcField w) with
  | none => simp
  | some c =>
    simp only [Option.some.injEq, exists_eq_left']
    split_ifs with hrsv hsel himm
    · exact iff_of_true rfl (.inl hrsv)
    · exact iff_of_true rfl (.inr (.inl hsel))
    · exact iff_of_true rfl (.inr (.inr himm))
    · exact iff_of_false nofun (not_or.2 ⟨hrsv, not_or.2 ⟨hsel, himm⟩⟩)

/-- A command is an assigned opcode with RSV and every field its command does not use 0 (R105, R107). -/
theorem decode_eq_ok_iff (i : Instr) :
    decode w = .ok i ↔ ∃ c, mnemonicOf (opcField w) = some c ∧ rsvField w = 0 ∧
      (c.usesSel = false → selField w = 0) ∧ (c.usesImm = false → immField w = 0) ∧
      c.build (selField w) (immField w) = i := by
  unfold decode
  cases mnemonicOf (opcField w) with
  | none => simp
  | some c =>
    simp only [Option.some.injEq, exists_eq_left']
    split_ifs with hrsv hsel himm
    · exact iff_of_false nofun fun ⟨h, _⟩ => hrsv h
    · exact iff_of_false nofun fun ⟨_, h, _⟩ => hsel.2 (h hsel.1)
    · exact iff_of_false nofun fun ⟨_, _, h, _⟩ => himm.2 (h himm.1)
    · simp_all

end

/-! ### The round trips -/

/-- Settles O1: the fields of the command's word pass the decoder's checks, and the command is built back from them. -/
theorem decodeOfEncodeIsTheCommand : Obligations.DecodeOfEncodeIsTheCommand := by
  intro i
  obtain ⟨hopc, hsel, hrsv, himm, hunusedSel, hunusedImm⟩ := tableRow i
  rw [decode_eq_ok_iff, hopc, hsel, hrsv, himm]
  exact ⟨i.mnemonic, mnemonicOf_opcode _, rfl, hunusedSel, hunusedImm, i.build_fields⟩

/-- Settles O2: the command built from a word's fields has a word with the same four fields, so it is the same word. -/
theorem encodeOfDecodeIsTheWord : Obligations.EncodeOfDecodeIsTheWord := by
  intro w i h
  obtain ⟨c, hc, hrsv, hunusedSel, hunusedImm, rfl⟩ := (decode_eq_ok_iff w i).1 h
  obtain ⟨hopc', hsel', hrsv', himm'⟩ := Laws.TableRow.fields (c.build (selField w) (immField w))
  refine word_ext_fields ?_ ?_ (hrsv'.trans hrsv.symm) ?_
  · rw [hopc', c.mnemonic_build, (mnemonicOf_eq_some_iff _ c).1 hc]
  · rw [hsel', c.sel_build _ _ hunusedSel]
  · rw [himm', c.imm_build _ _ hunusedImm]

/-- Settles O5: the six words of commands are what those commands encode to; 0x16 is in no row, and DESIGN uses no IMM16. -/
theorem tabulatedWordsDecode : Obligations.TabulatedWordsDecode :=
  ⟨decodeOfEncodeIsTheCommand (.crc10 0x1234), decodeOfEncodeIsTheCommand (.pack .d 0xFFFF),
    decodeOfEncodeIsTheCommand .nextgrp, decodeOfEncodeIsTheCommand (.mix .c85),
    decodeOfEncodeIsTheCommand .compose, decodeOfEncodeIsTheCommand .srst,
    (decode_eq_opc_iff _).2 rfl,
    (decode_eq_field_iff _).2 ⟨.design, rfl, .inr (.inr ⟨rfl, by decide⟩)⟩⟩

end Sys2Proof
end

section
/-! PROOF. The checkword as a polynomial over GF(2) (spec/40_rds_encoder.md R130 to R132): the register of R130 holds the message
read so far modulo g(x), and the linearity of crc10 is that of the remainder. -/

namespace Sys2Proof.Machine

open Polynomial Sys2Proof.Statements

/-! ### The polynomial of a word -/

theorem coeff_bitPoly {n : Nat} (v : BitVec n) (k : Nat) : (bitPoly v).coeff k = if v.getLsbD k then 1 else 0 := by
  have hterm : ∀ i : Fin n, (if v.getLsbD i.val then (X ^ i.val : (ZMod 2)[X]) else 0).coeff k =
      if k = i.val ∧ v.getLsbD k then 1 else 0 := fun i => by
    rw [apply_ite (coeff · k), coeff_X_pow, coeff_zero]
    by_cases hi : k = i.val
    · simp [hi]
    · simp [hi]
  rw [bitPoly, finsetSum_coeff, Finset.sum_congr rfl fun i _ => hterm i]
  by_cases hk : k < n
  · rw [Finset.sum_eq_single ⟨k, hk⟩ (fun i _ hi => if_neg fun h => hi (Fin.ext h.1.symm)) (by simp)]
    simp
  · rw [Finset.sum_eq_zero fun i _ => if_neg fun h => by omega, BitVec.getLsbD_of_ge v k (by omega)]
    rfl

/-- A word is determined by its polynomial. -/
theorem bitPoly_injective {n : Nat} : Function.Injective (bitPoly (n := n)) := by
  intro v w h
  have hbit : ∀ a b : Bool, (if a then 1 else 0 : ZMod 2) = (if b then 1 else 0) → a = b := by decide
  refine BitVec.eq_of_getLsbD_eq fun i _ => hbit _ _ ?_
  simpa only [coeff_bitPoly] using congrArg (coeff · i) h

theorem bitPoly_xor {n : Nat} (v w : BitVec n) : bitPoly (v ^^^ w) = bitPoly v + bitPoly w := by
  have hbit : ∀ a b : Bool, (if a ^^ b then 1 else 0 : ZMod 2) = (if a then 1 else 0) + if b then 1 else 0 := by decide
  ext k
  rw [coeff_add, coeff_bitPoly, coeff_bitPoly, coeff_bitPoly, BitVec.getLsbD_xor, hbit]

theorem degree_bitPoly_lt {n : Nat} (v : BitVec n) : (bitPoly v).degree < n :=
  (degree_lt_iff_coeff_zero _ _).2 fun k hk => by simp [coeff_bitPoly, BitVec.getLsbD_of_ge v k hk]

/-- A bit shifted in at the bottom: the polynomial times x, plus the bit. -/
theorem bitPoly_concat {n : Nat} (v : BitVec n) (b : Bool) :
    bitPoly (v.concat b) = bitPoly v * X + bitPoly (BitVec.ofBool b) := by
  ext k
  cases k with
  | zero => simp [coeff_bitPoly]
  | succ k => simp [coeff_bitPoly]

/-- Dropping bits that are 0 leaves the polynomial. -/
theorem bitPoly_setWidth {m n : Nat} (v : BitVec m) (h : ∀ k, n ≤ k → v.getLsbD k = false) :
    bitPoly (v.setWidth n) = bitPoly v := by
  ext k
  rw [coeff_bitPoly, coeff_bitPoly, BitVec.getLsbD_setWidth]
  by_cases hk : k < n
  · simp [hk]
  · simp [hk, h k (by omega)]

/-- The message of R130, the word with ten zero bits behind it, is w(x) x^10. -/
theorem bitPoly_message (w : BitVec 16) : bitPoly (w.setWidth 26 <<< 10) = bitPoly w * X ^ 10 := by
  ext k
  rw [coeff_mul_X_pow', coeff_bitPoly, BitVec.getLsbD_shiftLeft, BitVec.getLsbD_setWidth]
  by_cases hk : 10 ≤ k
  · rw [if_pos hk, coeff_bitPoly]
    by_cases hk' : k < 26
    · simp [hk', show ¬k < 10 by omega, show k - 10 < 26 by omega]
    · simp [hk', BitVec.getLsbD_of_ge w (k - 10) (by omega)]
  · simp [show k < 10 by omega, show ¬10 ≤ k by omega]

/-! ### The register of R130 -/

theorem bitPoly_generator : bitPoly (0x5B9 : BitVec 11) = crcGenerator := by
  have hbits : bitPoly (0x5B9 : BitVec 11) = 1 + X ^ 3 + X ^ 4 + X ^ 5 + X ^ 7 + X ^ 8 + X ^ 10 := by
    simp [bitPoly, Fin.sum_univ_succ, add_assoc]
  rw [hbits, crcGenerator]
  ring

theorem crcGenerator_monic : crcGenerator.Monic := by
  rw [crcGenerator]
  monicity!

theorem degree_crcGenerator : crcGenerator.degree = 10 := by
  rw [crcGenerator]
  compute_degree!

/-- The register holds a representative of `p` modulo g(x) of degree below 10. -/
def HoldsResidue (reg : BitVec 11) (p : (ZMod 2)[X]) : Prop :=
  reg.getLsbD 10 = false ∧ crcGenerator ∣ bitPoly reg - p

theorem getLsbD_of_top_clear {reg : BitVec 11} (htop : reg.getLsbD 10 = false) {k : Nat} (hk : 10 ≤ k) :
    reg.getLsbD k = false := by
  rcases hk.eq_or_lt with rfl | hk
  · exact htop
  · exact BitVec.getLsbD_of_ge reg k hk

/-- What the low ten bits of such a register hold. -/
theorem HoldsResidue.bitPoly_eq {reg : BitVec 11} {p : (ZMod 2)[X]} (h : HoldsResidue reg p) :
    bitPoly (reg.setWidth 10) = p %ₘ crcGenerator := by
  obtain ⟨htop, hdvd⟩ := h
  have hlow : bitPoly (reg.setWidth 10) = bitPoly reg := bitPoly_setWidth reg fun _ => getLsbD_of_top_clear htop
  have hdegree : (bitPoly (reg.setWidth 10)).degree < crcGenerator.degree := by
    rw [degree_crcGenerator]
    exact degree_bitPoly_lt _
  rw [← (modByMonic_eq_self_iff crcGenerator_monic).2 hdegree, hlow]
  exact modByMonic_eq_of_dvd_sub crcGenerator_monic hdvd

/-- One iteration shifts the bit in, and where x^10 appears subtracts g(x). -/
theorem crcStep_eq (reg : BitVec 11) (b : Bool) :
    crcStep reg b = if ((reg.concat b).setWidth 11).getLsbD 10 then (reg.concat b).setWidth 11 ^^^ 0x5B9
      else (reg.concat b).setWidth 11 := by
  have hshift : (reg <<< 1) ||| (BitVec.ofBool b).setWidth 11 = (reg.concat b).setWidth 11 := by
    rw [BitVec.concat, BitVec.setWidth_append_eq_shiftLeft_setWidth_or, BitVec.setWidth_eq]
  rw [crcStep, hshift]

/-- No bit is lost in the shift. -/
theorem bitPoly_shifted {reg : BitVec 11} (b : Bool) (htop : reg.getLsbD 10 = false) :
    bitPoly ((reg.concat b).setWidth 11) = bitPoly reg * X + bitPoly (BitVec.ofBool b) := by
  rw [bitPoly_setWidth _ fun k hk => ?_, bitPoly_concat]
  rw [BitVec.getLsbD_concat, if_neg (by omega), getLsbD_of_top_clear htop (by omega)]

/-- One iteration takes the register from `p` to `p x + b`. -/
theorem crcStep_holdsResidue {reg : BitVec 11} {p : (ZMod 2)[X]} (b : Bool) (h : HoldsResidue reg p) :
    HoldsResidue (crcStep reg b) (p * X + bitPoly (BitVec.ofBool b)) := by
  obtain ⟨htop, hdvd⟩ := h
  have hshifted : crcGenerator ∣ bitPoly ((reg.concat b).setWidth 11) - (p * X + bitPoly (BitVec.ofBool b)) := by
    rw [bitPoly_shifted b htop, add_sub_add_right_eq_sub, ← sub_mul]
    exact hdvd.mul_right X
  rw [crcStep_eq]
  split
  · rename_i hbit
    refine ⟨by rw [BitVec.getLsbD_xor, hbit]; decide, ?_⟩
    rw [bitPoly_xor, bitPoly_generator, add_sub_right_comm]
    exact hshifted.add dvd_rfl
  · rename_i hbit
    exact ⟨Bool.eq_false_of_not_eq_true hbit, hshifted⟩

theorem bitsMSB_concat {n : Nat} (v : BitVec n) (b : Bool) : bitsMSB (v.concat b) = bitsMSB v ++ [b] := by
  have hinit : (List.range n).map (v.concat b).getMsbD = (List.range n).map v.getMsbD :=
    List.map_congr_left fun i hi => by rw [BitVec.getMsbD_concat, if_pos (List.mem_range.1 hi)]
  simp [bitsMSB, List.range_succ, hinit, BitVec.getMsbD_concat]

/-- Feeding a bit sequence into the cleared register leaves its polynomial modulo g(x). -/
theorem foldl_crcStep_holdsResidue {n : Nat} (v : BitVec n) :
    HoldsResidue ((bitsMSB v).foldl crcStep 0) (bitPoly v) := by
  induction v using BitVec.concat_induction with
  | nil => exact ⟨rfl, by simp [bitPoly, bitsMSB]⟩
  | concat v b ih =>
    rw [bitsMSB_concat, List.foldl_append, bitPoly_concat]
    exact crcStep_holdsResidue b ih

/-- Settles O18: the register after the message holds it modulo g(x). -/
theorem crc10IsThePolynomialRemainder : Obligations.Crc10IsThePolynomialRemainder := by
  intro w
  rw [← bitPoly_message]
  exact (foldl_crcStep_holdsResidue _).bitPoly_eq

/-! ### Linearity and single-bit changes -/

theorem crc10_xor (a b : BitVec 16) : crc10 (a ^^^ b) = crc10 a ^^^ crc10 b := by
  refine bitPoly_injective ?_
  simp only [bitPoly_xor, crc10IsThePolynomialRemainder _, add_mul, add_modByMonic]

theorem crc10_one_shiftLeft : ∀ k, k < 16 → some (crc10 (1 <<< k)) = singleBitCrcs[k]? := by decide +kernel

theorem singleBitCrcs_ne_zero : ∀ v ∈ singleBitCrcs, v ≠ 0 := by decide

/-- Settles O19: flipping bit `k` adds the checkword of `1 <<< k`, which is not 0. -/
theorem crc10IsLinearAndSensitive : Obligations.Crc10IsLinearAndSensitive := by
  refine ⟨crc10_xor, by simpa using crc10_xor 0 0, crc10_one_shiftLeft, singleBitCrcs_ne_zero, fun w k hk heq => ?_⟩
  have hzero : crc10 (1 <<< k) = 0 := by simpa [crc10_xor] using heq
  exact singleBitCrcs_ne_zero _ (List.mem_of_getElem? (crc10_one_shiftLeft k hk).symm) hzero

end Sys2Proof.Machine
end

section
/-! PROOF. Blocks, groups and texts of the RDS encoder, and what its commands leave in RESULT, GBUF, PS and RT
(spec/40_rds_encoder.md R133 to R149). -/

namespace Sys2Proof.Machine

open Sys2Proof.Statements

/-! ### Blocks -/

/-- A block is its 16 information bits and behind them the checkword with the offset word (R133). -/
theorem packBlock_eq_append (w : BitVec 16) (off : BitVec 10) : packBlock w off = w ++ (crc10 w ^^^ off) := by
  rw [packBlock, ← BitVec.setWidth_append_eq_shiftLeft_setWidth_or]
  exact BitVec.setWidth_eq _

theorem packBlock_getMsbD (w : BitVec 16) (off : BitVec 10) {i : Nat} (hi : i < 16) :
    (packBlock w off).getMsbD i = w.getMsbD i := by
  rw [packBlock_eq_append, BitVec.getMsbD_append, if_neg (by omega)]

/-- The fields of block B do not overlap, so block B is their sum (R134). -/
theorem blockB_eq_ofNat {ver seg : Nat} (type : Nat) (hver : ver < 2) (hseg : seg < 16) :
    blockB type ver seg = BitVec.ofNat 16 (2 ^ 12 * type + 2 ^ 11 * ver + seg) := by
  have hor : type <<< 12 ||| ver <<< 11 ||| seg = 2 ^ 12 * type + 2 ^ 11 * ver + seg := by
    rw [Nat.or_assoc, ← Nat.shiftLeft_add_eq_or_of_lt (show seg < 2 ^ 11 by omega), Nat.shiftLeft_eq ver,
      ← Nat.shiftLeft_add_eq_or_of_lt (show ver * 2 ^ 11 + seg < 2 ^ 12 by omega), Nat.shiftLeft_eq]
    omega
  have hshift : ∀ x n : Nat, BitVec.ofNat 16 (x <<< n) = BitVec.ofNat 16 x <<< n := fun x n => by
    simp [← BitVec.toNat_inj, Nat.shiftLeft_eq]
  rw [← hor, BitVec.ofNat_or, BitVec.ofNat_or, hshift, hshift, blockB]

/-- Settles O21: each field is a digit range of block B's number. -/
theorem blockBFieldsAreRecoverable : Obligations.BlockBFieldsAreRecoverable := by
  intro type ver seg htype hver hseg
  rw [blockB_eq_ofNat type hver hseg]
  refine ⟨?_, ?_, ?_, ?_⟩ <;>
    simp only [← BitVec.toNat_inj, BitVec.extractLsb'_toNat, BitVec.ofNat_eq_ofNat, BitVec.toNat_ofNat,
      Nat.shiftRight_eq_div_pow] <;>
    omega

/-- Settles O20: the upper and the lower part of a block. -/
theorem crc10AndPackResults : Obligations.Crc10AndPackResults := by
  refine fun w s => ⟨rfl, fun blk => ⟨_, rfl, rfl, ?_, ?_⟩⟩
  · simp only [complete_result, packBlock_eq_append]
    exact BitVec.extractLsb'_append_eq_left
  · simp only [complete_result, packBlock_eq_append]
    rw [BitVec.extractLsb'_append_eq_right]
    cases blk <;> rfl

/-! ### Groups -/

/-- The four blocks of a group stand one behind the other, 26 bits each (R135). -/
theorem groupBits_getElem? (a b c d : BitVec 16) {j : Nat} (hj : j < 26) :
    (groupBits a b c d)[j]? = some ((packBlock a 0x0FC).getMsbD j) ∧
      (groupBits a b c d)[26 + j]? = some ((packBlock b 0x198).getMsbD j) ∧
      (groupBits a b c d)[52 + j]? = some ((packBlock c 0x168).getMsbD j) ∧
      (groupBits a b c d)[78 + j]? = some ((packBlock d 0x1B4).getMsbD j) := by
  refine ⟨?_, ?_, ?_, ?_⟩
  · rw [groupBits, List.getElem?_append_left (by simp; omega), List.getElem?_append_left (by simp; omega),
      List.getElem?_append_left (by simp; omega)]
    exact bitsMSB_getElem? _ j hj
  · rw [groupBits, List.getElem?_append_left (by simp; omega), List.getElem?_append_left (by simp; omega),
      List.getElem?_append_right (by simp)]
    simpa [offsetWord] using bitsMSB_getElem? _ j hj
  · rw [groupBits, List.getElem?_append_left (by simp; omega), List.getElem?_append_right (by simp)]
    simpa [offsetWord] using bitsMSB_getElem? _ j hj
  · rw [groupBits, List.getElem?_append_right (by simp)]
    simpa [offsetWord] using bitsMSB_getElem? _ j hj

/-- The information bits of blocks C and D. -/
theorem groupBits_infoBits (a b c d : BitVec 16) {j : Nat} (hj : j < 16) :
    (groupBits a b c d)[52 + j]? = some (c.getMsbD j) ∧ (groupBits a b c d)[78 + j]? = some (d.getMsbD j) := by
  obtain ⟨-, -, hc, hd⟩ := groupBits_getElem? a b c d (show j < 26 by omega)
  rw [hc, hd, packBlock_getMsbD _ _ hj, packBlock_getMsbD _ _ hj]
  exact ⟨rfl, rfl⟩

theorem textPair_eq_charPair {n : Nat} (v : Vector Byte n) {i : Nat} (h : i + 1 < n) :
    textPair v i = charPair v[i] v[i + 1] := by
  rw [charPair, ← BitVec.setWidth_append_eq_shiftLeft_setWidth_or, textPair, List.getD_eq_getElem _ _ (by simp; omega),
    List.getD_eq_getElem _ _ (by simpa using h), Vector.getElem_toList, Vector.getElem_toList]
  exact (BitVec.setWidth_eq _).symm

/-- The bits of a character pair are those of its two characters in order. -/
theorem textPair_getMsbD {n : Nat} (v : Vector Byte n) {i b j : Nat} (h : i + 1 < n) (hb : b < 2) (hj : j < 8) :
    v.toList[i + b]?.map (·.getMsbD j) = some ((textPair v i).getMsbD (8 * b + j)) := by
  rw [textPair_eq_charPair v h, charPair, ← BitVec.setWidth_append_eq_shiftLeft_setWidth_or, BitVec.setWidth_eq,
    BitVec.getMsbD_append]
  interval_cases b
  · simp [show ¬8 ≤ j by omega, show i < n by omega]
  · simp [h]

/-- R136. -/
theorem group0A_eq (s : State) (seg : Fin 4) :
    group0A s seg = groupBits s.pi (BitVec.ofNat 16 seg.val) 0 (textPair s.ps (2 * seg.val)) := by
  rw [group0A, textPair_eq_charPair s.ps (by omega), blockB_eq_ofNat 0 (by decide) (by omega)]
  simp

/-- R137. -/
theorem group2A_eq (s : State) (seg : Fin 16) :
    group2A s seg = groupBits s.pi (BitVec.ofNat 16 (0x2000 + seg.val)) (textPair s.rt (4 * seg.val))
      (textPair s.rt (4 * seg.val + 2)) := by
  rw [group2A, textPair_eq_charPair s.rt (by omega), textPair_eq_charPair s.rt (by omega),
    blockB_eq_ofNat 2 (by decide) seg.isLt]
  rfl

/-- A command that succeeds with a group: its blocks in GBUF, zeros behind them, and GINFO (R146). -/
theorem succeed_writeG_groupBits (a b c d : BitVec 16) (ty : GType) (s : State) :
    ∃ t, succeed (writeG (groupBits a b c d) ty s) = .next t ∧
      t = { s with gbuf := t.gbuf, glen := 104, gtype := ty, err := .ok, done := true, eng := .idle } ∧
      gbufHasBlock t 0 (packBlock a 0x0FC) ∧ gbufHasBlock t 26 (packBlock b 0x198) ∧
      gbufHasBlock t 52 (packBlock c 0x168) ∧ gbufHasBlock t 78 (packBlock d 0x1B4) ∧
      ∀ j, 104 ≤ j → j < 128 → gbufBit t j = false := by
  have hbit : ∀ j, j < 128 → gbufBit (complete .ok (writeG (groupBits a b c d) ty s)) j =
      ((groupBits a b c d)[j]?).getD false := fun j hj => gbufBit_writeG _ ty s hj
  refine ⟨_, rfl, ?_, fun j hj => ?_, fun j hj => ?_, fun j hj => ?_, fun j hj => ?_, fun j hj hj' => ?_⟩
  · rw [← groupBits_length a b c d]
    rfl
  · obtain ⟨ha, -, -, -⟩ := groupBits_getElem? a b c d hj
    rw [Nat.zero_add, hbit _ (by omega), ha, Option.getD_some]
  · obtain ⟨-, hb, -, -⟩ := groupBits_getElem? a b c d hj
    rw [hbit _ (by omega), hb, Option.getD_some]
  · obtain ⟨-, -, hc, -⟩ := groupBits_getElem? a b c d hj
    rw [hbit _ (by omega), hc, Option.getD_some]
  · obtain ⟨-, -, -, hd⟩ := groupBits_getElem? a b c d hj
    rw [hbit _ (by omega), hd, Option.getD_some]
  · rw [hbit j hj', List.getElem?_eq_none (by simpa using hj), Option.getD_none]

/-- Settles O22: the group of the clamped segment, written. -/
theorem grp0aWritesTheGroup : Obligations.Grp0aWritesTheGroup := by
  intro imm s
  have hexec : exec (.grp0a imm) s = succeed (writeG (groupBits s.pi (BitVec.ofNat 16 (min imm.toNat 3)) 0
      (textPair s.ps (2 * min imm.toNat 3))) .group0A s) :=
    congrArg (fun g => succeed (writeG g .group0A s)) (group0A_eq s (clampSeg (immNat imm) 3))
  rw [hexec]
  exact succeed_writeG_groupBits _ _ _ _ _ s

/-- Settles O23, as O22. -/
theorem grp2aWritesTheGroup : Obligations.Grp2aWritesTheGroup := by
  intro imm s
  have hexec : exec (.grp2a imm) s = succeed (writeG (groupBits s.pi (BitVec.ofNat 16 (0x2000 + min imm.toNat 15))
      (textPair s.rt (4 * min imm.toNat 15)) (textPair s.rt (4 * min imm.toNat 15 + 2))) .group2A s) :=
    congrArg (fun g => succeed (writeG g .group2A s)) (group2A_eq s (clampSeg (immNat imm) 15))
  rw [hexec]
  exact succeed_writeG_groupBits _ _ _ _ _ s

/-- Settles O25: the information bits of a text block are the bits of its two characters. -/
theorem groupsCarryTheTextInOrder : Obligations.GroupsCarryTheTextInOrder := by
  refine fun s j hj => ⟨fun seg b hb => ?_, fun seg b hb => ?_⟩
  · obtain ⟨-, hd⟩ := groupBits_infoBits s.pi (BitVec.ofNat 16 seg.val) 0 (textPair s.ps (2 * seg.val))
      (show 8 * b + j < 16 by omega)
    rw [textPair_getMsbD s.ps (by omega) hb hj, group0A_eq, Nat.add_assoc, hd]
  · rw [textPair_getMsbD s.rt (by omega) hb hj, textPair_getMsbD s.rt (by omega) hb hj, group2A_eq, Nat.add_assoc,
      Nat.add_assoc]
    exact groupBits_infoBits _ _ _ _ (by omega)

/-! ### Texts -/

/-- R139. -/
theorem fixText_toList (txt : Vector Byte 64) (n : Nat) {len j : Nat} (hlen : len ≤ 64) (hj : j < len) :
    (fixText txt n len hlen).toList[j]? = if j < min n len then txt.toList[j]? else some 0x20 := by
  rw [Vector.getElem?_toList, Vector.getElem?_toList, Vector.getElem?_eq_getElem hj,
    Vector.getElem?_eq_getElem (hj.trans_le hlen), fixText, Vector.getElem_ofFn]
  split <;> rfl

/-- Settles O24. -/
theorem textLoadsTruncateAndPad : Obligations.TextLoadsTruncateAndPad := fun n s =>
  ⟨⟨_, rfl, rfl, fun _ hj => fixText_toList s.txt n.toNat (by decide) hj⟩,
    ⟨_, rfl, rfl, fun _ hj => fixText_toList s.txt n.toNat (by decide) hj⟩⟩

/-! ### What the commands depend on -/

/-- Settles O26: a group is a function of PI, the segment and the text, and GBUF and GINFO are functions of the group. -/
theorem encoderDependsOnIdentityAndTextOnly : Obligations.EncoderDependsOnIdentityAndTextOnly := by
  intro s s' hpi hps hrt blk imm
  have h0A : ∀ seg, group0A s seg = group0A s' seg := fun seg => by rw [group0A_eq, group0A_eq, hpi, hps]
  have h2A : ∀ seg, group2A s seg = group2A s' seg := fun seg => by rw [group2A_eq, group2A_eq, hpi, hrt]
  refine ⟨⟨_, _, rfl, rfl, rfl⟩, ⟨_, _, rfl, rfl, rfl⟩, ⟨_, _, rfl, rfl, ?_⟩, ⟨_, _, rfl, rfl, ?_⟩⟩
  · simp only [complete_gbuf, complete_glen, complete_gtype, writeG_gbuf, writeG_glen, writeG_gtype, h0A, and_self]
  · simp only [complete_gbuf, complete_glen, complete_gtype, writeG_gbuf, writeG_glen, writeG_gtype, h2A, and_self]

end Sys2Proof.Machine
end

section
/-! PROOF. The RDS group sequencer: when an emission succeeds and of which type it is, what `generate` returns, and what NEXTGRP,
GENBITS and SEQRST leave (spec/41_rds_sequencer.md R160 to R170). -/

namespace Sys2Proof.Machine

open Sys2Proof.Statements

/-! ### Emissions that succeed -/

/-- Every bit of a logo that is present is defined, so no chunk of it can stop an emission (R168). -/
def LogoReadable (s : State) : Prop := logoPresent s = true → ∀ k, k < s.logoLen → (memGet s.logoMem k).isSome = true

theorem logoReadable_of_absent {s : State} (h : logoPresent s = false) : LogoReadable s := fun hp => by simp [h] at hp

/-- An emission fails at a ⊥ bit of the chunk that is due, and nowhere else. -/
theorem nextGroup_succeeds_of_chunk (cmd : Mnemonic) {s : State}
    (h : logoPresent s = true → ∀ j, j < logoChunkLen s → (memGet s.logoMem (s.logoCur + j)).isSome = true) :
    ∃ g ty t, nextGroup cmd s = .ok ((g, ty), t) := by
  cases hg : nextGroup cmd s with
  | ok r => exact ⟨r.1.1, r.1.2, r.2, rfl⟩
  | error f =>
    obtain ⟨hp, -, k, -, hlow, hhigh, hnone⟩ := nextGroup_error hg
    have hsome := h hp (k - s.logoCur) (by omega)
    rw [Nat.add_sub_cancel' hlow, hnone] at hsome
    cases hsome

theorem nextGroup_succeeds (cmd : Mnemonic) {s : State} (h : LogoReadable s) :
    ∃ g ty t, nextGroup cmd s = .ok ((g, ty), t) := by
  refine nextGroup_succeeds_of_chunk cmd fun hp j hj => h hp _ ?_
  have hmin : logoChunkLen s ≤ s.logoLen - s.logoCur := Nat.min_le_right _ _
  omega

theorem nextGroup_logoPresent {cmd : Mnemonic} {s : State} {r : (List Bool × GType) × State} (h : nextGroup cmd s = .ok r) :
    logoPresent r.2 = logoPresent s := by
  rw [nextGroup_frame h]
  rfl

/-- Readability is about CTRL, LOGO_LEN and LOGO_MEM, which no emission changes. -/
theorem nextGroup_logoReadable {cmd : Mnemonic} {s : State} {r : (List Bool × GType) × State} (hr : LogoReadable s)
    (h : nextGroup cmd s = .ok r) : LogoReadable r.2 := by
  rw [nextGroup_frame h]
  exact hr

theorem emissions_cons {cmd : Mnemonic} {m : Nat} {s s' t : State} {e : List Bool × GType} {es : List (List Bool × GType)}
    (hg : nextGroup cmd s = .ok (e, s')) (hes : emissions cmd m s' = .ok (es, t)) :
    emissions cmd (m + 1) s = .ok (e :: es, t) := by
  rw [emissions, hg]
  simp only [hes]

/-- Emissions that succeed are a first one that does, and the others after it. -/
theorem emissions_succ_ok {cmd : Mnemonic} {m : Nat} {s t : State} {es : List (List Bool × GType)}
    (h : emissions cmd (m + 1) s = .ok (es, t)) :
    ∃ g ty s' es', nextGroup cmd s = .ok ((g, ty), s') ∧ emissions cmd m s' = .ok (es', t) ∧ es = (g, ty) :: es' := by
  rw [emissions] at h
  split at h
  · cases h
  · rename_i e s' hg
    split at h
    · cases h
    · rename_i es' u hes
      cases h
      exact ⟨e.1, e.2, s', es', hg, hes, rfl⟩

theorem emissions_succeed (cmd : Mnemonic) (m : Nat) {s : State} (h : LogoReadable s) :
    ∃ es t, emissions cmd m s = .ok (es, t) := by
  induction m generalizing s with
  | zero => exact ⟨[], s, rfl⟩
  | succ m ih =>
    obtain ⟨g, ty, s', hg⟩ := nextGroup_succeeds cmd h
    obtain ⟨es, t, hes⟩ := ih (nextGroup_logoReadable h hg)
    exact ⟨(g, ty) :: es, t, emissions_cons hg hes⟩

/-! ### The type of an emission -/

/-- The tests of R161 on the PS-cycle counter, as they would be on an unbounded one. -/
def emissionType (logo : Bool) (c : Nat) : GType :=
  if logo = true ∧ c % 5 = 0 then .logo else if c % 3 ≠ 2 then .group0A else .group2A

theorem emissionType_eq_logo_iff (logo : Bool) (c : Nat) : emissionType logo c = .logo ↔ logo = true ∧ c % 5 = 0 := by
  rw [emissionType]
  split
  · simpa
  · rename_i hlogo
    split <;> simpa using hlogo

/-- R162: the wrap of CYC from 59 to 0 is invisible to the tests. -/
theorem emissionType_periodic (logo : Bool) : Function.Periodic (emissionType logo) 60 := fun c => by
  rw [emissionType, emissionType, show (c + 60) % 5 = c % 5 by omega, show (c + 60) % 3 = c % 3 by omega]

/-- R165: without a logo only `CYC mod 3` matters. -/
theorem emissionType_noLogo_periodic : Function.Periodic (emissionType false) 3 := fun c => by
  simp [emissionType]

theorem nextGroup_type {cmd : Mnemonic} {s t : State} {g : List Bool} {ty : GType} (h : nextGroup cmd s = .ok ((g, ty), t)) :
    ty = emissionType (logoPresent s) s.cyc.val := by
  rw [emissionType]
  obtain ⟨hp, h5, rfl, -⟩ | ⟨hl, h3, rfl, -⟩ | ⟨hl, h3, rfl, -⟩ := nextGroup_ok h
  · rw [if_pos ⟨hp, h5⟩]
  · rw [if_neg hl, if_pos h3]
  · rw [if_neg hl, if_neg (not_not.2 h3)]

/-- The types of successive emissions, with the counter taken without its wrap. -/
theorem emissions_types {cmd : Mnemonic} {m c : Nat} {s t : State} {es : List (List Bool × GType)}
    (h : emissions cmd m s = .ok (es, t)) (hc : s.cyc.val = c % 60) :
    es.map Prod.snd = (List.range' c m).map (emissionType (logoPresent s)) := by
  induction m generalizing s c es with
  | zero => cases h; rfl
  | succ m ih =>
    obtain ⟨g, ty, s', es', hg, hes, rfl⟩ := emissions_succ_ok h
    have hcyc : s'.cyc.val = (s.cyc.val + 1) % 60 := nextGroup_cyc hg
    have htype : ty = emissionType (logoPresent s) c := by
      rw [nextGroup_type hg, hc, (emissionType_periodic _).map_mod_nat]
    have hlogo : logoPresent s' = logoPresent s := nextGroup_logoPresent hg
    rw [List.range'_succ, List.map_cons, List.map_cons, ih (c := c + 1) hes (by omega), hlogo, htype]

theorem emissions_length {cmd : Mnemonic} {m : Nat} {s t : State} {es : List (List Bool × GType)}
    (h : emissions cmd m s = .ok (es, t)) : es.length = m := by
  simpa using congrArg List.length (emissions_types h (Nat.mod_eq_of_lt s.cyc.isLt).symm)

/-- The type of the emission after `k` others. -/
theorem emissions_type_at {cmd : Mnemonic} {m k : Nat} {s t : State} {es : List (List Bool × GType)} {e : List Bool × GType}
    (h : emissions cmd m s = .ok (es, t)) (he : es[k]? = some e) : e.2 = emissionType (logoPresent s) (s.cyc.val + k) := by
  have hk : k < m := emissions_length h ▸ (List.getElem?_eq_some_iff.1 he).1
  have htypes := congrArg (·[k]?) (emissions_types h (Nat.mod_eq_of_lt s.cyc.isLt).symm)
  simpa only [List.getElem?_map, he, List.getElem?_range' hk, one_mul, Option.map_some, Option.some.injEq] using htypes

/-- Over a whole period, wherever it starts, a predicate holds as often as below the period. -/
theorem length_filter_range'_of_periodic {p : Nat → Prop} [DecidablePred p] {m : Nat} (hp : Function.Periodic p m) (c : Nat) :
    ((List.range' c m).filter (p ·)).length = m.count p := by
  have hIco : Multiset.Ico c (c + m) = List.range' c m :=
    congrArg (fun n => (List.range' c n : Multiset Nat)) (Nat.add_sub_cancel_left c m)
  rw [← Nat.filter_multiset_Ico_card_eq_of_periodic c m p hp, hIco, Multiset.filter_coe, Multiset.coe_card]

/-- Over a period of the types, the emissions of a type are as many as from CYC = 0. -/
theorem countType_emissions_period {cmd : Mnemonic} {m : Nat} {logo : Bool} {s t : State} {es : List (List Bool × GType)}
    (h : emissions cmd m s = .ok (es, t)) (hlogo : logoPresent s = logo) (hm : Function.Periodic (emissionType logo) m)
    (ty : GType) : countType ty es = m.count (emissionType logo · = ty) := by
  have htypes := emissions_types h (Nat.mod_eq_of_lt s.cyc.isLt).symm
  calc countType ty es = ((es.map Prod.snd).filter (· == ty)).length := by
        rw [List.filter_map, List.length_map]; rfl
    _ = ((List.range' s.cyc.val m).filter (emissionType logo · = ty)).length := by
        rw [htypes, hlogo, List.filter_map, List.length_map]; rfl
    _ = m.count (emissionType logo · = ty) := length_filter_range'_of_periodic (hm.comp (· = ty)) _

/-- Settles O29: the types have period 3 and period 60, so their numbers are those from CYC = 0. -/
theorem cadenceWithoutLogo : Obligations.CadenceWithoutLogo := by
  intro s hp
  obtain ⟨es, t, hes⟩ := emissions_succeed .nextgrp 3 (logoReadable_of_absent hp)
  obtain ⟨es', t', hes'⟩ := emissions_succeed .nextgrp 60 (logoReadable_of_absent hp)
  have h3 := countType_emissions_period hes hp emissionType_noLogo_periodic
  have h60 := countType_emissions_period hes' hp (emissionType_periodic false)
  exact ⟨⟨es, t, hes, by simp only [h3]; decide⟩, es', t', hes', by simp only [h60]; decide⟩

/-- Settles O30: the types of the sixty emissions are those of R161's tests on the counter. -/
theorem logoEveryFifthEmission : Obligations.LogoEveryFifthEmission := by
  intro s hp _ hbits
  obtain ⟨es, t, hes⟩ := emissions_succeed .nextgrp 60 (s := s) fun _ => hbits
  have h60 := countType_emissions_period hes hp (emissionType_periodic true)
  refine ⟨es, t, hes, emissions_length hes, fun k e he => ?_, by simp only [h60]; decide⟩
  rw [emissions_type_at hes he, emissionType_eq_logo_iff, hp]
  exact and_iff_right rfl

/-! ### NEXTGRP -/

/-- NEXTGRP writes the emission it makes (R168). -/
theorem exec_nextgrp_of_nextGroup {s u : State} {g : List Bool} {ty : GType} (h : nextGroup .nextgrp s = .ok ((g, ty), u)) :
    exec .nextgrp s = succeed (writeG g ty u) := by
  rw [exec, execNextgrp, h, withValue_ok]

/-- No logo chunk is due where the logo is off or empty, or CYC is no multiple of 5 (R160, R161). -/
theorem not_logo_due {s : State} (h : s.ctrl.getLsbD 1 = false ∨ s.logoLen = 0 ∨ s.cyc.val % 5 ≠ 0) :
    ¬(logoPresent s = true ∧ s.cyc.val % 5 = 0) := by
  rintro ⟨hp, h5⟩
  obtain ⟨hen, hlen⟩ := (logoPresent_iff s).1 hp
  rw [logoEn] at hen
  obtain h | h | h := h
  · rw [hen] at h; cases h
  · omega
  · exact h h5

theorem nextGroup_group0A (cmd : Mnemonic) {s : State} (hl : ¬(logoPresent s = true ∧ s.cyc.val % 5 = 0))
    (h3 : s.cyc.val % 3 ≠ 2) : nextGroup cmd s = .ok ((group0A s (psSegment s), .group0A), advanceCyc s) := by
  rw [nextGroup, Config.logoPeriod, Config.cadencePeriod, if_neg hl, if_pos h3]

theorem nextGroup_group2A (cmd : Mnemonic) {s : State} (hl : ¬(logoPresent s = true ∧ s.cyc.val % 5 = 0))
    (h3 : s.cyc.val % 3 = 2) : nextGroup cmd s = .ok ((group2A s s.rtIdx, .group2A), advanceCyc (advanceRt s)) := by
  rw [nextGroup, Config.logoPeriod, Config.cadencePeriod, if_neg hl, if_neg (not_not.2 h3)]

/-- Settles O27: a 0A or a 2A group, by CYC mod 3. -/
theorem nextgrpWithoutLogo : Obligations.NextgrpWithoutLogo := by
  intro s hno
  have hl := not_logo_due hno
  by_cases h3 : s.cyc.val % 3 = 2
  · have hg := nextGroup_group2A .nextgrp hl h3
    rw [group2A_eq] at hg
    obtain ⟨t, ht, hframe, ha, hb, hc, hd, hzero⟩ := succeed_writeG_groupBits s.pi
      (BitVec.ofNat 16 (0x2000 + s.rtIdx.val)) (textPair s.rt (4 * s.rtIdx.val)) (textPair s.rt (4 * s.rtIdx.val + 2))
      .group2A (advanceCyc (advanceRt s))
    have hty : t.gtype = .group2A := by rw [hframe]
    have hrt : t.rtIdx = s.rtIdx + 1 := by rw [hframe]; rfl
    refine ⟨t, (exec_nextgrp_of_nextGroup hg).trans ht, ?_, ha, hzero, fun h => absurd h3 h,
      fun _ => ⟨hty, hrt, hb, hc, hd⟩⟩
    rw [hty, hrt]
    exact hframe
  · have hg := nextGroup_group0A .nextgrp hl h3
    rw [group0A_eq] at hg
    obtain ⟨t, ht, hframe, ha, hb, hc, hd, hzero⟩ := succeed_writeG_groupBits s.pi
      (BitVec.ofNat 16 (s.cyc.val % 4)) 0 (textPair s.ps (2 * (s.cyc.val % 4))) .group0A (advanceCyc s)
    have hty : t.gtype = .group0A := by rw [hframe]
    have hrt : t.rtIdx = s.rtIdx := by rw [hframe]; rfl
    refine ⟨t, (exec_nextgrp_of_nextGroup hg).trans ht, ?_, ha, hzero, fun _ => ⟨hty, hrt, hb, hc, hd⟩,
      fun h => absurd h h3⟩
    rw [hty, hrt]
    exact hframe

theorem gbufBit_complete (code : ErrCode) (s : State) (j : Nat) : gbufBit (complete code s) j = gbufBit s j := rfl

/-- R163: with a legal cursor a chunk is never empty. -/
theorem logoChunkLen_pos {s : State} (hlen : 0 < s.logoLen) (hcur : LogoCursorLegal s) : 1 ≤ logoChunkLen s := by
  rw [LogoCursorLegal] at hcur
  rw [logoChunkLen, Config.groupBits]
  omega

/-- Settles O28: the chunk that is due, written to the group buffer. -/
theorem nextgrpLogoChunk : Obligations.NextgrpLogoChunk := by
  intro s k hen hlen h5 hcur hk hbits
  have hp : logoPresent s = true := (logoPresent_iff s).2 ⟨hen, hlen⟩
  obtain rfl : k = logoChunkLen s := hk
  refine ⟨logoChunkLen_pos hlen hcur, ?_⟩
  obtain ⟨g, ty, u, hg⟩ := nextGroup_succeeds_of_chunk .nextgrp (s := s) fun _ => hbits
  obtain ⟨-, -, rfl, hglen, hget, rfl⟩ | ⟨hl, -⟩ | ⟨hl, -⟩ := nextGroup_ok hg
  · refine ⟨_, exec_nextgrp_of_nextGroup hg, ?_, fun j hj => ?_⟩
    · rw [← nextLogoCur, ← hglen]
      rfl
    · rw [gbufBit_complete, gbufBit_writeG g .logo _ hj]
      split
      · rename_i hjk
        rw [hget j hjk]
      · rename_i hjk
        rw [List.getElem?_eq_none (hglen.trans_le (Nat.le_of_not_lt hjk)), Option.getD_none]
  · exact absurd ⟨hp, h5⟩ hl
  · exact absurd ⟨hp, h5⟩ hl

/-! ### `generate` and GENBITS -/

theorem emittedBits_cons (e : List Bool × GType) (es : List (List Bool × GType)) :
    emittedBits (e :: es) = e.1 ++ emittedBits es := rfl

/-- A loop of R167 that ends has appended successive emissions, and before each of them bits were missing. -/
theorem generateLoop_eq_emissions {cmd : Mnemonic} {n fuel : Nat} {out bits : List Bool} {s t : State}
    (h : generateLoop cmd n fuel out s = .ok (bits, t)) :
    ∃ m es, emissions cmd m s = .ok (es, t) ∧ bits = out ++ emittedBits es ∧
      ∀ m', m' < m → (out ++ emittedBits (es.take m')).length < n := by
  induction fuel generalizing out s with
  | zero => cases h; exact ⟨0, [], rfl, (List.append_nil _).symm, fun _ hm => absurd hm (Nat.not_lt_zero _)⟩
  | succ fuel ih =>
    rw [generateLoop] at h
    split at h
    · rename_i hlt
      split at h
      · cases h
      · rename_i g ty s' hg
        obtain ⟨m, es, hes, rfl, hfew⟩ := ih h
        refine ⟨m + 1, (g, ty) :: es, emissions_cons hg hes, ?_, fun m' hm => ?_⟩
        · rw [emittedBits_cons, List.append_assoc]
        · cases m' with
          | zero => simpa [emittedBits] using hlt
          | succ m' =>
            rw [List.take_succ_cons, emittedBits_cons, ← List.append_assoc]
            exact hfew m' (Nat.lt_of_succ_lt_succ hm)
    · cases h; exact ⟨0, [], rfl, (List.append_nil _).symm, fun _ hm => absurd hm (Nat.not_lt_zero _)⟩

/-- Settles O31: the loop from no bits, truncated to `n`. -/
theorem generateTakesTheFewestEmissions : Obligations.GenerateTakesTheFewestEmissions := by
  intro cmd n s t bits h
  refine ⟨generate_length h, ?_⟩
  rw [generate] at h
  split at h
  · cases h
  · rename_i out u hl
    cases h
    obtain ⟨m, es, hes, rfl, hfew⟩ := generateLoop_eq_emissions hl
    exact ⟨m, es, hes, rfl, hfew⟩

theorem generateLoop_succeeds (cmd : Mnemonic) (n fuel : Nat) (out : List Bool) {s : State} (h : LogoReadable s) :
    ∃ r, generateLoop cmd n fuel out s = .ok r := by
  induction fuel generalizing out s with
  | zero => exact ⟨_, rfl⟩
  | succ fuel ih =>
    rw [generateLoop]
    split
    · obtain ⟨g, ty, s', hg⟩ := nextGroup_succeeds cmd h
      rw [hg]
      exact ih (out ++ g) (nextGroup_logoReadable h hg)
    · exact ⟨_, rfl⟩

theorem generate_succeeds (cmd : Mnemonic) (n : Nat) {s : State} (h : LogoReadable s) :
    ∃ bits u, generate cmd n s = .ok (bits, u) := by
  obtain ⟨⟨out, u⟩, hl⟩ := generateLoop_succeeds cmd n (2 * n) [] h
  exact ⟨out.take n, u, by rw [generate, hl]⟩

/-- Settles O32: the generated bits fill BIT_MEM from 0, or the capacity is exceeded. -/
theorem genbitsFillsTheBitSource : Obligations.GenbitsFillsTheBitSource := by
  refine fun imm s => ⟨fun hcap hlogo => ?_, fun hcap => if_pos hcap⟩
  have hread : LogoReadable s := hlogo.elim logoReadable_of_absent fun h _ => h.2
  obtain ⟨bits, u, hgen⟩ := generate_succeeds .genbits imm.toNat hread
  have hlen : bits.length = imm.toNat := generate_length hgen
  have hframe : u = { s with cyc := u.cyc, rtIdx := u.rtIdx, logoCur := u.logoCur } := generate_frame hgen
  have hexec : exec (.genbits imm) s = succeed { u with bitMem := memFill u.bitMem bits, bitLen := imm.toNat } := by
    rw [exec, execGenbits, immNat, if_neg (Nat.not_lt.2 hcap), hgen, withValue_ok]
  refine ⟨bits, u, _, hgen, hlen, hexec, ?_, fun k => ?_⟩
  · rw [hframe]; rfl
  · have hmem : u.bitMem = s.bitMem := by rw [hframe]
    rw [complete_bitMem, memGet_memFill, hlen, hmem]

/-- Settles O33: both commands complete with what they store. -/
theorem seqrstAndNopResults : Obligations.SeqrstAndNopResults := fun _ => ⟨rfl, rfl⟩

end Sys2Proof.Machine
end

section
/-! PROOF. The subcarrier modulator (R190 to R207): the rate and the filter size, what each command stores, element by element, and
MODULATE as the sequence DIFFENC; SHAPE; MIX. -/

namespace Sys2Proof.Machine

open Sys2Proof.Statements

/-! ### Rate and filter size -/

/-- Settles O34: `4 FS` is even and 2375 is odd, so the remainder of R191 is never exactly half of 4750. -/
theorem spsIsTheNearestInteger : Obligations.SpsIsTheNearestInteger := by
  refine fun fs => ⟨rfl, ?_⟩
  have hlow : 4750 * spsOf fs < 4 * fs + 2375 := by rw [spsOf]; omega
  have hhigh : 4 * fs < 4750 * spsOf fs + 2375 := by rw [spsOf]; omega
  have hlow' : 4750 * (spsOf fs : ℚ) < 4 * fs + 2375 := by exact_mod_cast hlow
  have hhigh' : 4 * (fs : ℚ) < 4750 * spsOf fs + 2375 := by exact_mod_cast hhigh
  rw [abs_lt]
  constructor <;> linarith

theorem ntapsOf_eq (sps : Nat) : ntapsOf sps = if sps ≤ 6 then 41 else 6 * sps + 1 := by
  rw [ntapsOf, nextOdd, Config.minTaps, if_neg (by omega)]
  split <;> omega

theorem rateOk_iff (fs : Nat) : rateOk fs = true ↔ 4750 ≤ fs := decide_eq_true_iff

/-- Settles O35: `4 · 1187.5 = 4750`, and a number of taps is 41 or one more than a multiple of 6. -/
theorem rateCheckAndFilterSize : Obligations.RateCheckAndFilterSize := by
  refine ⟨fun fs => ?_, fun sps => ?_⟩
  · rw [rateOk_iff, not_lt, le_div_iff₀ (by norm_num), show (4 : ℚ) * (2375 / 2) = (4750 : ℕ) by norm_num, Nat.cast_le]
  · rw [centreOf, ntapsOf_eq]
    split <;> omega

/-! ### Operands and results in memory -/

/-- A memory that holds a sequence gives it to a command that reads it. -/
theorem readOperand_of_holds {α : Type} (cmd : Mnemonic) (name : MemName) {m : Mem α} {vs : List α} {n : Nat}
    (hlen : vs.length = n) (h : holds m vs) : readOperand cmd name m 0 n = .ok vs := by
  subst hlen
  exact readOperand_eq_ok cmd name m 0 vs fun i hi => by rw [Nat.zero_add, h i hi]

/-- A memory holds the sequence stored in it. -/
theorem holds_memFill {α : Type} (m : Mem α) (vs : List α) : holds (memFill m vs) vs := fun k hk => by
  rw [memGet_memFill, if_pos hk]

/-- What a read returns after a sequence of `n` known elements is stored. -/
theorem memGet_memFill_of_getElem? {α : Type} (m : Mem α) {vs : List α} {n : Nat} {f : Nat → α} (hlen : vs.length = n)
    (hget : ∀ k, k < n → vs[k]? = some (f k)) (k : Nat) :
    memGet (memFill m vs) k = if k < n then some (f k) else memGet m k := by
  rw [memGet_memFill, hlen]
  split
  · rw [hget k ‹_›]
  · rfl

/-! ### DESIGN -/

/-- The sum over the list of the raw taps is R196's ascending sum. -/
theorem tapSum_rawTaps (N : NumType) (sps n m : Nat) :
    tapSum N ((List.range m).map (rawTap N sps (centreOf n))) = rawTapSum N sps n m := by
  induction m with
  | zero => rfl
  | succ m ih =>
    rw [tapSum] at ih ⊢
    rw [List.range_succ, List.map_append, List.foldl_append, ih]
    rfl

/-- Tap `k` of the designed filter. -/
theorem designTaps_getElem? (N : NumType) (fs k : Nat) (hk : k < ntapsOf (spsOf fs)) :
    (designTaps N fs)[k]? = some (N.div (rawTapValue N (spsOf fs) (ntapsOf (spsOf fs)) k)
      (rawTapSum N (spsOf fs) (ntapsOf (spsOf fs)) (ntapsOf (spsOf fs)))) := by
  simp only [designTaps, rawTaps, tapSum_rawTaps, List.getElem?_map, List.getElem?_range hk, Option.map_some]
  rfl

theorem exec_design_of_fits {s : State} (hrate : 4750 ≤ s.fs.toNat) (hcap : ntapsOf (spsOf s.fs.toNat) ≤ s.params.tapCap) :
    exec .design s = .next (complete .ok
      { s with
        tapMem := memFill s.tapMem (designTaps (numType s.params) s.fs.toNat)
        sps := spsOf s.fs.toNat
        ntaps := ntapsOf (spsOf s.fs.toNat)
        tapsValid := true }) := by
  have hok := (rateOk_iff s.fs.toNat).2 hrate
  exact (if_neg (by simp [hok])).trans (if_neg (Nat.not_lt.2 hcap))

theorem exec_design_of_lowRate {s : State} (hrate : s.fs.toNat < 4750) : exec .design s = .next (complete .rate s) :=
  if_pos (decide_eq_false (Nat.not_le.2 hrate))

theorem exec_design_of_tooManyTaps {s : State} (hrate : 4750 ≤ s.fs.toNat)
    (hcap : s.params.tapCap < ntapsOf (spsOf s.fs.toNat)) : exec .design s = .next (complete .cap s) := by
  have hok := (rateOk_iff s.fs.toNat).2 hrate
  exact (if_neg (by simp [hok])).trans (if_pos hcap)

/-- 4096 taps are exceeded from 683 samples per symbol on, and so from 810469 Hz on. -/
theorem lt_ntapsOf_spsOf_iff (fs : Nat) : 4096 < ntapsOf (spsOf fs) ↔ 810469 ≤ fs := by
  rw [ntapsOf_eq, spsOf]
  split <;> omega

/-- Settles O36: the three outcomes of DESIGN, and the rate at which the default capacity is exceeded. -/
theorem designInstallsTheFilter : Obligations.DesignInstallsTheFilter := by
  refine fun s => ⟨fun hrate hcap => ⟨_, exec_design_of_fits hrate hcap, rfl, ?_⟩, exec_design_of_lowRate,
    exec_design_of_tooManyTaps, fun hdefault => ?_⟩
  · exact memGet_memFill_of_getElem? s.tapMem (designTaps_length _ _) (designTaps_getElem? _ _)
  · rw [hdefault]
    exact lt_ntapsOf_spsOf_iff s.fs.toNat

/-! ### DIFFENC -/

/-- The running phase after a bit, as a parity: it has flipped exactly after an odd number of ones. -/
theorem diffencFrom_getElem? (p : SymVal) (bits : List Bool) (k : Nat) (hk : k < bits.length) :
    (diffencFrom p bits)[k]? = some (if (bits.take (k + 1)).count true % 2 = 1 then flipPhase p else p) := by
  induction bits generalizing p k with
  | nil => cases hk
  | cons b bits ih =>
    cases k with
    | zero => cases b <;> simp [diffencFrom]
    | succ k =>
      have hrest := ih (if b then flipPhase p else p) k (Nat.lt_of_succ_lt_succ hk)
      rw [diffencFrom, List.getElem?_cons_succ, hrest, List.take_succ_cons]
      cases b with
      | false => simp
      | true =>
        have hflip : flipPhase (flipPhase p) = p := by cases p <;> rfl
        have hparity (n : Nat) : (n + 1) % 2 = 1 ↔ ¬n % 2 = 1 := by omega
        simp only [if_true, hflip, List.count_cons_self, hparity, ite_not]

theorem exec_diffenc_of_holds {s : State} {bits : List Bool} (hlen : bits.length = s.bitLen) (hbits : holds s.bitMem bits) :
    exec .diffenc s = .next (complete .ok { s with symMem := memFill s.symMem (diffenc bits), symLen := s.bitLen }) := by
  rw [exec, execDiffenc, readOperand_of_holds .diffenc .bit hlen hbits]
  rfl

/-- Settles O38: the phase starts at +1, so it is −1 where the parity of the bits is odd. -/
theorem diffencEncodesParity : Obligations.DiffencEncodesParity := by
  refine fun s bits hlen hbits => ⟨_, exec_diffenc_of_holds hlen hbits, rfl, ?_⟩
  exact memGet_memFill_of_getElem? s.symMem ((diffenc_length bits).trans hlen) fun k hk =>
    diffencFrom_getElem? .plus bits k (hk.trans_eq hlen.symm)

/-! ### SHAPE -/

/-- The impulse train is defined exactly on its length, and is R199's there. -/
theorem impulseAt_eq (N : NumType) (syms : List SymVal) (sps j : Nat) :
    impulseAt N syms sps j = if j < syms.length * sps then some (impulseSample N syms sps j) else none := by
  rw [impulseAt]
  split
  · rename_i hj
    have hsym : j / sps < syms.length := Nat.div_lt_of_lt_mul (hj.trans_eq (Nat.mul_comm _ _))
    rw [List.getElem?_eq_getElem hsym, Option.map_some, impulseSample, List.getElem?_eq_getElem hsym]
    cases syms[j / sps] <;> rfl
  · rfl

/-- One term of R200's sum: over natural indices the model asks that `k ≤ p + c` and that `p + c − k` lies in the buffer, which over
integer indices is `0 ≤ p + c − k < M`. -/
theorem convFrom_cons (N : NumType) {x : Nat → Option NumVal} {y : Nat → NumVal} {len : Nat}
    (hx : ∀ j, x j = if j < len then some (y j) else none) (pc : Nat) (h : NumVal) (taps : List NumVal) (k : Nat)
    (acc : NumVal) :
    convFrom N x pc (h :: taps) k acc = convFrom N x pc taps (k + 1)
      (if 0 ≤ (pc : Int) - k ∧ (pc : Int) - k < len then N.add acc (N.mul h (y ((pc : Int) - k).toNat)) else acc) := by
  rw [convFrom]
  congr 1
  by_cases hk : k ≤ pc
  · rw [if_pos hk, hx, show (pc : Int) - k = (pc - k : Nat) by omega, Int.toNat_natCast]
    by_cases hlen : pc - k < len
    · simp only [if_pos hlen]
      rw [if_pos ⟨by omega, by omega⟩]
    · simp only [if_neg hlen]
      rw [if_neg (by omega)]
  · rw [if_neg hk, if_neg (by omega)]

/-- The sum from tap `k` on, as a fold over the taps with their indices. -/
theorem convFrom_eq_foldl (N : NumType) {x : Nat → Option NumVal} {y : Nat → NumVal} {len : Nat}
    (hx : ∀ j, x j = if j < len then some (y j) else none) (pc : Nat) (taps : List NumVal) (k : Nat) (acc : NumVal) :
    convFrom N x pc taps k acc = (taps.zipIdx k).foldl (init := acc) fun acc e =>
      if 0 ≤ (pc : Int) - e.2 ∧ (pc : Int) - e.2 < len then N.add acc (N.mul e.1 (y ((pc : Int) - e.2).toNat)) else acc := by
  induction taps generalizing k acc with
  | nil => rfl
  | cons h taps ih =>
    rw [convFrom_cons N hx, ih, List.zipIdx_cons, List.foldl_cons]

/-- Sample `p` of the baseband is R200's sum over R199's impulse train. -/
theorem basebandAt_eq_convolutionSum (N : NumType) (syms : List SymVal) (sps : Nat) (taps : List NumVal) (p : Nat) :
    basebandAt N syms sps taps p = convolutionSum N (impulseSample N syms sps) (syms.length * sps) taps p := by
  rw [basebandAt, convAt, convFrom_eq_foldl N (impulseAt_eq N syms sps), Nat.cast_add]
  rfl

theorem exec_shape_of_holds {s : State} {syms : List SymVal} {taps : List NumVal} (hvalid : s.tapsValid = true)
    (hcap : s.symLen * s.sps ≤ s.params.sampleCap) (hsymLen : syms.length = s.symLen) (hsyms : holds s.symMem syms)
    (htapLen : taps.length = s.ntaps) (htaps : holds s.tapMem taps) :
    exec .shape s = .next (complete .ok
      { s with bbMem := memFill s.bbMem (baseband (numType s.params) syms s.sps taps), bbLen := s.symLen * s.sps }) := by
  rw [exec, execShape, if_neg (by simp [hvalid]), if_neg (Nat.not_lt.2 hcap), readOperand_of_holds .shape .sym hsymLen hsyms,
    withValue_ok, readOperand_of_holds .shape .tap htapLen htaps]
  rfl

/-- Settles O39: the baseband that SHAPE stores is the convolution, sample by sample. -/
theorem shapeConvolvesTheImpulseTrain : Obligations.ShapeConvolvesTheImpulseTrain := by
  intro s syms taps hvalid hcap hsymLen hsyms htapLen htaps
  refine ⟨_, exec_shape_of_holds hvalid hcap hsymLen hsyms htapLen htaps, rfl, ?_⟩
  refine memGet_memFill_of_getElem? s.bbMem (by rw [baseband_length, hsymLen]) fun p hp => ?_
  rw [← hsymLen] at hp ⊢
  rw [baseband_getElem? _ _ _ _ p hp, basebandAt_eq_convolutionSum]

/-! ### MIX -/

theorem exec_mix_of_holds {s : State} {bb : List NumVal} (car : Carrier) (hvalid : s.tapsValid = true)
    (hlen : bb.length = s.bbLen) (hbb : holds s.bbMem bb) :
    exec (.mix car) s = .next (complete .ok
      { s with
        subMem := memFill s.subMem (mixAll (numType s.params) s.fs.toNat (carrierHz car) bb)
        subLen := s.bbLen }) := by
  rw [exec, execMix, if_neg (by simp [hvalid]), readOperand_of_holds .mix .bb hlen hbb]
  rfl

/-- Settles O40: MIX stores the mixed samples, and the four carriers are those of R116. -/
theorem mixMultipliesByTheCarrier : Obligations.MixMultipliesByTheCarrier := by
  refine fun s bb car hvalid hlen hbb => ⟨_, exec_mix_of_holds car hvalid hlen hbb, rfl, fun p => ?_⟩
  rw [complete_subMem, memGet_memFill, mixAll_length, hlen, mixAll_getElem?]
  cases car <;> rfl

/-! ### MODULATE -/

theorem exec_modulate_of_holds {s : State} {bits : List Bool} {taps : List NumVal} (car : Carrier)
    (hvalid : s.tapsValid = true) (hcap : s.bitLen * s.sps ≤ s.params.sampleCap) (hbitLen : bits.length = s.bitLen)
    (hbits : holds s.bitMem bits) (htapLen : taps.length = s.ntaps) (htaps : holds s.tapMem taps) :
    exec (.modulate car) s = .next (complete .ok
      { s with
        symMem := memFill s.symMem (diffenc bits)
        symLen := s.bitLen
        bbMem := memFill s.bbMem (baseband (numType s.params) (diffenc bits) s.sps taps)
        bbLen := s.bitLen * s.sps
        subMem := memFill s.subMem (mixAll (numType s.params) s.fs.toNat (carrierHz car)
          (baseband (numType s.params) (diffenc bits) s.sps taps))
        subLen := s.bitLen * s.sps }) := by
  rw [exec, execModulate, if_neg (by simp [hvalid]), if_neg (Nat.not_lt.2 hcap),
    readOperand_of_holds .modulate .bit hbitLen hbits, withValue_ok, readOperand_of_holds .modulate .tap htapLen htaps]
  rfl

/-- Settles O41: SHAPE reads the symbols that DIFFENC has stored, MIX the baseband that SHAPE has stored. -/
theorem modulateIsDiffencShapeMix : Obligations.ModulateIsDiffencShapeMix := by
  intro s bits taps car hvalid hcap hbitLen hbits htapLen htaps
  have hsymLen : (diffenc bits).length = s.bitLen := (diffenc_length bits).trans hbitLen
  refine ⟨_, _, _, exec_diffenc_of_holds hbitLen hbits,
    exec_shape_of_holds (taps := taps) hvalid hcap hsymLen (holds_memFill _ _) htapLen htaps,
    exec_mix_of_holds car hvalid ?_ (holds_memFill _ _),
    exec_modulate_of_holds car hvalid hcap hbitLen hbits htapLen htaps, rfl, rfl, rfl, rfl⟩
  exact (baseband_length _ _ _ _).trans (congrArg (· * s.sps) hsymLen)

end Sys2Proof.Machine
end

section
/-! PROOF. The limit branch of R194 in binary64 (R195): the whole numbers up to `2 ^ 53` are representable, so one symbol from the centre
every operation of the denominator is exact, and the denominator is 0. -/

namespace Sys2Proof.Machine

/-! ### Exact operations -/

section
variable {N : NumType} {value : NumVal → Option ℝ} {round : ℝ → NumVal} {x y z : NumVal} {a b : ℝ}

/-- In any Num, an operation whose exact result is the number of some value gives that number. -/
theorem value_mul_exact (M : N.Models value round) (hx : value x = some a) (hy : value y = some b) (hz : value z = some (a * b)) :
    value (N.mul x y) = some (a * b) := (M.mul x y a b hx hy).trans (M.round_exact z _ hz)

theorem value_sub_exact (M : N.Models value round) (hx : value x = some a) (hy : value y = some b) (hz : value z = some (a - b)) :
    value (N.sub x y) = some (a - b) := (M.sub x y a b hx hy).trans (M.round_exact z _ hz)

theorem value_div_exact (M : N.Models value round) (hx : value x = some a) (hy : value y = some b) (hb : b ≠ 0)
    (hz : value z = some (a / b)) : value (N.div x y) = some (a / b) := (M.div x y a b hx hy hb).trans (M.round_exact z _ hz)

theorem value_abs_exact (M : N.Models value round) (hx : value x = some a) (hz : value z = some |a|) :
    value (N.abs x) = some |a| := (M.abs x a hx).trans (M.round_exact z _ hz)

end

/-! ### The literals -/

theorem value64_of_numInt {x : Num64} (hf : numFinite x = true) : value64 x = some ((numInt x : ℝ) / unitReal) := if_pos hf

/-- R13's `num(k)` is exact in binary64 for `|k| < 2 ^ 53`. -/
theorem value64_num {k : Int} (hk : k.natAbs < 2 ^ 53) : value64 (num k) = some (k : ℝ) := by
  obtain ⟨mag, hunits, hlt⟩ := exists_unitsOf_eq binary64 (unitExp binary64) k.natAbs hk
  have hmag : mag < infPattern binary64 := hlt.trans_le (by rw [unitExp64_eq, infPattern64_eq]; decide)
  have hnum : num k = numOf (decide (k < 0)) mag := by
    rw [num, numOfRatio, unitScale_eq, ← hunits, roundUnits_unitsOf mag hmag]
  have hsign : signFactor (decide (k < 0)) * (k.natAbs : ℝ) = k := by
    rw [Nat.cast_natAbs, signFactor]
    by_cases h : k < 0
    · simp [h, abs_of_neg h]
    · simp [h, abs_of_nonneg (Int.not_lt.1 h)]
  rw [hnum, value64_numOf _ _ hmag, hunits, ← unitScale_eq, Nat.cast_mul, unitScale_cast, ← mul_assoc, hsign,
    mul_div_cancel_right₀ _ unitReal_pos.ne']

theorem value64_numHalf : value64 numHalf = some (1 / 2) := by
  have hint : (2 : ℝ) * numInt numHalf = unitReal := by
    rw [← unitScale_cast]
    exact_mod_cast (by decide +kernel : 2 * numInt numHalf = (unitScale : Int))
  have hne : (numInt numHalf : ℝ) ≠ 0 := fun h => unitReal_pos.ne' (by rw [← hint, h, mul_zero])
  rw [value64_of_numInt (by decide +kernel), ← hint, div_mul_cancel_right₀ hne, one_div]

theorem exists_value64_numEps : ∃ e, value64 numEps = some e ∧ 0 < e := by
  have hpos : (0 : ℝ) < numInt numEps := by exact_mod_cast (by decide +kernel : 0 < numInt numEps)
  exact ⟨_, value64_of_numInt (by decide +kernel), div_pos hpos unitReal_pos⟩

/-! ### One symbol from the centre -/

/-- The number that a value of the default Num is. -/
noncomputable def numberOf (x : NumVal) : Option ℝ := value64 (toNum64 x)

theorem binary64Num_models_numberOf : binary64Num.Models numberOf (fun q => ofNum64 (round64 q)) := binary64Num_models

theorem numberOf_ofInt {k : Int} (hk : k.natAbs < 2 ^ 53) : numberOf (binary64Num.ofInt k) = some (k : ℝ) := by
  rw [numberOf, binary64Num_ofInt, toNum64_ofNum64, value64_num hk]

theorem numberOf_half : numberOf binary64Num.half = some (1 / 2) := by
  rw [numberOf, binary64Num_half, toNum64_ofNum64, value64_numHalf]

/-- At `t = ±1` the denominator of R194 is exactly 0. -/
theorem limit_denominator {t : NumVal} {e : Int} (he : e = 1 ∨ e = -1) (ht : numberOf t = some (e : ℝ)) :
    let u := binary64Num.mul (binary64Num.mul (binary64Num.ofInt 2) binary64Num.half) t
    numberOf (binary64Num.sub (binary64Num.ofInt 1) (binary64Num.mul u u)) = some 0 := by
  have M := binary64Num_models_numberOf
  have hone : numberOf (binary64Num.ofInt 1) = some 1 := by simpa using numberOf_ofInt (k := 1) (by decide)
  have htwo : numberOf (binary64Num.ofInt 2) = some 2 := by simpa using numberOf_ofInt (k := 2) (by decide)
  have hzero : numberOf (binary64Num.ofInt 0) = some 0 := by simpa using numberOf_ofInt (k := 0) (by decide)
  have hsq : (e : ℝ) * e = 1 := by obtain rfl | rfl := he <;> norm_num
  have hbeta : numberOf (binary64Num.mul (binary64Num.ofInt 2) binary64Num.half) = some 1 := by
    have h := value_mul_exact M (z := binary64Num.ofInt 1) htwo numberOf_half (by rw [hone]; norm_num)
    rw [h]; norm_num
  have hu := value_mul_exact M (z := t) hbeta ht (by rw [ht, one_mul])
  rw [one_mul] at hu
  have huu := value_mul_exact M (z := binary64Num.ofInt 1) hu hu (by rw [hone, hsq])
  rw [hsq] at huu
  have hd := value_sub_exact M (z := binary64Num.ofInt 0) hone huu (by rw [hzero, sub_self])
  rwa [sub_self] at hd

/-- At `t = ±1` the test of R194 for the limit branch succeeds. -/
theorem limit_test {t : NumVal} {e : Int} (he : e = 1 ∨ e = -1) (ht : numberOf t = some (e : ℝ)) :
    let u := binary64Num.mul (binary64Num.mul (binary64Num.ofInt 2) binary64Num.half) t
    binary64Num.lt (binary64Num.abs (binary64Num.sub (binary64Num.ofInt 1) (binary64Num.mul u u))) binary64Num.eps = true := by
  have M := binary64Num_models_numberOf
  have hd := limit_denominator he ht
  have habs := value_abs_exact M hd (hd.trans (by rw [abs_zero]))
  obtain ⟨eps, heps, hpos⟩ := exists_value64_numEps
  exact (M.lt _ _ _ _ habs (by rw [numberOf, binary64Num_eps, toNum64_ofNum64, heps])).2 (by rwa [abs_zero])

/-- One symbol from the centre `t` is ±1, exactly. -/
theorem numberOf_symbolTime {sps : Nat} {e : Int} (hpos : 0 < sps) (hsps : sps < 2 ^ 31) (he : e = 1 ∨ e = -1) :
    numberOf (binary64Num.div (binary64Num.ofInt (e * sps)) (binary64Num.ofInt sps)) = some (e : ℝ) := by
  have hsmall : (e * sps).natAbs < 2 ^ 53 ∧ e.natAbs < 2 ^ 53 := by obtain rfl | rfl := he <;> omega
  have hne : (sps : ℝ) ≠ 0 := Nat.cast_ne_zero.2 hpos.ne'
  have hquot : ((e * sps : Int) : ℝ) / ((sps : Int) : ℝ) = e := by
    rw [Int.cast_mul, Int.cast_natCast, mul_div_cancel_right₀ _ hne]
  have h := value_div_exact binary64Num_models_numberOf (z := binary64Num.ofInt e) (numberOf_ofInt hsmall.1)
    (numberOf_ofInt (k := sps) (by omega)) (by rwa [Int.cast_natCast]) (by rw [hquot, numberOf_ofInt hsmall.2])
  rwa [hquot] at h

/-- R195's limit value: `1 / (2 · BETA)` is 1, which is not 0, so its sinc is the quotient. -/
theorem limit_value :
    binary64Num.mul (binary64Num.div binary64Num.pi (binary64Num.ofInt 4))
      (sinc binary64Num (binary64Num.div (binary64Num.ofInt 1) (binary64Num.mul (binary64Num.ofInt 2) binary64Num.half))) =
      ofNum64 (numMul (numDiv numPi (num 4)) (numDiv (sinN (numMul numPi (num 1))) (numMul numPi (num 1)))) := by
  have harg : numDiv (num 1) (numMul (num 2) numHalf) = num 1 := by decide +kernel
  have hne : numEq (num 1) (num 0) = false := by decide +kernel
  simp only [sinc, binary64Num_mul, binary64Num_div, binary64Num_pi, binary64Num_ofInt, binary64Num_half, binary64Num_eq,
    binary64Num_sin, toNum64_ofNum64, harg, hne, Bool.false_eq_true, if_false]

/-- Settles O37: `i − c` is `±sps`, so `t` is ±1 and the limit branch is taken. -/
theorem limitBranchAtOneSymbol : Obligations.LimitBranchAtOneSymbol := by
  intro sps c i hpos hsps hi
  obtain ⟨e, he, hdist⟩ : ∃ e : Int, (e = 1 ∨ e = -1) ∧ (i : Int) - c = e * sps := by
    obtain hi | hi := hi
    · exact ⟨1, .inl rfl, by omega⟩
    · exact ⟨-1, .inr rfl, by omega⟩
  have htest := limit_test he (numberOf_symbolTime hpos hsps he)
  rw [rawTap, hdist]
  simp only [htest, if_true]
  exact limit_value

end Sys2Proof.Machine
end

section
/-! PROOF. The MPX composer (R230 to R241): the sums that COMPOSE forms are those of R237, what it stores of them is clamped, and under
the default Num the stereo sums of finite words are finite (R240). -/

namespace Sys2Proof.Machine

open Sys2Proof.Statements

/-! ### Difference channel -/

theorem numNeg_numNegate (x : Num64) : numNeg (numNegate x) = !numNeg x := numNeg_numOf _ _ (numMag_lt x)

/-- A finite value minus itself is +0: the exact sum is zero, and its operands have opposite signs. -/
theorem numSub_self {x : Num64} (h : numFinite x = true) : numSub x x = num 0 := by
  obtain ⟨hnan, hinf⟩ := (numFinite_iff x).1 h
  obtain ⟨hnan', hinf'⟩ := (numFinite_iff (numNegate x)).1 ((numNegate_finite x).trans h)
  have hsum : numInt x + numInt (numNegate x) = 0 := by rw [numInt_numNegate, add_neg_cancel]
  have hsign : (numNeg x && numNeg (numNegate x)) = false := by rw [numNeg_numNegate, Bool.and_not_self]
  simp only [numSub, numAdd, hnan, hinf, hnan', hinf', hsum, hsign, Bool.or_self, Bool.false_eq_true, if_false, if_true,
    num_zero_eq]

/-- Settles O45: a decoded word is finite, so its difference with itself is +0, whose product with a finite cosine is a zero. -/
theorem equalSamplesGiveZeroDifference : Obligations.EqualSamplesGiveZeroDifference := by
  intro p w v x hp hv
  have hfin := dec32_finite hv
  rw [numType_binary64 hp] at hfin ⊢
  have hside : binary64Num.sub v v = ofNum64 (num 0) := congrArg ofNum64 (numSub_self hfin)
  obtain ⟨neg, hdsb⟩ := numMul_zero (num 0) (cosN (toNum64 x)) (num_zero_eq ▸ numOf_zero_finite false) (cosN_bound _).1
    (.inl (num_zero_eq ▸ numOf_zero_units false))
  refine ⟨hside, neg, ?_⟩
  rw [hside, binary64Num_mul, binary64Num_cos, toNum64_ofNum64, toNum64_ofNum64, hdsb]

/-! ### The sums -/

theorem decoded_length {p : Params} {ws : List Word} {vs : List NumVal} {n : Nat} (hlen : ws.length = n)
    (hdec : ws.map (dec32 p) = vs.map some) : vs.length = n := by
  simpa [hlen] using (congrArg List.length hdec).symm

/-- The sums that COMPOSE forms from its inputs (R237). -/
def outputSums (s : State) (l r : List NumVal) (lv : Levels) (bits : List Bool) (taps : List NumVal) : List NumVal :=
  composeSums (numType s.params) s.fs.toNat s.sps lv (diffenc bits) taps (l.zip r)

theorem outputSums_length {s : State} {l r : List NumVal} {lv : Levels} {bits : List Bool} {taps : List NumVal} {n : Nat}
    (hl : l.length = n) (hr : r.length = n) : (outputSums s l r lv bits taps).length = n := by
  rw [outputSums, composeSums_length, List.length_zip, hl, hr, Nat.min_self]

/-- The sum of a sample, written out: the stereo terms, then the RDS term, then the three RDS2 terms in order (R237). -/
theorem composeSum_eq_mpxSum (s : State) (lv : Levels) (bb : Option NumVal) (i : Nat) (l r : NumVal) :
    composeSum (numType s.params) s.fs.toNat lv bb i l r = mpxSum s lv.pilot lv.rds lv.rds2 bb i l r := by
  obtain ⟨pilot, rds, rds2⟩ := lv
  cases bb with
  | none => rfl
  | some v => cases rds2 <;> rfl

/-- The sum of sample `i`, its baseband sample being R200's convolution for `i < M` (R234). -/
theorem outputSums_getElem? {s : State} {l r : List NumVal} (lv : Levels) (bits : List Bool) (taps : List NumVal) {i : Nat}
    {a b : NumVal} (ha : l[i]? = some a) (hb : r[i]? = some b) :
    (outputSums s l r lv bits taps)[i]? = some (mpxSum s lv.pilot lv.rds lv.rds2
      (if i < bits.length * s.sps then
        some (convolutionSum (numType s.params) (impulseSample (numType s.params) (diffenc bits) s.sps)
          (bits.length * s.sps) taps i) else none) i a b) := by
  have hzip : (l.zip r)[i]? = some (a, b) := List.getElem?_zip_eq_some.2 ⟨ha, hb⟩
  rw [outputSums, composeSums_getElem?, hzip, Option.map_some, composeSum_eq_mpxSum, composeBaseband,
    basebandAt_eq_convolutionSum, diffenc_length]

/-! ### Clamped output -/

/-- Settles O43: the elements of OUT_MEM below NSAMP are what clampOut makes of the sums, and COMPOSE has found every sum finite. -/
theorem composeOutputIsBounded : Obligations.ComposeOutputIsBounded := by
  intro s t ht hok i hi
  obtain ⟨_, rfl⟩ | ⟨_, _, _, _, _, _, rfl⟩ | ⟨_, ls, rs, l, r, lv, bits, taps, hls, hrs, hl, hr, _, _, _, hfin, rfl⟩ :=
    execCompose_next ht
  · cases hok
  · cases hok
  · have hlen : (outputSums s l r lv bits taps).length = s.nsamp :=
      outputSums_length (decoded_length (readOperand_ok hls).1 (allSome_some hl))
        (decoded_length (readOperand_ok hrs).1 (allSome_some hr))
    rw [← hlen] at hi
    have hx := hfin _ (List.getElem_mem hi)
    refine ⟨_, hx, ?_, fun hp => ?_⟩
    · rw [complete_outMem, ← outputSums, memGet_memFill, List.length_map, if_pos hi, List.getElem?_map,
        List.getElem?_eq_getElem hi]
      rfl
    · rw [numType_binary64 hp] at hx
      exact withinClamp_clampOut hx

/-! ### Completion with the sums -/

/-- What COMPOSE reads where no check fails: the decoded samples and levels, the bits and the taps. -/
structure ComposeInputs (s : State) (l r : List NumVal) (lv : Levels) (bits : List Bool) (taps : List NumVal) : Prop where
  valid : s.tapsValid = true
  left : ∃ ws, readOperand .compose .l s.lMem 0 s.nsamp = .ok ws ∧ allSome (ws.map (dec32 s.params)) = some l
  right : ∃ ws, readOperand .compose .r s.rMem 0 s.nsamp = .ok ws ∧ allSome (ws.map (dec32 s.params)) = some r
  levels : levelsOf s = some lv
  bits : readOperand .compose .bit s.bitMem 0 s.bitLen = .ok bits
  taps : readOperand .compose .tap s.tapMem 0 s.ntaps = .ok taps

theorem samples_decode {p : Params} {m : Mem Word} {n : Nat} {ws : List Word} {vs : List NumVal} (cmd : Mnemonic)
    (name : MemName) (hlen : ws.length = n) (h : holds m ws) (hdec : ws.map (dec32 p) = vs.map some) :
    ∃ ws, readOperand cmd name m 0 n = .ok ws ∧ allSome (ws.map (dec32 p)) = some vs :=
  ⟨ws, readOperand_of_holds cmd name hlen h, by rw [hdec, allSome_map_some]⟩

theorem exec_compose_of_inputs {s : State} {l r : List NumVal} {lv : Levels} {bits : List Bool} {taps : List NumVal}
    (h : ComposeInputs s l r lv bits taps)
    (hfin : ∀ v ∈ outputSums s l r lv bits taps, (numType s.params).isFinite v = true) :
    exec .compose s = .next (complete .ok
      { s with outMem := memFill s.outMem ((outputSums s l r lv bits taps).map (clampOut (numType s.params))) }) := by
  obtain ⟨ls, hls, hl⟩ := h.left
  obtain ⟨rs, hrs, hr⟩ := h.right
  have hnone := (firstNonFinite_none _ _).2 hfin
  rw [outputSums] at hnone
  rw [exec, execCompose, if_neg (by simp [h.valid]), hls, withValue_ok, hrs, withValue_ok, hl, hr, h.levels]
  simp only [h.bits, h.taps, withValue_ok, hnone]
  rfl

/-- Settles O42: the inputs pass every check, the finite sums among them, so COMPOSE stores the clamped sums. -/
theorem composeWritesTheClampedSum : Obligations.ComposeWritesTheClampedSum := by
  intro s l r dl dr bits taps pilot rds rds2 sum hvalid hllen hl hrlen hr hdl hdr hlevels hbitLen hbits htapLen htaps hsum hfin
  have hin : ComposeInputs s dl dr ⟨pilot, rds, rds2⟩ bits taps :=
    { valid := hvalid
      left := samples_decode .compose .l hllen hl hdl
      right := samples_decode .compose .r hrlen hr hdr
      levels := levelsOf_of_levelsDecode hlevels
      bits := readOperand_of_holds .compose .bit hbitLen hbits
      taps := readOperand_of_holds .compose .tap htapLen htaps }
  have hdllen := decoded_length hllen hdl
  have hdrlen := decoded_length hrlen hdr
  have hlen : (outputSums s dl dr ⟨pilot, rds, rds2⟩ bits taps).length = s.nsamp := outputSums_length hdllen hdrlen
  have hget (i : Nat) (hi : i < s.nsamp) : (outputSums s dl dr ⟨pilot, rds, rds2⟩ bits taps)[i]? = some (sum i) := by
    have ha := List.getElem?_eq_getElem (hi.trans_eq hdllen.symm)
    have hb := List.getElem?_eq_getElem (hi.trans_eq hdrlen.symm)
    rw [outputSums_getElem? _ bits taps ha hb, hsum i _ _ ha hb, hbitLen]
  have hfinite : ∀ v ∈ outputSums s dl dr ⟨pilot, rds, rds2⟩ bits taps, (numType s.params).isFinite v = true := by
    intro v hv
    obtain ⟨i, hi, rfl⟩ := List.getElem_of_mem hv
    have hi' := hi.trans_eq hlen
    rw [Option.some.inj ((List.getElem?_eq_getElem hi).symm.trans (hget i hi'))]
    exact hfin i hi'
  refine ⟨_, exec_compose_of_inputs hin hfinite, rfl, ?_⟩
  refine memGet_memFill_of_getElem? s.outMem (by rw [List.length_map, hlen]) fun i hi => ?_
  rw [List.getElem?_map, hget i hi]
  rfl

/-! ### Stereo sums of finite words -/

/-- A finite value of fewer than `2 ^ n` units of 2^−1074. -/
def Below (n : Nat) (x : Num64) : Prop := numFinite x = true ∧ numUnits x < 2 ^ n

theorem Below.of_le {n k : Nat} {x : Num64} (hnk : n < k) (h : numFinite x = true ∧ numUnits x ≤ 2 ^ n) : Below k x :=
  ⟨h.1, h.2.trans_lt (Nat.pow_lt_pow_right (by decide) hnk)⟩

theorem Below.mono {n k : Nat} {x : Num64} (hnk : n ≤ k) (h : Below n x) : Below k x :=
  ⟨h.1, h.2.trans_le (Nat.pow_le_pow_right (by decide) hnk)⟩

section
variable {n : Nat} {x y : Num64} (hlow : 53 ≤ n) (hhigh : n ≤ 1900) (hx : Below n x)
include hlow hhigh hx

theorem Below.add (hy : Below n y) : Below (n + 2) (numAdd x y) :=
  .of_le (by omega) (numAdd_bound x y n (by omega) hhigh hx.1 hy.1 hx.2 hy.2)

theorem Below.sub (hy : Below n y) : Below (n + 2) (numSub x y) :=
  .of_le (by omega) (numSub_bound x y n (by omega) hhigh hx.1 hy.1 hx.2 hy.2)

/-- A factor of magnitude at most 1 on the right. -/
theorem Below.mul (hy : numFinite y = true ∧ numUnits y ≤ unitScale) : Below (n + 1) (numMul x y) :=
  .of_le (by omega) (numMul_bound x y n hlow (by omega) hx.1 hy.1 hx.2 hy.2)

end

theorem numMul_comm (x y : Num64) : numMul x y = numMul y x := by
  simp only [numMul, Nat.mul_comm, Bool.or_comm, bne_comm]

theorem numHalf_bound : numFinite numHalf = true ∧ numUnits numHalf ≤ unitScale := by decide +kernel

/-- Decoding turns a binary32 unit into `2 ^ unitGap` binary64 ones. For every `n` beyond 277, so that no tactic computes the power. -/
theorem decBinary32_below {w : Word} {v : Num64} {n : Nat} (hn : 277 < n) (h : decBinary32 w = some v) :
    Below (n + unitGap) v := by
  refine ⟨decBinary32_finite h, ?_⟩
  have hmag := wordMag_lt_of_decBinary32 h
  obtain ⟨wide, hwide, hunits, hv⟩ := decBinary32_some hmag
  obtain rfl : v = numOf (wordNeg w) wide := Option.some.inj (h.symm.trans hv)
  rw [infPattern64_eq] at hwide
  rw [numUnits_numOf _ _ (by omega), hunits, Nat.pow_add]
  exact Nat.mul_lt_mul_of_pos_right (unitsOf_binary32_lt _ n hmag hn) (Nat.two_pow_pos _)

/-- A value decoded from a word is below 2^129, that is below 2^1203 units (R240(b)). -/
theorem dec32_below {p : Params} {w : Word} {v : NumVal} (hp : defaultDatapath p) (h : dec32 p w = some v) :
    Below 1203 (toNum64 v) := by
  rw [dec32_default hp.1 hp.2] at h
  obtain ⟨x, hx, rfl⟩ := Option.map_eq_some_iff.1 h
  rw [toNum64_ofNum64]
  exact (decBinary32_below (n := 278) (by decide) hx).mono (Nat.le_of_eq (by rw [unitGap_eq]))

/-- Each value of a decoded list is that of some word. -/
theorem decoded_below {p : Params} (hp : defaultDatapath p) {ws : List Word} {vs : List NumVal} {i : Nat} {v : NumVal}
    (hdec : ws.map (dec32 p) = vs.map some) (hv : vs[i]? = some v) : Below 1203 (toNum64 v) := by
  have hmem : some v ∈ ws.map (dec32 p) := hdec ▸ List.mem_map_of_mem (List.mem_of_getElem? hv)
  obtain ⟨w, _, hw⟩ := List.mem_map.1 hmem
  exact dec32_below hp hw

/-- R240(b): no operation of the stereo sum overflows, whatever the phases. -/
theorem stereo_finite {l r pilot : Num64} (hl : Below 1203 l) (hr : Below 1203 r) (hpilot : Below 1203 pilot)
    (x y : Num64) :
    numFinite (numAdd (numAdd (numMul numHalf (numAdd l r)) (numMul pilot (sinN x))) (numMul (numSub l r) (cosN y))) =
      true := by
  have hmid : Below 1206 (numMul numHalf (numAdd l r)) :=
    numMul_comm .. ▸ (hl.add (by decide) (by decide) hr).mul (by decide) (by decide) numHalf_bound
  have htone : Below 1204 (numMul pilot (sinN x)) := hpilot.mul (by decide) (by decide) (sinN_bound x)
  have hdsb : Below 1206 (numMul (numSub l r) (cosN y)) :=
    (hl.sub (by decide) (by decide) hr).mul (by decide) (by decide) (cosN_bound y)
  have hmono := hmid.add (by decide) (by decide) (htone.mono (by decide))
  exact (hmono.add (by decide) (by decide) (hdsb.mono (by decide))).1

theorem mpxSum_stereo_finite {s : State} (hp : s.params.num = .binary64) {pilot l r : NumVal}
    (hpilot : Below 1203 (toNum64 pilot)) (hl : Below 1203 (toNum64 l)) (hr : Below 1203 (toNum64 r)) (rds : NumVal)
    (rds2 : Option NumVal) (i : Nat) : (numType s.params).isFinite (mpxSum s pilot rds rds2 none i l r) = true := by
  simp only [mpxSum, carrier, numType_binary64 hp, binary64Num_isFinite, binary64Num_add, binary64Num_sub, binary64Num_mul,
    binary64Num_half, binary64Num_sin, binary64Num_cos, toNum64_ofNum64]
  exact stereo_finite hl hr hpilot _ _

/-- The stereo sum of sample `i` of two lists, 0 standing in for a sample beyond their ends. -/
def stereoSumAt (s : State) (pilot rds : NumVal) (rds2 : Option NumVal) (l r : List NumVal) (i : Nat) : NumVal :=
  mpxSum s pilot rds rds2 none i (l.getD i (ofNum64 (num 0))) (r.getD i (ofNum64 (num 0)))

theorem stereoSumAt_eq {s : State} {pilot rds : NumVal} {rds2 : Option NumVal} {l r : List NumVal} {i : Nat} {a b : NumVal}
    (ha : l[i]? = some a) (hb : r[i]? = some b) : stereoSumAt s pilot rds rds2 l r i = mpxSum s pilot rds rds2 none i a b := by
  rw [stereoSumAt, List.getD_eq_getElem?_getD, ha, List.getD_eq_getElem?_getD, hb, Option.getD_some, Option.getD_some]

/-- Settles O46: O42 with no bits, where M is 0 and the sums are stereo sums, all finite. -/
theorem composeWithoutBitsCompletes : Obligations.ComposeWithoutBitsCompletes := by
  intro s l r dl dr taps pilot rds rds2 hp hvalid hbitLen hllen hl hrlen hr hdl hdr hlevels htapLen htaps
  have hdllen := decoded_length hllen hdl
  have hdrlen := decoded_length hrlen hdr
  have hfin {i : Nat} {a b : NumVal} (ha : dl[i]? = some a) (hb : dr[i]? = some b) :
      (numType s.params).isFinite (mpxSum s pilot rds rds2 none i a b) = true :=
    mpxSum_stereo_finite hp.1 (dec32_below hp hlevels.1) (decoded_below hp hdl ha) (decoded_below hp hdr hb) rds rds2 i
  obtain ⟨t, hexec, hframe, hout⟩ := composeWritesTheClampedSum s l r dl dr [] taps pilot rds rds2
    (stereoSumAt s pilot rds rds2 dl dr) hvalid hllen hl hrlen hr hdl hdr hlevels hbitLen.symm nofun htapLen htaps
    (fun i a b ha hb => by rw [stereoSumAt_eq ha hb, hbitLen, Nat.zero_mul, if_neg (Nat.not_lt_zero i)])
    (fun i hi => by
      have ha := List.getElem?_eq_getElem (hi.trans_eq hdllen.symm)
      have hb := List.getElem?_eq_getElem (hi.trans_eq hdrlen.symm)
      rw [stereoSumAt_eq ha hb]
      exact hfin ha hb)
  refine ⟨t, hexec, hframe, fun i a b ha hb => ⟨hfin ha hb, ?_⟩, fun i hi => ?_⟩
  · have hi : i < s.nsamp := (List.getElem?_eq_some_iff.1 ha).1.trans_eq hdllen
    rw [hout, if_pos hi, stereoSumAt_eq ha hb]
  · rw [hout, if_neg (Nat.not_lt.2 hi)]

end Sys2Proof.Machine
end

section
/-! PROOF. Soft reset (R251): what its store gives each register, and its completion. -/

namespace Sys2Proof.Machine

/-- R251, R291: the parameters that SRST keeps show in no register, so LASTCMD and STATUS alone can differ from reset. -/
theorem readReg_softReset (s : State) {r : Reg} (hcmd : r ≠ .cmd) (hstatus : r ≠ .status) :
    readReg (softReset s) r = readReg State.reset r := by
  cases r with
  | cmd => exact absurd rfl hcmd
  | status => exact absurd rfl hstatus
  | _ => rfl

/-- R261: `readLoc_complete` at a register. -/
theorem readReg_complete (code : ErrCode) (s : State) {r : Reg} (hstatus : r ≠ .status) :
    readReg (complete code s) r = readReg s r :=
  Option.some.inj (readLoc_complete (loc := .reg r) code fun h => hstatus (Loc.reg.inj h))

/-- R251: DONE is the one bit of STATUS that a completed soft reset leaves set. -/
theorem statusWord_complete_softReset (s : State) : statusWord (complete .ok (softReset s)) = 0x2 := by
  simp only [statusWord, isBusy, complete_eng, complete_done, complete_err, complete_tapsValid, softReset_tapsValid,
    complete_accErr, softReset_accErr, complete_wBusy, softReset_wBusy]
  decide

/-- R251: CTRL.IRQ_EN is 0 after a soft reset, so the completion raises no interrupt although it sets DONE. -/
theorem irq_complete_softReset (s : State) : irq (complete .ok (softReset s)) = false := by
  have hdisabled : irqEn (complete .ok (softReset s)) = false := by
    rw [irqEn, complete_ctrl, softReset_ctrl]
    decide
  rw [irq, hdisabled, Bool.false_and]

/-- Settles O47: SRST completes in the soft-reset state, and its completion changes no register but STATUS. That state keeps the model's own
fields too (log entry 10). -/
theorem srstRestoresTheRegisters : Obligations.SrstRestoresTheRegisters := fun s =>
  ⟨complete .ok (softReset s), rfl,
    fun _ hcmd hstatus => (readReg_complete .ok _ hstatus).trans (readReg_softReset s hcmd hstatus),
    rfl, statusWord_complete_softReset s, irq_complete_softReset s, rfl⟩

end Sys2Proof.Machine
end

section
/-! PROOF. The last engine step of a command (R260, R261): a CMD write puts a word in flight, and a word in flight runs the command
it decodes to, or completes with E_OPC or E_FIELD (R265, R266). -/

namespace Sys2Proof.Machine

/-! ### The engine's move -/

/-- With no move pending the next move is the engine's (log entry 1). -/
theorem step_of_no_turns {s : State} (ht : s.turns = []) : step s = engineStep s := by rw [step, nextMove, ht]

theorem step_of_engine_turn {s : State} {rest : List Turn} (ht : s.turns = .engine :: rest) :
    step s = engineStep { s with turns := rest } := by
  rw [step, nextMove, ht]

theorem engineStep_last {s : State} {w : Word} (he : s.eng = .busy w 0) : engineStep s = execute w s := by
  rw [engineStep, he]

theorem engineStep_countdown {s : State} {w : Word} {left : Nat} (he : s.eng = .busy w (left + 1)) :
    engineStep s = .next { s with eng := .busy w left } := by
  rw [engineStep, he]

theorem execute_of_decode_ok {w : Word} {i : Instr} (hd : decode w = .ok i) (s : State) : execute w s = exec i s := by
  rw [execute, hd]

theorem execute_of_decode_error {w : Word} {code : ErrCode} (hd : decode w = .error code) (s : State) :
    execute w s = .next (complete code s) := by
  rw [execute, hd]
  rfl

theorem decode_of_decodeTableWord {nbits w : Nat} {i : Instr} (h : decodeTableWord nbits w = some i) :
    decode (BitVec.ofNat 32 (w % 2 ^ nbits)) = .ok i := by
  rw [decodeTableWord] at h
  split at h
  · rename_i j hd
    rw [hd, Option.some.inj h]
  · cases h

/-- Settles O6: the step is the engine's, and `withFetchWord` leaves no other move pending. -/
theorem stepRunsTheCommandInFlight : Obligations.StepRunsTheCommandInFlight := by
  refine ⟨fun s w i he hd => ⟨fun ht => ?_, fun rest ht => ?_⟩, fun s nbits w i h => ?_⟩
  · rw [step_of_no_turns ht, engineStep_last he, execute_of_decode_ok hd]
  · have he' : ({ s with turns := rest } : State).eng = .busy w 0 := he
    rw [step_of_engine_turn ht, engineStep_last he', execute_of_decode_ok hd]
  · have ht : (s.withFetchWord nbits w).turns = [] := rfl
    have he : (s.withFetchWord nbits w).eng = .busy (BitVec.ofNat 32 (w % 2 ^ nbits)) 0 := rfl
    rw [step_of_no_turns ht, engineStep_last he, execute_of_decode_ok (decode_of_decodeTableWord h)]

/-- Settles O8: CMD is writable, so the write is taken while idle and dropped while BUSY. -/
theorem commandWriteIsAcceptedWhenIdle : Obligations.CommandWriteIsAcceptedWhenIdle := by
  intro s w rest ht
  refine ⟨fun hidle => ?_, fun v left hbusy => ?_⟩
  · exact ⟨Config.latency s.draws, _, step_writeReg .cmd ht rfl (.inl hidle), rfl⟩
  · exact step_write_busy ht (busTarget_reg s .cmd) rfl ((isBusy_iff s).2 ⟨v, left, hbusy⟩) nofun

/-! ### Words that do not decode -/

theorem step_of_decode_error {s : State} {w : Word} {code : ErrCode} (ht : s.turns = []) (he : s.eng = .busy w 0)
    (hd : decode w = .error code) : step s = .next (complete code s) := by
  rw [step_of_no_turns ht, engineStep_last he, execute_of_decode_error hd]

/-- The gaps between the rows of R106. -/
theorem mnemonicOf_eq_none_iff (opc : BitVec 8) :
    mnemonicOf opc = none ↔ (0x02 ≤ opc.toNat ∧ opc.toNat ≤ 0x0F) ∨ (0x16 ≤ opc.toNat ∧ opc.toNat ≤ 0x17) ∨
      (0x1B ≤ opc.toNat ∧ opc.toNat ≤ 0x1F) ∨ (0x25 ≤ opc.toNat ∧ opc.toNat ≤ 0x2F) ∨
      (0x31 ≤ opc.toNat ∧ opc.toNat ≤ 0xFF) := by
  revert opc; decide

/-- Settles O3: E_OPC is an opcode in a gap of R106. -/
theorem unassignedOpcodesRaiseEOpc : Obligations.UnassignedOpcodesRaiseEOpc := by
  intro w o unassigned
  have hopc : decode w = .error .opc ↔ unassigned := (decode_eq_opc_iff w).trans (mnemonicOf_eq_none_iff (opcField w))
  exact ⟨hopc, fun s ht he hu => step_of_decode_error ht he (hopc.2 hu)⟩

/-- The opcodes of the rows of R106. -/
def assignedOpcodes : List Nat :=
  [0x00, 0x01, 0x10, 0x11, 0x12, 0x13, 0x14, 0x15, 0x18, 0x19, 0x1A, 0x20, 0x21, 0x22, 0x23, 0x24, 0x30]

theorem mem_assignedOpcodes_iff (opc : BitVec 8) : opc.toNat ∈ assignedOpcodes ↔ ∃ c, mnemonicOf opc = some c := by
  rw [← Option.isSome_iff_exists]
  revert opc; decide

/-- R105, by opcode. -/
theorem usesSel_eq_false_iff (c : Mnemonic) : c.usesSel = false ↔ c.opcode.toNat ∉ [0x11, 0x23, 0x24] := by
  cases c <;> decide

theorem usesImm_eq_false_iff (c : Mnemonic) :
    c.usesImm = false ↔ c.opcode.toNat ∉ [0x10, 0x11, 0x12, 0x13, 0x14, 0x15, 0x19] := by
  cases c <;> decide

/-- The fields that a command leaves unused, read off the opcode of a word that holds it. -/
theorem malformed_iff {w : Word} {c : Mnemonic} (hc : mnemonicOf (opcField w) = some c) :
    (rsvField w ≠ 0 ∨ (c.usesSel = false ∧ selField w ≠ 0) ∨ (c.usesImm = false ∧ immField w ≠ 0)) ↔
      (rsvField w ≠ 0 ∨ (selField w ≠ 0 ∧ (opcField w).toNat ∉ [0x11, 0x23, 0x24]) ∨
        (immField w ≠ 0 ∧ (opcField w).toNat ∉ [0x10, 0x11, 0x12, 0x13, 0x14, 0x15, 0x19])) := by
  rw [usesSel_eq_false_iff, usesImm_eq_false_iff, (mnemonicOf_eq_some_iff _ c).1 hc, and_comm, and_comm (b := immField w ≠ 0)]

/-- Settles O4: E_FIELD is an assigned opcode with a bit set in a field that its command leaves unused. -/
theorem malformedFieldsRaiseEField : Obligations.MalformedFieldsRaiseEField := by
  intro w o malformed
  have hfield : decode w = .error .field ↔ malformed := by
    rw [decode_eq_field_iff]
    constructor
    · rintro ⟨c, hc, hbad⟩
      exact ⟨(mem_assignedOpcodes_iff _).2 ⟨c, hc⟩, (malformed_iff hc).1 hbad⟩
    · rintro ⟨hassigned, hbad⟩
      obtain ⟨c, hc⟩ := (mem_assignedOpcodes_iff (opcField w)).1 hassigned
      exact ⟨c, hc, (malformed_iff hc).2 hbad⟩
  exact ⟨hfield, fun s ht he hbad => step_of_decode_error ht he (hfield.2 hbad)⟩

end Sys2Proof.Machine
end

section
/-! PROOF. How a command that completes ends (R261, R263): with the one error whose condition holds (R264, R267 to R270), the state
otherwise unchanged, or with OK. -/

namespace Sys2Proof.Machine

open Sys2Proof.Statements

/-! ### Non-finite inputs (R241) -/

/-- Operand words of which one decodes to no finite value. -/
theorem nonFiniteWord_iff {cmd : Mnemonic} {name : MemName} {m : Mem Word} {n : Nat} {ws : List Word} (p : Params)
    (h : readOperand cmd name m 0 n = .ok ws) : nonFiniteWord p m n ↔ allSome (ws.map (dec32 p)) = none := by
  obtain ⟨hlen, hget⟩ := readOperand_ok h
  rw [allSome_none, List.mem_map]
  constructor
  · rintro ⟨k, w, hk, hw, hdec⟩
    rw [← Nat.zero_add k, hget k hk] at hw
    exact ⟨w, List.mem_of_getElem? hw, hdec⟩
  · rintro ⟨w, hw, hdec⟩
    obtain ⟨k, hk, rfl⟩ := List.getElem_of_mem hw
    have hword := hget k (hlen ▸ hk)
    rw [Nat.zero_add, List.getElem?_eq_getElem hk] at hword
    exact ⟨k, ws[k], hlen ▸ hk, hword, hdec⟩

theorem levelsOf_eq_none_iff (s : State) :
    levelsOf s = none ↔ dec32 s.params s.pilotLevel = none ∨ dec32 s.params s.rdsLevel = none ∨
      (s.ctrl.getLsbD 0 = true ∧ dec32 s.params s.rds2Level = none) := by
  rw [levelsOf, rds2En]
  cases dec32 s.params s.pilotLevel with
  | none => simp
  | some pilot =>
    cases dec32 s.params s.rdsLevel with
    | none => simp
    | some rds =>
      cases s.ctrl.getLsbD 0 with
      | false => simp
      | true => cases dec32 s.params s.rds2Level <;> simp

/-- The inputs of COMPOSE that R241 asks to be finite: the samples, and the levels it uses. -/
def NonFiniteInput (s : State) : Prop :=
  nonFiniteWord s.params s.lMem s.nsamp ∨ nonFiniteWord s.params s.rMem s.nsamp ∨
    dec32 s.params s.pilotLevel = none ∨ dec32 s.params s.rdsLevel = none ∨
    (s.ctrl.getLsbD 0 = true ∧ dec32 s.params s.rds2Level = none)

/-- COMPOSE's own check of its inputs, once it has read the samples. -/
theorem nonFiniteInput_iff {s : State} {ls rs : List Word} (hl : readOperand .compose .l s.lMem 0 s.nsamp = .ok ls)
    (hr : readOperand .compose .r s.rMem 0 s.nsamp = .ok rs) :
    NonFiniteInput s ↔
      allSome (ls.map (dec32 s.params)) = none ∨ allSome (rs.map (dec32 s.params)) = none ∨ levelsOf s = none := by
  rw [NonFiniteInput, nonFiniteWord_iff s.params hl, nonFiniteWord_iff s.params hr, levelsOf_eq_none_iff]

/-! ### The errors of the commands -/

/-- The commands that raise an error, and the condition of each (R267 to R270); one further down R264's order holds only where those
before it do not. -/
inductive Raises (s : State) : Instr → ErrCode → Prop
  | rate (h : s.fs.toNat < 4750) : Raises s .design .rate
  | designCap (hrate : 4750 ≤ s.fs.toNat) (h : s.params.tapCap < ntapsOf (spsOf s.fs.toNat)) : Raises s .design .cap
  | genbitsCap {n : BitVec 16} (h : s.params.bitCap < n.toNat) : Raises s (.genbits n) .cap
  | shapeNoTaps (h : s.tapsValid = false) : Raises s .shape .noTaps
  | shapeCap (hv : s.tapsValid = true) (h : s.params.sampleCap < s.symLen * s.sps) : Raises s .shape .cap
  | mixNoTaps {car : Carrier} (h : s.tapsValid = false) : Raises s (.mix car) .noTaps
  | modulateNoTaps {car : Carrier} (h : s.tapsValid = false) : Raises s (.modulate car) .noTaps
  | modulateCap {car : Carrier} (hv : s.tapsValid = true) (h : s.params.sampleCap < s.bitLen * s.sps) :
      Raises s (.modulate car) .cap
  | composeNoTaps (h : s.tapsValid = false) : Raises s .compose .noTaps
  | composeNonFinite (hv : s.tapsValid = true) (h : NonFiniteInput s) : Raises s .compose .nonFinite

namespace Raises

variable {s : State} {i : Instr} {c d : ErrCode}

theorem ne_ok (h : Raises s i c) : c ≠ .ok := by cases h <;> nofun

/-- R264: at most one error holds of a command in a state. -/
theorem unique (hc : Raises s i c) (hd : Raises s i d) : c = d := by
  cases hc with
  | rate h => cases hd with
    | rate => rfl
    | designCap hrate => omega
  | designCap hrate => cases hd with
    | rate h => omega
    | designCap => rfl
  | genbitsCap => cases hd; rfl
  | shapeNoTaps h => cases hd with
    | shapeNoTaps => rfl
    | shapeCap hv => simp [h] at hv
  | shapeCap hv => cases hd with
    | shapeNoTaps h => simp [h] at hv
    | shapeCap => rfl
  | mixNoTaps => cases hd; rfl
  | modulateNoTaps h => cases hd with
    | modulateNoTaps => rfl
    | modulateCap hv => simp [h] at hv
  | modulateCap hv => cases hd with
    | modulateNoTaps h => simp [h] at hv
    | modulateCap => rfl
  | composeNoTaps h => cases hd with
    | composeNoTaps => rfl
    | composeNonFinite hv => simp [h] at hv
  | composeNonFinite hv => cases hd with
    | composeNoTaps h => simp [h] at hv
    | composeNonFinite => rfl

end Raises

/-- The two ends of a command that completes: an error, with nothing written (R263), or OK, with the write set's new values, of which
LASTCMD is none. -/
inductive Completion (s : State) (i : Instr) : State → Prop
  | error {code : ErrCode} (h : Raises s i code) : Completion s i (complete code s)
  | success {u : State} (hno : ∀ code, ¬Raises s i code) (hcmd : u.lastCmd = s.lastCmd) : Completion s i (complete .ok u)

theorem Completion.of_succeed {s u t : State} {i : Instr} (h : succeed u = .next t) (hno : ∀ code, ¬Raises s i code)
    (hcmd : u.lastCmd = s.lastCmd) : Completion s i t :=
  succeed_next h ▸ .success hno hcmd

theorem nextGroup_lastCmd {cmd : Mnemonic} {s : State} {r : (List Bool × GType) × State} (h : nextGroup cmd s = .ok r) :
    r.2.lastCmd = s.lastCmd := by
  rw [nextGroup_frame h]

theorem generate_lastCmd {cmd : Mnemonic} {n : Nat} {s : State} {r : List Bool × State} (h : generate cmd n s = .ok r) :
    r.2.lastCmd = s.lastCmd := by
  rw [generate_frame h]

theorem execNextgrp_completion {s t : State} (h : execNextgrp s = .next t) : Completion s .nextgrp t := by
  obtain ⟨g, ty, u, hg, rfl⟩ := execNextgrp_next h
  exact .success nofun ((writeG_lastCmd g ty u).trans (nextGroup_lastCmd hg))

theorem execGenbits_completion {imm : BitVec 16} {s t : State} (h : execGenbits imm s = .next t) :
    Completion s (.genbits imm) t := by
  obtain ⟨hcap, rfl⟩ | ⟨hcap, bs, u, hg, rfl⟩ := execGenbits_next h
  · exact .error (.genbitsCap hcap)
  · refine .success (fun code hr => ?_) (generate_lastCmd hg)
    cases hr with
    | genbitsCap hbig => exact Nat.not_lt.2 hcap hbig

theorem execDesign_completion {s t : State} (h : execDesign s = .next t) : Completion s .design t := by
  obtain ⟨hrate, rfl⟩ | ⟨hrate, hcap, rfl⟩ | ⟨hrate, hcap, rfl⟩ := execDesign_next h
  · exact .error (.rate (Nat.lt_of_not_le (mt (rateOk_iff _).2 (Bool.eq_false_iff.1 hrate))))
  · exact .error (.designCap ((rateOk_iff _).1 hrate) hcap)
  · refine .success (fun code hr => ?_) rfl
    cases hr with
    | rate hlow => exact Nat.not_lt.2 ((rateOk_iff _).1 hrate) hlow
    | designCap _ hbig => exact Nat.not_lt.2 hcap hbig

theorem execShape_completion {s t : State} (h : execShape s = .next t) : Completion s .shape t := by
  obtain ⟨hv, rfl⟩ | ⟨hv, hcap, rfl⟩ | ⟨hv, hcap, _, _, _, _, rfl⟩ := execShape_next h
  · exact .error (.shapeNoTaps hv)
  · exact .error (.shapeCap hv hcap)
  · refine .success (fun code hr => ?_) rfl
    cases hr with
    | shapeNoTaps hno => simp [hno] at hv
    | shapeCap _ hbig => exact Nat.not_lt.2 hcap hbig

theorem execMix_completion {car : Carrier} {s t : State} (h : execMix car s = .next t) : Completion s (.mix car) t := by
  obtain ⟨hv, rfl⟩ | ⟨hv, _, _, rfl⟩ := execMix_next h
  · exact .error (.mixNoTaps hv)
  · refine .success (fun code hr => ?_) rfl
    cases hr with
    | mixNoTaps hno => simp [hno] at hv

theorem execModulate_completion {car : Carrier} {s t : State} (h : execModulate car s = .next t) :
    Completion s (.modulate car) t := by
  obtain ⟨hv, rfl⟩ | ⟨hv, hcap, rfl⟩ | ⟨hv, hcap, _, _, _, _, rfl⟩ := execModulate_next h
  · exact .error (.modulateNoTaps hv)
  · exact .error (.modulateCap hv hcap)
  · refine .success (fun code hr => ?_) rfl
    cases hr with
    | modulateNoTaps hno => simp [hno] at hv
    | modulateCap _ hbig => exact Nat.not_lt.2 hcap hbig

theorem execCompose_completion {s t : State} (h : execCompose s = .next t) : Completion s .compose t := by
  obtain ⟨hv, rfl⟩ | ⟨hv, ls, rs, hls, hrs, hbad, rfl⟩ | ⟨hv, ls, rs, l, r, lv, _, _, hls, hrs, hl, hr, hlv, _, _, _, rfl⟩ :=
    execCompose_next h
  · exact .error (.composeNoTaps hv)
  · exact .error (.composeNonFinite hv ((nonFiniteInput_iff hls hrs).2 hbad))
  · refine .success (fun code hraises => ?_) rfl
    cases hraises with
    | composeNoTaps hno => simp [hno] at hv
    | composeNonFinite _ hbad => simp [nonFiniteInput_iff hls hrs, hl, hr, hlv] at hbad

/-- Every command that completes ends in one of the two ways. -/
theorem exec_completion {i : Instr} {s t : State} (h : exec i s = .next t) : Completion s i t := by
  cases i with
  | nop => exact .of_succeed h nofun rfl
  | srst => exact .of_succeed h nofun (softReset_lastCmd s)
  | crc10 imm => exact .of_succeed h nofun rfl
  | pack blk imm => exact .of_succeed h nofun rfl
  | grp0a imm => exact .of_succeed h nofun (writeG_lastCmd _ _ s)
  | grp2a imm => exact .of_succeed h nofun (writeG_lastCmd _ _ s)
  | psload imm => exact .of_succeed h nofun rfl
  | rtload imm => exact .of_succeed h nofun rfl
  | nextgrp => exact execNextgrp_completion h
  | genbits imm => exact execGenbits_completion h
  | seqrst => exact .of_succeed h nofun rfl
  | design => exact execDesign_completion h
  | diffenc =>
    obtain ⟨_, _, rfl⟩ := execDiffenc_next h
    exact .success nofun rfl
  | shape => exact execShape_completion h
  | mix car => exact execMix_completion h
  | modulate car => exact execModulate_completion h
  | compose => exact execCompose_completion h

/-- The code of a command that completes is the error that holds of it. -/
theorem exec_err_iff {i : Instr} {s t : State} (code : ErrCode) (h : exec i s = .next t) (hcode : code ≠ .ok) :
    t.err = code ↔ Raises s i code := by
  cases exec_completion h with
  | error hr => exact ⟨fun he => he ▸ hr, fun hr' => hr.unique hr'⟩
  | success hno _ => exact iff_of_false hcode.symm (hno code)

/-! ### What every completion does -/

/-- Settles O10: both ends are `complete`, which sets DONE and leaves LASTCMD. -/
theorem everyCompletionSetsDone : Obligations.EveryCompletionSetsDone := by
  intro w s t h
  have hirq (code : ErrCode) (u : State) : irq (complete code u) = (complete code u).ctrl.getLsbD 2 := Bool.and_true _
  obtain ⟨code, _, rfl⟩ | ⟨i, _, hi⟩ := execute_next h
  · exact ⟨rfl, rfl, rfl, hirq code s⟩
  · cases exec_completion hi with
    | error => exact ⟨rfl, rfl, rfl, hirq _ s⟩
    | @success u _ hcmd => exact ⟨rfl, rfl, hcmd, hirq .ok u⟩

/-- Settles O9: a decoding error and an error of the command both complete the state before. -/
theorem failedCommandsChangeOnlyStatus : Obligations.FailedCommandsChangeOnlyStatus := by
  intro w s t h herr
  obtain ⟨code, _, rfl⟩ | ⟨i, _, hi⟩ := execute_next h
  · rfl
  · cases exec_completion hi with
    | error => rfl
    | success => exact absurd rfl herr

/-! ### Each error, exactly -/

/-- Settles O11: no other row of the errors has E_RATE. -/
theorem rateErrorExactlyAtLowRates : Obligations.RateErrorExactlyAtLowRates := by
  intro i s t h
  rw [exec_err_iff .rate h nofun]
  constructor
  · intro hr
    cases hr with
    | rate hlow => exact ⟨rfl, hlow⟩
  · rintro ⟨rfl, hlow⟩
    exact .rate hlow

/-- Settles O12, one filter user after the other. -/
theorem noTapsErrorExactlyWithoutFilter : Obligations.NoTapsErrorExactlyWithoutFilter := by
  intro i s t h
  rw [exec_err_iff .noTaps h nofun]
  constructor
  · intro hr
    cases hr with
    | shapeNoTaps hv => exact ⟨.inl rfl, hv⟩
    | mixNoTaps hv => exact ⟨.inr (.inl ⟨_, rfl⟩), hv⟩
    | modulateNoTaps hv => exact ⟨.inr (.inr (.inl ⟨_, rfl⟩)), hv⟩
    | composeNoTaps hv => exact ⟨.inr (.inr (.inr rfl)), hv⟩
  · rintro ⟨rfl | ⟨car, rfl⟩ | ⟨car, rfl⟩ | rfl, hv⟩
    · exact .shapeNoTaps hv
    · exact .mixNoTaps hv
    · exact .modulateNoTaps hv
    · exact .composeNoTaps hv

/-- Settles O13, one capacity check after the other. -/
theorem capacityErrorExactlyBeyondCapacity : Obligations.CapacityErrorExactlyBeyondCapacity := by
  intro i s t h
  rw [exec_err_iff .cap h nofun]
  constructor
  · intro hr
    cases hr with
    | designCap hrate hcap => exact .inl ⟨rfl, hrate, hcap⟩
    | genbitsCap hcap => exact .inr (.inl ⟨_, rfl, hcap⟩)
    | shapeCap hv hcap => exact .inr (.inr (.inl ⟨rfl, hv, hcap⟩))
    | modulateCap hv hcap => exact .inr (.inr (.inr ⟨_, rfl, hv, hcap⟩))
  · rintro (⟨rfl, hrate, hcap⟩ | ⟨n, rfl, hcap⟩ | ⟨rfl, hv, hcap⟩ | ⟨car, rfl, hv, hcap⟩)
    · exact .designCap hrate hcap
    · exact .genbitsCap hcap
    · exact .shapeCap hv hcap
    · exact .modulateCap hv hcap

/-- Settles O14: E_NONFINITE is in one row too, COMPOSE's. -/
theorem nonFiniteErrorExactlyOnNonFiniteInput : Obligations.NonFiniteErrorExactlyOnNonFiniteInput := by
  intro i s t h
  rw [exec_err_iff .nonFinite h nofun]
  constructor
  · intro hr
    cases hr with
    | composeNonFinite hv hbad => exact ⟨rfl, hv, hbad⟩
  · rintro ⟨rfl, hv, hbad⟩
    exact .composeNonFinite hv hbad

end Sys2Proof.Machine
end

section
/-! PROOF. Every accepted command ends (R261, R280, R303): no command and no move is refused, and the engine steps before the last
one only count down. -/

namespace Sys2Proof.Machine

/-! ### Nothing is refused -/

section
variable {r : Refusal}

theorem succeed_ne_refused (s : State) : succeed s ≠ .refused r := nofun

theorem raiseError_ne_refused (code : ErrCode) (s : State) : raiseError code s ≠ .refused r := nofun

theorem withValue_ne_refused {α : Type} {o : Except Fault α} {k : α → Result} (h : ∀ v, k v ≠ .refused r) :
    withValue o k ≠ .refused r := by
  cases o with
  | error f => nofun
  | ok v => exact h v

theorem execGenbits_ne_refused (imm : BitVec 16) (s : State) : execGenbits imm s ≠ .refused r := by
  rw [execGenbits]
  split
  · exact raiseError_ne_refused _ s
  · exact withValue_ne_refused fun _ => succeed_ne_refused _

theorem execDesign_ne_refused (s : State) : execDesign s ≠ .refused r := by
  simp only [execDesign]
  split
  · exact raiseError_ne_refused .rate s
  · split
    · exact raiseError_ne_refused .cap s
    · exact succeed_ne_refused _

theorem execShape_ne_refused (s : State) : execShape s ≠ .refused r := by
  rw [execShape]
  split
  · exact raiseError_ne_refused _ s
  · split
    · exact raiseError_ne_refused _ s
    · exact withValue_ne_refused fun syms => withValue_ne_refused fun _ => succeed_ne_refused _

theorem execMix_ne_refused (car : Carrier) (s : State) : execMix car s ≠ .refused r := by
  rw [execMix]
  split
  · exact raiseError_ne_refused _ s
  · exact withValue_ne_refused fun _ => succeed_ne_refused _

theorem execModulate_ne_refused (car : Carrier) (s : State) : execModulate car s ≠ .refused r := by
  rw [execModulate]
  split
  · exact raiseError_ne_refused _ s
  · split
    · exact raiseError_ne_refused _ s
    · exact withValue_ne_refused fun bits => withValue_ne_refused fun _ => succeed_ne_refused _

theorem execCompose_ne_refused (s : State) : execCompose s ≠ .refused r := by
  rw [execCompose]
  split
  · exact raiseError_ne_refused _ s
  · refine withValue_ne_refused fun ls => withValue_ne_refused fun rs => ?_
    split
    · refine withValue_ne_refused fun bits => withValue_ne_refused fun taps => ?_
      simp only
      split
      · nofun
      · exact succeed_ne_refused _
    · exact raiseError_ne_refused _ s

/-- Every instruction has its meaning (R106). -/
theorem exec_ne_refused (i : Instr) (s : State) : exec i s ≠ .refused r := by
  cases i with
  | nop | srst | crc10 | pack | grp0a | grp2a | psload | rtload | seqrst => exact succeed_ne_refused _
  | nextgrp | diffenc => exact withValue_ne_refused fun _ => succeed_ne_refused _
  | genbits imm => exact execGenbits_ne_refused imm s
  | design => exact execDesign_ne_refused s
  | shape => exact execShape_ne_refused s
  | mix car => exact execMix_ne_refused car s
  | modulate car => exact execModulate_ne_refused car s
  | compose => exact execCompose_ne_refused s

theorem execute_ne_refused (w : Word) (s : State) : execute w s ≠ .refused r := by
  rw [execute]
  split
  · exact raiseError_ne_refused _ s
  · exact exec_ne_refused _ s

theorem engineStep_ne_refused (s : State) : engineStep s ≠ .refused r := by
  rw [engineStep]
  split
  · nofun
  · exact execute_ne_refused _ s
  · nofun

end

/-- Settles O17: a move of the host or of the platform always has a next state. -/
theorem noStepIsRefused : Obligations.NoStepIsRefused := by
  intro s r
  rw [step, nextMove]
  split
  · exact engineStep_ne_refused s
  · exact engineStep_ne_refused _
  all_goals nofun

/-! ### The latency -/

theorem run_succ_of_step (M : Host.Core) {s t : M.State} (h : M.step s = .next t) (k : Nat) : M.run (k + 1) s = M.run k t := by
  rw [Host.Core.run, h]

theorem run_one (M : Host.Core) (s : M.State) : M.run 1 s = M.step s := by
  rw [Host.Core.run]
  cases M.step s <;> rfl

/-- The steps before the last one count down and change nothing else (R261). -/
theorem run_countdown {s : State} {w : Word} {left : Nat} (ht : s.turns = []) (he : s.eng = .busy w left) (k : Nat) :
    Sys2Proof.core.run (left + k) s = Sys2Proof.core.run k { s with eng := .busy w 0 } := by
  induction left generalizing s with
  | zero => rw [Nat.zero_add, ← he]
  | succ left ih =>
    have hstep : step s = .next { s with eng := .busy w left } := (step_of_no_turns ht).trans (engineStep_countdown he)
    rw [Nat.add_right_comm]
    exact (run_succ_of_step Sys2Proof.core hstep (left + k)).trans (ih (s := { s with eng := .busy w left }) ht rfl)

/-- The last step of a command. -/
theorem run_last {s : State} {w : Word} (ht : s.turns = []) (he : s.eng = .busy w 0) :
    Sys2Proof.core.run 1 s = execute w s :=
  (run_one Sys2Proof.core s).trans ((step_of_no_turns ht).trans (engineStep_last he))

/-- Settles O7: after the countdown the last step executes the word, and what completes is done and idle (O10). -/
theorem acceptedCommandEndsAfterItsLatency : Obligations.AcceptedCommandEndsAfterItsLatency := by
  intro s w left ht he
  have hlast : Sys2Proof.core.run (left + 1) s = execute w { s with eng := .busy w 0 } :=
    (run_countdown ht he 1).trans (run_last ht rfl)
  refine ⟨run_countdown ht he 0, ?_⟩
  rw [hlast]
  cases hend : execute w { s with eng := .busy w 0 } with
  | next t =>
    obtain ⟨hdone, hidle, _⟩ := everyCompletionSetsDone w _ t hend
    exact .inl ⟨t, rfl, hidle, hdone⟩
  | fault f => exact .inr ⟨f, rfl⟩
  | refused r => exact absurd hend (execute_ne_refused w _)

end Sys2Proof.Machine
end

section
/-! PROOF. Power-on reset (R290 to R292) and the idle engine (R293): what the registers and memories hold after a reset, that it has the
invariant, and the moves of an idle block. -/

namespace Sys2Proof.Machine

open Sys2Proof.Statements

/-! ### What a reset leaves in the registers and memories -/

/-- R291: the parameters, which power-on reset keeps, show in no register. -/
theorem readReg_powerOnReset (s : State) (r : Reg) : readReg (powerOnReset s) r = readReg State.reset r := by
  cases r <;> rfl

/-- R292: every memory is empty. -/
theorem isUndefined_powerOnReset (s : State) (m : MemName) (k : Nat) : isUndefined (powerOnReset s) m k := by
  cases m <;> exact memGet_nil k

theorem powerOnReset_reset : powerOnReset State.reset = State.reset := rfl

theorem isUndefined_reset (m : MemName) (k : Nat) : isUndefined State.reset m k :=
  powerOnReset_reset ▸ isUndefined_powerOnReset State.reset m k

/-- R78 in an array whose bytes are all the same. -/
theorem wordOfBytes_replicate {n : Nat} (b : Byte) (k : Nat) (h : 4 * k + 3 < n) :
    wordOfBytes (.replicate n b) k h = b ++ b ++ b ++ b := by
  simp only [wordOfBytes, Vector.getElem_replicate]

/-- R47, R291: PS holds spaces. -/
theorem readReg_reset_ps (k : Fin 2) : readReg State.reset (.ps k) = 0x20202020 :=
  wordOfBytes_replicate 0x20 k.val _

/-- R48, R291: RT holds spaces. -/
theorem readReg_reset_rt (k : Fin 16) : readReg State.reset (.rt k) = 0x20202020 :=
  wordOfBytes_replicate 0x20 k.val _

/-- R291: the registers without a reset value of their own. -/
theorem readReg_reset_zero {r : Reg} (hid : r ≠ .id) (hversion : r ≠ .version) (hps : ∀ k, r ≠ .ps k)
    (hrt : ∀ k, r ≠ .rt k) : readReg State.reset r = 0 := by
  cases r with
  | id => exact absurd rfl hid
  | version => exact absurd rfl hversion
  | ps k => exact absurd rfl (hps k)
  | rt k => exact absurd rfl (hrt k)
  | gbuf k => exact Vector.getElem_replicate k.isLt
  | txt k => exact wordOfBytes_replicate 0 k.val _
  | _ => rfl

/-- Settles O48: by register, and with every memory empty. -/
theorem resetValues : Obligations.ResetValues :=
  ⟨rfl, rfl, fun _ => readReg_reset_zero, readReg_reset_ps, readReg_reset_rt, isUndefined_reset, rfl, rfl⟩

/-! ### Power-on reset as a move -/

theorem step_of_powerOn_turn {s : State} {rest : List Turn} (ht : s.turns = .powerOn :: rest) :
    step s = .next (powerOnReset { s with turns := rest }) := by
  rw [step, nextMove, ht]

/-- Settles O49: the reset does not look at the engine, so a command in flight is lost. What the last clause keeps is the model's choice (log
entry 10). -/
theorem powerOnResetAbandonsTheCommand : Obligations.PowerOnResetAbandonsTheCommand := fun _ _ ht =>
  ⟨_, step_of_powerOn_turn ht, readReg_powerOnReset _, isUndefined_powerOnReset _, rfl, rfl⟩

/-! ### The idle engine -/

theorem engineStep_idle {s : State} (he : s.eng = .idle) : engineStep s = .next s := by rw [engineStep, he]

/-- Settles O50: the move is the engine's, whether it is listed or the list is empty. -/
theorem idleEngineDoesNothing : Obligations.IdleEngineDoesNothing := fun _ he =>
  ⟨fun ht => (step_of_no_turns ht).trans (engineStep_idle he),
    fun _ ht => (step_of_engine_turn ht).trans (engineStep_idle he)⟩

/-! ### The invariant -/

/-- Settles O59, the base case to `stepKeepsTheInvariant`: the default capacities are legal (R8), and `inv_powerOnReset` asks for no more, but
of a state that has the invariant already. -/
theorem resetHasTheInvariant : Obligations.ResetHasTheInvariant where
  params := by decide
  canonical := by constructor <;> exact memWf_nil
  capacity := by constructor <;> exact nofun
  lengths := by constructor <;> exact Nat.zero_le _
  cursor := .inl rfl
  taps := ⟨nofun, fun _ => ⟨rfl, rfl⟩⟩
  engine := nofun
  group := ⟨Nat.zero_le _, fun _ _ hj => gbufBit_zero rfl hj⟩
  buffers := by constructor <;> exact nofun
  output := nofun

end Sys2Proof.Machine
end
